-- ==== Sys2Proof/Word.lean ====
section
/-! DEFINITION. The word types of the engine: the widths that 00_scope R7 names `u8` and `u16`. -/
namespace Sys2Proof

/-- A `u8`: a status byte, a command byte, a select byte, a byte of the buffer (00_scope R7). -/
abbrev Byte := BitVec 8

/-- A `u16`: what one access of DATA moves (20_memory R43). -/
abbrev Word := BitVec 16

end Sys2Proof
end

