-- ==== Sys2Proof/Syntax.lean ====
section
/-! DEFINITION. The instructions: one constructor for each of the 22 rows of opcode_table.json, and the raw form in
which an instruction stands before it is decoded. -/
namespace Sys2Proof

/-- One of the two legacy IDE channels (00_scope glossary; 30_encoding R79: `ch` 0 = primary, 1 = secondary). -/
inductive Channel where
  | primary
  | secondary
  deriving DecidableEq, Repr

/-- Which of the three name spaces of 30_encoding R70 a byte belongs to: a request of the upward interface, a byte
written to the COMMAND register of a channel, or a byte written to its DEVICE_SELECT register. -/
inductive Dest where
  | request
  | command (ch : Channel)
  | deviceSelect (ch : Channel)
  deriving DecidableEq, Repr

/-- A raw instruction: the place a code byte goes to, the byte, and its arguments in the order of 30_encoding R79, each
a natural number. -/
structure Raw where
  dest : Dest
  code : Byte
  args : List Nat
  deriving DecidableEq, Repr

/-- The operations and the emitted bytes of the engine, one constructor per row of the opcode table. Argument names and
widths are those of 30_encoding R79. -/
inductive Instr where
  /-- command byte 0xEC (R71) -/
  | identifyCmd (ch : Channel)
  /-- command byte 0x20 (R71) -/
  | readSectorsCmd (ch : Channel)
  /-- command byte 0x30 (R71) -/
  | writeSectorsCmd (ch : Channel)
  /-- command byte 0xE7 (R71) -/
  | flushCacheCmd (ch : Channel)
  /-- select byte 0xA0 (R73) -/
  | selMaster (ch : Channel)
  /-- select byte 0xB0 (R73) -/
  | selSlave (ch : Channel)
  /-- select byte 0xE0 with `l` = `lba[27:24]` (R74) -/
  | xferSelMaster (ch : Channel) (l : BitVec 4)
  /-- select byte 0xF0 with `l` = `lba[27:24]` (R74) -/
  | xferSelSlave (ch : Channel) (l : BitVec 4)
  /-- request 0x00 (R134) -/
  | init
  /-- request 0x01 (R200) -/
  | read (deviceId buffer : Nat) (byteOffset byteSize : BitVec 64)
  /-- request 0x02 (R201) -/
  | write (deviceId buffer : Nat) (byteOffset byteSize : BitVec 64)
  /-- request 0x10 (R133) -/
  | probeAll
  /-- request 0x11 (R121) -/
  | select (id : Nat)
  /-- request 0x12 (R120) -/
  | selectPosition (ch : Channel) (isMaster : Bool)
  /-- request 0x13 (R122) -/
  | ensureSelected (id : Nat)
  /-- request 0x14 (R102) -/
  | poll (ch : Channel) (clrMask setMask errMask : Byte) (budget : Nat)
  /-- request 0x15 (R130) -/
  | identify (ch : Channel) (isMaster : Bool)
  /-- request 0x16 (R150) -/
  | decode (w : Vector Word 256)
  /-- request 0x17 (R173) -/
  | readSectors (device : Nat) (lba : BitVec 32) (cnt : Byte) (out : Nat)
  /-- request 0x18 (R174) -/
  | writeSectors (device : Nat) (lba : BitVec 32) (cnt : Byte) (data : Nat)
  /-- request 0x19 (R178) -/
  | readSectors48 (device : Nat) (lba : BitVec 64) (cnt : Byte) (out : Nat)
  /-- request 0x1A (R178) -/
  | writeSectors48 (device : Nat) (lba : BitVec 64) (cnt : Byte) (data : Nat)
  deriving DecidableEq, Repr

end Sys2Proof
end

