-- ==== Sys2Proof/Decode.lean ====
section
/-! DEFINITION. Decoding a raw instruction, total on every raw form and rejecting by name; the encoder; the bytes of
30_encoding that both are written from; and the opcode table's own numbering of a row's bits. -/
namespace Sys2Proof

/-- Why a raw instruction decodes to nothing. -/
inductive Reject where
  /-- a request code that 30_encoding R79 does not list -/
  | unknownRequestCode
  /-- a byte that is none of the four command bytes of R71 -/
  | notACommandByte
  /-- a byte that is no select byte of R73 or R74 -/
  | notASelectByte
  /-- not as many arguments as R79 gives the code -/
  | wrongArgumentCount
  /-- an argument that does not fit the width R79 gives it -/
  | argumentTooWide
  deriving DecidableEq, Repr

/-! ### Command bytes (R71) -/

/-- The four commands the engine issues. -/
inductive Command where
  | readSectors
  | writeSectors
  | flushCache
  | identify
  deriving DecidableEq, Repr

/-- The byte of a command (R71). -/
def Command.byte : Command → Byte
  | .readSectors => 0x20#8
  | .writeSectors => 0x30#8
  | .flushCache => 0xE7#8
  | .identify => 0xEC#8

/-- The command a byte written to COMMAND stands for (R71, R81 b). -/
def Command.ofByte (b : Byte) : Option Command :=
  [Command.readSectors, .writeSectors, .flushCache, .identify].find? fun c => c.byte == b

/-! ### Select bytes (R73, R74) -/

/-- The selection form: 0xA0 for a master, 0xB0 for a slave (R73). -/
def selectByte (isMaster : Bool) : Byte :=
  bif isMaster then 0xA0#8 else 0xB0#8

/-- The transfer form: 0xE0 for a master or 0xF0 for a slave, with `lba[27:24]` in bits 3:0 (R74). -/
def transferSelectByte (isMaster : Bool) (l : BitVec 4) : Byte :=
  (bif isMaster then 0xE0#8 else 0xF0#8) ||| l.setWidth 8

/-! ### Request codes (R79) -/

/-- The fourteen operations of the upward interface. -/
inductive ReqOp where
  | init
  | read
  | write
  | probeAll
  | select
  | selectPosition
  | ensureSelected
  | poll
  | identify
  | decode
  | readSectors
  | writeSectors
  | readSectors48
  | writeSectors48
  deriving DecidableEq, Repr

/-- The request code of an operation (R79). -/
def ReqOp.code : ReqOp → Byte
  | .init => 0x00#8
  | .read => 0x01#8
  | .write => 0x02#8
  | .probeAll => 0x10#8
  | .select => 0x11#8
  | .selectPosition => 0x12#8
  | .ensureSelected => 0x13#8
  | .poll => 0x14#8
  | .identify => 0x15#8
  | .decode => 0x16#8
  | .readSectors => 0x17#8
  | .writeSectors => 0x18#8
  | .readSectors48 => 0x19#8
  | .writeSectors48 => 0x1A#8

/-- How many arguments R79 gives an operation. -/
def ReqOp.arity : ReqOp → Nat
  | .init => 0
  | .read => 4
  | .write => 4
  | .probeAll => 0
  | .select => 1
  | .selectPosition => 2
  | .ensureSelected => 1
  | .poll => 5
  | .identify => 2
  | .decode => 256
  | .readSectors => 4
  | .writeSectors => 4
  | .readSectors48 => 4
  | .writeSectors48 => 4

/-- Every operation, in the order of R79. -/
def ReqOp.all : List ReqOp :=
  [.init, .read, .write, .probeAll, .select, .selectPosition, .ensureSelected, .poll, .identify, .decode,
    .readSectors, .writeSectors, .readSectors48, .writeSectors48]

/-- The operation of a request code, if R79 lists it. -/
def ReqOp.ofCode (c : Byte) : Option ReqOp :=
  ReqOp.all.find? fun o => o.code == c

/-! ### Arguments -/

/-- An unsigned argument of `w` bits (R79). -/
def narrow (w n : Nat) : Except Reject (BitVec w) :=
  if n < 2 ^ w then .ok (BitVec.ofNat w n) else .error .argumentTooWide

/-- A one-bit argument (R79): `is_master`. -/
def narrowBit (n : Nat) : Except Reject Bool :=
  match n with
  | 0 => .ok false
  | 1 => .ok true
  | _ + 2 => .error .argumentTooWide

/-- A channel argument (R79): 0 = primary, 1 = secondary. -/
def narrowChannel (n : Nat) : Except Reject Channel :=
  match n with
  | 0 => .ok .primary
  | 1 => .ok .secondary
  | _ + 2 => .error .argumentTooWide

/-- Unsigned 16-bit arguments, one after another. -/
def narrowWords : List Nat → Except Reject (List Word)
  | [] => .ok []
  | n :: ns =>
    match narrow 16 n with
    | .error e => .error e
    | .ok v =>
      match narrowWords ns with
      | .error e => .error e
      | .ok vs => .ok (v :: vs)

/-- The 256 words of DECODE's argument (R79). -/
def narrowBuffer (ns : List Nat) : Except Reject (Vector Word 256) :=
  match narrowWords ns with
  | .error e => .error e
  | .ok vs => if h : vs.length = 256 then .ok ⟨vs.toArray, by simpa using h⟩ else .error .wrongArgumentCount

/-- The natural number of a one-bit argument. -/
def bitArg (b : Bool) : Nat := bif b then 1 else 0

/-- The natural number of a channel argument. -/
def channelArg : Channel → Nat
  | .primary => 0
  | .secondary => 1

/-! ### The decoder -/

/-- A byte written to COMMAND of channel `ch` (R71). -/
def decodeCommand (ch : Channel) (c : Byte) : Except Reject Instr :=
  match Command.ofByte c with
  | some .readSectors => .ok (.readSectorsCmd ch)
  | some .writeSectors => .ok (.writeSectorsCmd ch)
  | some .flushCache => .ok (.flushCacheCmd ch)
  | some .identify => .ok (.identifyCmd ch)
  | none => .error .notACommandByte

/-- A byte written to DEVICE_SELECT of channel `ch` (R73, R74). -/
def decodeSelect (ch : Channel) (c : Byte) : Except Reject Instr :=
  if c = 0xA0#8 then .ok (.selMaster ch)
  else if c = 0xB0#8 then .ok (.selSlave ch)
  else if c &&& 0xF0#8 = 0xE0#8 then .ok (.xferSelMaster ch (c.setWidth 4))
  else if c &&& 0xF0#8 = 0xF0#8 then .ok (.xferSelSlave ch (c.setWidth 4))
  else .error .notASelectByte

/-- A request with its arguments (R79). -/
def decodeRequest (o : ReqOp) (args : List Nat) : Except Reject Instr :=
  match o, args with
  | .init, [] => .ok .init
  | .read, [d, b, off, size] => do return .read d b (← narrow 64 off) (← narrow 64 size)
  | .write, [d, b, off, size] => do return .write d b (← narrow 64 off) (← narrow 64 size)
  | .probeAll, [] => .ok .probeAll
  | .select, [i] => .ok (.select i)
  | .selectPosition, [ch, m] => do return .selectPosition (← narrowChannel ch) (← narrowBit m)
  | .ensureSelected, [i] => .ok (.ensureSelected i)
  | .poll, [ch, c, s, e, budget] => do
    return .poll (← narrowChannel ch) (← narrow 8 c) (← narrow 8 s) (← narrow 8 e) budget
  | .identify, [ch, m] => do return .identify (← narrowChannel ch) (← narrowBit m)
  | .decode, ws => do return .decode (← narrowBuffer ws)
  | .readSectors, [d, lba, n, b] => do return .readSectors d (← narrow 32 lba) (← narrow 8 n) b
  | .writeSectors, [d, lba, n, b] => do return .writeSectors d (← narrow 32 lba) (← narrow 8 n) b
  | .readSectors48, [d, lba, n, b] => do return .readSectors48 d (← narrow 64 lba) (← narrow 8 n) b
  | .writeSectors48, [d, lba, n, b] => do return .writeSectors48 d (← narrow 64 lba) (← narrow 8 n) b
  | _, _ => .error .wrongArgumentCount

/-- The instruction of a raw form. The name space is fixed by where the byte goes (R70): 0x20 is READ SECTORS as a
command byte and nothing as a request. -/
def decodeRaw (r : Raw) : Except Reject Instr :=
  match r.dest with
  | .request =>
    match ReqOp.ofCode r.code with
    | none => .error .unknownRequestCode
    | some o => decodeRequest o r.args
  | .command ch => if r.args = [] then decodeCommand ch r.code else .error .wrongArgumentCount
  | .deviceSelect ch => if r.args = [] then decodeSelect ch r.code else .error .wrongArgumentCount

/-! ### The encoder -/

/-- The raw form of an instruction (R71, R73, R74, R79). -/
def encode : Instr → Raw
  | .identifyCmd ch => ⟨.command ch, Command.identify.byte, []⟩
  | .readSectorsCmd ch => ⟨.command ch, Command.readSectors.byte, []⟩
  | .writeSectorsCmd ch => ⟨.command ch, Command.writeSectors.byte, []⟩
  | .flushCacheCmd ch => ⟨.command ch, Command.flushCache.byte, []⟩
  | .selMaster ch => ⟨.deviceSelect ch, selectByte true, []⟩
  | .selSlave ch => ⟨.deviceSelect ch, selectByte false, []⟩
  | .xferSelMaster ch l => ⟨.deviceSelect ch, transferSelectByte true l, []⟩
  | .xferSelSlave ch l => ⟨.deviceSelect ch, transferSelectByte false l, []⟩
  | .init => ⟨.request, ReqOp.init.code, []⟩
  | .read d b off size => ⟨.request, ReqOp.read.code, [d, b, off.toNat, size.toNat]⟩
  | .write d b off size => ⟨.request, ReqOp.write.code, [d, b, off.toNat, size.toNat]⟩
  | .probeAll => ⟨.request, ReqOp.probeAll.code, []⟩
  | .select i => ⟨.request, ReqOp.select.code, [i]⟩
  | .selectPosition ch m => ⟨.request, ReqOp.selectPosition.code, [channelArg ch, bitArg m]⟩
  | .ensureSelected i => ⟨.request, ReqOp.ensureSelected.code, [i]⟩
  | .poll ch c s e n => ⟨.request, ReqOp.poll.code, [channelArg ch, c.toNat, s.toNat, e.toNat, n]⟩
  | .identify ch m => ⟨.request, ReqOp.identify.code, [channelArg ch, bitArg m]⟩
  | .decode w => ⟨.request, ReqOp.decode.code, w.toList.map BitVec.toNat⟩
  | .readSectors d lba n b => ⟨.request, ReqOp.readSectors.code, [d, lba.toNat, n.toNat, b]⟩
  | .writeSectors d lba n b => ⟨.request, ReqOp.writeSectors.code, [d, lba.toNat, n.toNat, b]⟩
  | .readSectors48 d lba n b => ⟨.request, ReqOp.readSectors48.code, [d, lba.toNat, n.toNat, b]⟩
  | .writeSectors48 d lba n b => ⟨.request, ReqOp.writeSectors48.code, [d, lba.toNat, n.toNat, b]⟩

/-! ### The opcode table -/

/-- The encoding part of one row of opcode_table.json: its mnemonic, its `match` and its `mask`. -/
structure Row where
  mnemonic : String
  pattern : Byte
  mask : Byte
  deriving DecidableEq, Repr

/-- The rows whose `format` is `CMD8`. -/
def commandRows : List Row :=
  [⟨"IDENTIFY_CMD", 0xEC#8, 0xFF#8⟩, ⟨"READ_SECTORS_CMD", 0x20#8, 0xFF#8⟩,
    ⟨"WRITE_SECTORS_CMD", 0x30#8, 0xFF#8⟩, ⟨"FLUSH_CACHE_CMD", 0xE7#8, 0xFF#8⟩]

/-- The rows whose `format` is `SEL8` or `XSEL8`. -/
def selectRows : List Row :=
  [⟨"SEL_MASTER", 0xA0#8, 0xFF#8⟩, ⟨"SEL_SLAVE", 0xB0#8, 0xFF#8⟩,
    ⟨"XFER_SEL_MASTER", 0xE0#8, 0xF0#8⟩, ⟨"XFER_SEL_SLAVE", 0xF0#8, 0xF0#8⟩]

/-- The rows whose `format` is `REQ`. -/
def requestRows : List Row :=
  [⟨"INIT", 0x00#8, 0xFF#8⟩, ⟨"READ", 0x01#8, 0xFF#8⟩, ⟨"WRITE", 0x02#8, 0xFF#8⟩,
    ⟨"PROBE_ALL", 0x10#8, 0xFF#8⟩, ⟨"SELECT", 0x11#8, 0xFF#8⟩, ⟨"SELECT_POSITION", 0x12#8, 0xFF#8⟩,
    ⟨"ENSURE_SELECTED", 0x13#8, 0xFF#8⟩, ⟨"POLL", 0x14#8, 0xFF#8⟩, ⟨"IDENTIFY", 0x15#8, 0xFF#8⟩,
    ⟨"DECODE", 0x16#8, 0xFF#8⟩, ⟨"READ_SECTORS", 0x17#8, 0xFF#8⟩, ⟨"WRITE_SECTORS", 0x18#8, 0xFF#8⟩,
    ⟨"READ_SECTORS48", 0x19#8, 0xFF#8⟩, ⟨"WRITE_SECTORS48", 0x1A#8, 0xFF#8⟩]

/-- The mnemonic of an instruction's row. -/
def Instr.mnemonic : Instr → String
  | .identifyCmd _ => "IDENTIFY_CMD"
  | .readSectorsCmd _ => "READ_SECTORS_CMD"
  | .writeSectorsCmd _ => "WRITE_SECTORS_CMD"
  | .flushCacheCmd _ => "FLUSH_CACHE_CMD"
  | .selMaster _ => "SEL_MASTER"
  | .selSlave _ => "SEL_SLAVE"
  | .xferSelMaster _ _ => "XFER_SEL_MASTER"
  | .xferSelSlave _ _ => "XFER_SEL_SLAVE"
  | .init => "INIT"
  | .read _ _ _ _ => "READ"
  | .write _ _ _ _ => "WRITE"
  | .probeAll => "PROBE_ALL"
  | .select _ => "SELECT"
  | .selectPosition _ _ => "SELECT_POSITION"
  | .ensureSelected _ => "ENSURE_SELECTED"
  | .poll _ _ _ _ _ => "POLL"
  | .identify _ _ => "IDENTIFY"
  | .decode _ => "DECODE"
  | .readSectors _ _ _ _ => "READ_SECTORS"
  | .writeSectors _ _ _ _ => "WRITE_SECTORS"
  | .readSectors48 _ _ _ _ => "READ_SECTORS48"
  | .writeSectors48 _ _ _ _ => "WRITE_SECTORS48"

/-- The rows of the name space a byte belongs to (R70). -/
def rowsOf : Dest → List Row
  | .request => requestRows
  | .command _ => commandRows
  | .deviceSelect _ => selectRows

/-- The raw form of a table row's byte with every operand zero: the request of that code; else, on the primary
channel, the command of that byte; else the select byte. The opcode table gives a row eight bits and does not say which
name space they belong to; of its rows only two bytes fall under two, 0xE7 and 0xEC, which are a command byte and a
transfer-form select byte: they are read as the command (log 3). -/
def tableRaw (w : Nat) : Raw :=
  let c := BitVec.ofNat 8 w
  match ReqOp.ofCode c with
  | some o => ⟨.request, c, List.replicate o.arity 0⟩
  | none =>
    match Command.ofByte c with
    | some _ => ⟨.command .primary, c, []⟩
    | none => if 0xA0#8 ≤ c then ⟨.deviceSelect .primary, c, []⟩ else ⟨.request, c, []⟩

/-- The instruction the decoder reads from a table row's bits, numbered as opcode_table.json numbers them: every row
has eight. -/
def decodeTableWord (nbits w : Nat) : Option Instr :=
  if nbits = 8 ∧ w < 256 then (decodeRaw (tableRaw w)).toOption else none

end Sys2Proof
end

