-- ==== Sys2Proof/Config.lean ====
section
/-! DEFINITION. What an implementation fixes: the constants of 00_scope R6, the defaults it gives for the open
parameters, and the model's free values. -/
namespace Sys2Proof.Config

/-- `MAX_DEVICES` (R6): the capacity of the registry. -/
def maxDevices : Nat := 4

/-- `SETTLE_READS` (R6): dummy alternate-status reads after a select byte. -/
def settleReads : Nat := 4

/-- `POST_READ_SETTLE_MAX` (R6): most status reads after a sector is read. -/
def postReadSettleMax : Nat := 400

/-- `WORDS_IDENTIFY` (R6): words read after IDENTIFY. -/
def wordsIdentify : Nat := 256

/-- `ALIGN_SHIFT` (R6, 92 D14): the right shift applied after masking word 209 with 0xC. -/
def alignShift : Nat := 0

/-- One less than the poll budget of the machine after reset. The source gives the bound no number (R6, 92 D2), so
neither does the model: the constant is opaque. -/
opaque pollBudgetLessOne : Nat

/-- `POLL_BUDGET` of the machine after reset: some natural number >= 1 (R6). -/
def pollBudget : Nat := pollBudgetLessOne + 1

/-- `FLUSH_BUDGET` of the machine after reset: R6's default, `POLL_BUDGET`. -/
def flushBudget : Nat := pollBudget

/-- FREE VALUE. What the port backend answers at port access number `n` when the scripted answers are used up
(00_scope R5; 93 U6: any value). -/
opaque freeAnswer : Nat → BitVec 16

end Sys2Proof.Config
end

