-- ==== Sys2Proof/Machine/State.lean ====
section
/-! DEFINITION. The state of the machine as plain data, the reasons a step can stop, and the state after reset. -/
namespace Sys2Proof.Machine

/-! ### Registry -/

/-- The seven fields of a device record that DECODE computes (10_state R11, 43_decoder R158). -/
structure Decoded where
  logicalSectorSize : BitVec 64
  physicalSectorSize : BitVec 64
  logicalSectorAlignment : BitVec 64
  lba28SectorCount : BitVec 32
  lba48SectorCount : BitVec 64
  supportedUdmaMask : Byte
  activeUdmaMode : Byte
  deriving DecidableEq, Repr

/-- A device record: nine fields (R11), the two identity fields filled by PROBE_ALL (R133). -/
structure Device extends Decoded where
  channelBase : Nat
  isMaster : Bool
  deriving DecidableEq, Repr

/-- The selected-device state (R14). -/
inductive Selected where
  | unselected
  | device (i : Nat)
  deriving DecidableEq, Repr

/-! ### Results (30_encoding R80) -/

/-- What a poll returns (R102). -/
inductive PollOutcome where
  | ready
  | errorFlagged
  | timedOut
  deriving DecidableEq, Repr

/-- The error kinds that a `Result` carries (R80, 60_exceptions R220). `NotPresent` is no member: it is the result of
IDENTIFY alone and records nothing (`Result.notPresent`). -/
inductive ErrorKind where
  | protocolError
  | timeout
  | unsupportedAddress
  | unimplemented
  | invalidArgument
  deriving DecidableEq, Repr

/-- What an operation delivers to the caller (R80, R233). -/
inductive Result where
  /-- INIT: the device count -/
  | deviceCount (n : Nat)
  /-- PROBE_ALL: the registry, delivered as the engine state -/
  | registry
  /-- POLL: its outcome -/
  | polled (o : PollOutcome)
  /-- IDENTIFY: the identify buffer -/
  | identifyBuffer (w : Vector Word 256)
  /-- IDENTIFY: error kind 1, a normal probe outcome -/
  | notPresent
  /-- DECODE: the seven decoded fields -/
  | record (d : Decoded)
  /-- an operation that succeeds and returns nothing -/
  | nothing
  /-- `Ok(n)`, `n` sectors transferred -/
  | ok (n : Nat)
  /-- `Err(kind, n)`, `n` sectors completed -/
  | err (kind : ErrorKind) (n : Nat)
  deriving DecidableEq, Repr

/-! ### The trace (00_scope R8, R9) -/

/-- One event of the trace, named as R8 names it. A port is a port number. The engine reads and writes the buffer two
bytes at a time only (20_memory R49). -/
inductive Event where
  /-- `R8(p)=v` -/
  | r8 (port : Nat) (v : Byte)
  /-- `R16(p)=v` -/
  | r16 (port : Nat) (v : Word)
  /-- `W8(p,v)` -/
  | w8 (port : Nat) (v : Byte)
  /-- `W16(p,v)` -/
  | w16 (port : Nat) (v : Word)
  /-- `MR(addr,2)=v` -/
  | mr (addr : Nat) (v : Word)
  /-- `MW(addr,2,v)` -/
  | mw (addr : Nat) (v : Word)
  deriving DecidableEq, Repr

/-! ### Parameters (00_scope R6) -/

/-- The registers the engine touches on a channel (10_state R20). -/
inductive Reg where
  | data
  | sectorCount
  | lbaLow
  | lbaMid
  | lbaHi
  | deviceSelect
  | status
  | command
  | altStatus
  deriving DecidableEq, Repr

/-- The OPEN parameters of R6. They are fixed for a machine: no step writes them (10_state R26). -/
structure Params where
  pollBudget : Nat
  flushBudget : Nat
  basePrimary : Nat
  baseSecondary : Nat
  altPrimary : Nat
  altSecondary : Nat
  offData : Nat
  offSectorCount : Nat
  offLbaLow : Nat
  offLbaMid : Nat
  offLbaHi : Nat
  offDeviceSelect : Nat
  offStatus : Nat
  offCommand : Nat
  deriving DecidableEq, Repr

/-! ### Working registers (10_state R16 to R19) -/

/-- The sequencer position: the step of an operation's rule that is making its access. The names are the rules' own
(P3 of R102, SP1 and SP2 of R120, I2 to I8 of R130, T1 to T4 of R172, R5b of R173, PS3 of R176, W5b of R174, F1 of
R177); `start` is the position before the first access, `order` the one of a byte of R71, R73 or R74 issued alone. -/
inductive SeqStep where
  | start
  | order
  | p3
  | sp1
  | sp2
  | i2
  | i3
  | i4
  | i6
  | i8
  | t1
  | t2
  | t3
  | t4
  | r5b
  | ps3
  | w5b
  | f1
  deriving DecidableEq, Repr

/-- The call-local working registers (R17), with the sequencer position (R16). -/
structure Work where
  seq : SeqStep
  s : Byte
  n : Nat
  lba : BitVec 32
  cnt : Byte
  k : Nat
  j : Nat
  t : Nat
  mid : Byte
  hi : Byte
  w : Vector Word 256
  buf : Nat
  pos : Nat
  deriving DecidableEq, Repr

/-- The working registers as an operation finds them. Each rule writes a register before it reads it, so no result
depends on these values (log 11). -/
def Work.fresh : Work where
  seq := .start
  s := 0
  n := 0
  lba := 0
  cnt := 0
  k := 0
  j := 0
  t := 0
  mid := 0
  hi := 0
  w := Vector.replicate 256 0
  buf := 0
  pos := 0

/-- The request phase (R16): idle, or busy with the operation in progress. -/
inductive Phase where
  | idle
  | busy (op : Instr)
  deriving DecidableEq, Repr

/-! ### Buffer memory (20_memory R40) -/

/-- The caller's buffer memory: (address, byte) pairs in canonical form (`Memory.wf`). -/
abbrev Memory := List Host.Cell

/-! ### The state -/

/-- The engine's state (10_state R10) with what it works on: the caller's buffer and requests, the trace, the answers
of the port backend, and the parameters. -/
structure State where
  /-- the parameters of R6 -/
  params : Params
  /-- the populated slots of the registry, in probe order (R13) -/
  dev : List Device
  /-- R14 -/
  selected : Selected
  /-- R15 -/
  initDone : Bool
  /-- R16 -/
  phase : Phase
  /-- R17; they exist only inside an operation (R25) -/
  work : Option Work
  /-- the caller's buffer memory (R26) -/
  mem : Memory
  /-- the trace, newest event first (R9) -/
  log : List Event
  /-- the result last delivered (R80) -/
  result : Option Result
  /-- the requests the caller will issue, the next one first (R5) -/
  requests : List Raw
  /-- MODEL'S OWN: the answers of the port backend still to come (R5); after them, free values -/
  answers : List Word
  /-- MODEL'S OWN: how many port accesses have been made -/
  accesses : Nat
  /-- MODEL'S OWN: the number of the port access that never completes, if there is one (93 U18) -/
  stall : Option Nat
  deriving DecidableEq, Repr

/-- What an operation in progress works on: the buffer, the ports, the trace and its working registers. What is not
here, an operation on a `Run` cannot change: the registry, `selected`, `initDone`. -/
structure Run where
  mem : Memory
  log : List Event
  answers : List Word
  accesses : Nat
  work : Work
  deriving DecidableEq, Repr

/-- `count` (R13): how many slots are populated. -/
def State.count (s : State) : Nat := s.dev.length

/-- The trace in the order of R9, oldest event first. -/
def State.trace (s : State) : List Event := s.log.reverse

/-! ### Stops -/

/-- The ways the engine comes to a stop. Its own failures are no stops: they are results (60_exceptions R220, R225). -/
inductive Fault where
  /-- a port access that never completes (93_implementation_defined U18, 60_exceptions R234): raised by any operation
  that reaches the access `stall` names; the engine is stuck inside the operation. Safe: nothing is claimed after it. -/
  | portAccessNeverCompletes
  deriving DecidableEq, Repr

/-- What the model gives no meaning. -/
inductive Refusal where
  /-- an instruction whose meaning is not written yet: raised by an arm of `exec`; safe -/
  | notModelled (mnemonic : String)
  /-- a request while the phase is Busy (93 U4, R231): raised by every meaning; safe, no run reaches it -/
  | requestWhileBusy
  /-- parameters outside the range of R6: a budget of 0, or two equal channel bases (93 U17): raised by every meaning;
  safe, no step changes a parameter -/
  | parametersOutOfRange
  /-- a registry with a record whose `channelBase` is the base of neither channel, which R11 excludes: raised by every
  meaning; safe, no run reaches it -/
  | recordOnNoChannel
  /-- a raw instruction that R71, R73, R74 and R79 do not encode, other than an unknown request code (which R81
  answers): raised by `step`; safe -/
  | undecodable
  deriving DecidableEq, Repr

/-! ### Reset -/

/-- The parameters after reset: R6's defaults, and for the poll budget, which has none, an opaque number (log 7). -/
def Params.default : Params where
  pollBudget := Config.pollBudget
  flushBudget := Config.flushBudget
  basePrimary := 0x1F0
  baseSecondary := 0x170
  altPrimary := 0x3F6
  altSecondary := 0x376
  offData := 0
  offSectorCount := 2
  offLbaLow := 3
  offLbaMid := 4
  offLbaHi := 5
  offDeviceSelect := 6
  offStatus := 7
  offCommand := 7

/-- The machine after reset (10_state R25, 70_reset_and_hazards R250). -/
def State.reset : State where
  params := Params.default
  dev := []
  selected := .unselected
  initDone := false
  phase := .idle
  work := none
  mem := []
  log := []
  result := none
  requests := []
  answers := []
  accesses := 0
  stall := none

end Sys2Proof.Machine
end

