-- ==== Sys2Proof/Machine/Flags.lean ====
section
/-! DEFINITION. The status byte: its four flags (30_encoding R72), the masks and the two tests of a poll (R82), and the
numbers of outcomes and error kinds (R80). -/
namespace Sys2Proof.Machine

/-! ### Flags (10_state R18, R21) -/

/-- BUSY, bit 7. -/
def flagBsy (s : Byte) : Bool := s.getLsbD 7

/-- DRIVE-FAULT, bit 5. -/
def flagDf (s : Byte) : Bool := s.getLsbD 5

/-- DATA-REQUEST, bit 3. -/
def flagDrq (s : Byte) : Bool := s.getLsbD 3

/-- ERROR, bit 0. -/
def flagErr (s : Byte) : Bool := s.getLsbD 0

/-- The mask of BUSY (R72). -/
def maskBsy : Byte := 0x80#8

/-- The mask of DRIVE-FAULT (R72). -/
def maskDf : Byte := 0x20#8

/-- The mask of DATA-REQUEST (R72). -/
def maskDrq : Byte := 0x08#8

/-- The mask of ERROR (R72). -/
def maskErr : Byte := 0x01#8

/-! ### The tests of a poll (R82) -/

/-- The readiness predicate: `(s & clr) = 0` and `(s & set) = set`. -/
def statusReady (clrMask setMask s : Byte) : Bool :=
  s &&& clrMask == 0 && s &&& setMask == setMask

/-- An error is flagged: `(s & err) != 0`. -/
def statusError (errMask s : Byte) : Bool :=
  s &&& errMask != 0

/-! ### Codes (R80, 60_exceptions R220) -/

/-- POLL outcome codes. -/
def PollOutcome.code : PollOutcome → Nat
  | .ready => 0
  | .errorFlagged => 1
  | .timedOut => 2

/-- Error kind codes. -/
def ErrorKind.code : ErrorKind → Nat
  | .protocolError => 2
  | .timeout => 3
  | .unsupportedAddress => 4
  | .unimplemented => 5
  | .invalidArgument => 6

/-- The error code of a result: 0 where it is no error, 1 for `NotPresent`. -/
def Result.code : Result → Nat
  | .notPresent => 1
  | .err kind _ => kind.code
  | .deviceCount _ => 0
  | .registry => 0
  | .polled _ => 0
  | .identifyBuffer _ => 0
  | .record _ => 0
  | .nothing => 0
  | .ok _ => 0

end Sys2Proof.Machine
end

