-- ==== Sys2Proof/Machine/Operands.lean ====
section
/-! DEFINITION. Operand forms: the port map (20_memory R41), positions (30_encoding R85), the split of an LBA over four
registers (R75), addresses in the buffer (20_memory R46) and the translation of a byte range (R48, 45_byte_entry R202). -/
namespace Sys2Proof.Machine

/-! ### The port map -/

/-- `PORT_BASE[ch]` (00_scope R6). -/
def Params.base (p : Params) : Channel → Nat
  | .primary => p.basePrimary
  | .secondary => p.baseSecondary

/-- `PORT_ALT[ch]` (R6). -/
def Params.alt (p : Params) : Channel → Nat
  | .primary => p.altPrimary
  | .secondary => p.altSecondary

/-- `Port(ch, r)` (20_memory R41): a pure lookup. -/
def Params.port (p : Params) (ch : Channel) : Reg → Nat
  | .altStatus => p.alt ch
  | .data => p.base ch + p.offData
  | .sectorCount => p.base ch + p.offSectorCount
  | .lbaLow => p.base ch + p.offLbaLow
  | .lbaMid => p.base ch + p.offLbaMid
  | .lbaHi => p.base ch + p.offLbaHi
  | .deviceSelect => p.base ch + p.offDeviceSelect
  | .status => p.base ch + p.offStatus
  | .command => p.base ch + p.offCommand

/-- The range of the parameters: budgets >= 1 (R6), two different channel bases (R41, 93 U17). -/
def Params.wf (p : Params) : Bool :=
  p.pollBudget != 0 && p.flushBudget != 0 && p.basePrimary != p.baseSecondary

/-- A record's `channelBase` is the base of one of the channels (10_state R11). -/
def Params.knows (p : Params) (d : Device) : Bool :=
  d.channelBase == p.basePrimary || d.channelBase == p.baseSecondary

/-- The channel of a record: the one whose `PORT_BASE` equals its `channelBase` (R41). Of a record that
`Params.knows`, under parameters that are `Params.wf`, exactly one channel is. -/
def Params.channelOf (p : Params) (d : Device) : Channel :=
  if d.channelBase = p.basePrimary then .primary else .secondary

/-! ### Positions (R85) -/

/-- The channel of a position: `pos[1]`. -/
def positionChannel (pos : Nat) : Channel :=
  if pos < 2 then .primary else .secondary

/-- `is_master` of a position: `1 - pos[0]`. -/
def positionIsMaster (pos : Nat) : Bool :=
  pos == 0 || pos == 2

/-! ### The LBA (R75) -/

/-- `lba[7:0]`, the byte of LBA_LOW. -/
def lbaLowByte (lba : BitVec 32) : Byte := lba.extractLsb' 0 8

/-- `lba[15:8]`, the byte of LBA_MID. -/
def lbaMidByte (lba : BitVec 32) : Byte := lba.extractLsb' 8 8

/-- `lba[23:16]`, the byte of LBA_HI. -/
def lbaHiByte (lba : BitVec 32) : Byte := lba.extractLsb' 16 8

/-- `lba[27:24]`, the low four bits of the transfer-form select byte. -/
def lbaSelectNibble (lba : BitVec 32) : BitVec 4 := lba.extractLsb' 24 4

/-- `lba[31:28]`, which must be zero (44_sector_transfer R171 X1). -/
def lbaTopNibble (lba : BitVec 32) : BitVec 4 := lba.extractLsb' 28 4

/-! ### The buffer -/

/-- The byte address of word `j` of sector `k` of a transfer at `buf` with sectors of `size` bytes (20_memory R46):
natural numbers, no wrap. -/
def wordAddress (buf k size j : Nat) : Nat := buf + k * size + 2 * j

/-- The words of one sector: `L / 2` (44_sector_transfer R170). -/
def sectorWords (size : Nat) : Nat := size / 2

/-! ### Byte ranges -/

/-- A sector size that a transfer cannot use: 0 or odd (R171 X4, R202 B2). -/
def badSectorSize (size : BitVec 64) : Bool :=
  size.toNat == 0 || size.toNat % 2 == 1

/-- The first of B1 to B5 that fails, or the pair (lba, cnt) (45_byte_entry R202, 20_memory R48). -/
def entryChecks (dev : List Device) (id : Nat) (byteOffset byteSize : BitVec 64) :
    Except ErrorKind (BitVec 32 × Byte) :=
  match dev[id]? with
  | none => .error .invalidArgument
  | some d =>
    let size := d.logicalSectorSize.toNat
    if badSectorSize d.logicalSectorSize then .error .invalidArgument
    else if byteOffset.toNat % size ≠ 0 ∨ byteSize.toNat % size ≠ 0 then .error .invalidArgument
    else if 2 ^ 28 ≤ byteOffset.toNat / size then .error .unsupportedAddress
    else if byteSize.toNat / size = 0 ∨ 255 < byteSize.toNat / size then .error .invalidArgument
    else .ok (BitVec.ofNat 32 (byteOffset.toNat / size), BitVec.ofNat 8 (byteSize.toNat / size))

/-- The first of X1 to X4 that fails, or the record (44_sector_transfer R171). -/
def transferChecks (dev : List Device) (device : Nat) (lba : BitVec 32) (cnt : Byte) : Except ErrorKind Device :=
  if lbaTopNibble lba ≠ 0 then .error .unsupportedAddress
  else
    match dev[device]? with
    | none => .error .invalidArgument
    | some d =>
      if cnt = 0 then .error .invalidArgument
      else if badSectorSize d.logicalSectorSize then .error .invalidArgument
      else .ok d

end Sys2Proof.Machine
end

