-- ==== Sys2Proof/Machine/Ops.lean ====
section
/-! DEFINITION. The named operations every meaning is built from: the buffer memory, the port and buffer accesses of
00_scope R8, the steps several rules share, and the course of a request from acceptance to delivery (10_state R16,
60_exceptions R225). -/
namespace Sys2Proof.Machine

/-! ### Buffer memory (20_memory R40, R45) -/

/-- What an address that is not listed reads as (log 8). -/
def Memory.unlisted : Byte := 0#8

/-- The canonical form: addresses strictly rising, no entry equal to what an unlisted address reads as. -/
abbrev Memory.wf (m : Memory) : Prop :=
  m.Pairwise (fun c d => c.1 < d.1) ∧ ∀ c ∈ m, c.2 ≠ Memory.unlisted

/-- The byte at an address. -/
def Memory.read (m : Memory) (a : Nat) : Byte :=
  match m with
  | [] => Memory.unlisted
  | (b, u) :: rest => if a = b then u else Memory.read rest a

/-- Put one byte at an address, keeping the canonical form. -/
def Memory.write (m : Memory) (a : Nat) (v : Byte) : Memory :=
  match m with
  | [] => if v = Memory.unlisted then [] else [(a, v)]
  | (b, u) :: rest =>
    if a < b then (if v = Memory.unlisted then (b, u) :: rest else (a, v) :: (b, u) :: rest)
    else if a = b then (if v = Memory.unlisted then rest else (a, v) :: rest)
    else (b, u) :: Memory.write rest a v

/-- The 16-bit word at an address, low byte first (R45). -/
def Memory.readWord (m : Memory) (a : Nat) : Word :=
  Memory.read m (a + 1) ++ Memory.read m a

/-- Put a 16-bit word at an address: `v[7:0]` at `a`, `v[15:8]` at `a + 1` (R45). -/
def Memory.writeWord (m : Memory) (a : Nat) (v : Word) : Memory :=
  Memory.write (Memory.write m a (v.extractLsb' 0 8)) (a + 1) (v.extractLsb' 8 8)

/-- The byte of the buffer at an address. -/
def State.byte (s : State) (a : Nat) : Byte := Memory.read s.mem a

/-! ### Accesses (00_scope R8): one event each, in the order they are made (20_memory R50) -/

/-- `seq <- l` (10_state R16). -/
def Run.goto (l : SeqStep) (r : Run) : Run := { r with work := { r.work with seq := l } }

/-- What the port backend answers next (00_scope R5): the next scripted answer, else a free value. -/
def Run.answer (r : Run) : Word :=
  match r.answers with
  | [] => Config.freeAnswer r.accesses
  | v :: _ => v

/-- `PortRead(p, 1)`: an answer's low byte. -/
def portRead8 (l : SeqStep) (port : Nat) (r : Run) : Byte × Run :=
  (r.answer.setWidth 8,
    { r.goto l with
      log := .r8 port (r.answer.setWidth 8) :: r.log
      answers := r.answers.tail
      accesses := r.accesses + 1 })

/-- `PortRead(p, 2)`. -/
def portRead16 (l : SeqStep) (port : Nat) (r : Run) : Word × Run :=
  (r.answer,
    { r.goto l with
      log := .r16 port r.answer :: r.log
      answers := r.answers.tail
      accesses := r.accesses + 1 })

/-- `PortWrite(p, 1, v)`. -/
def portWrite8 (l : SeqStep) (port : Nat) (v : Byte) (r : Run) : Run :=
  { r.goto l with log := .w8 port v :: r.log, accesses := r.accesses + 1 }

/-- `PortWrite(p, 2, v)`. -/
def portWrite16 (l : SeqStep) (port : Nat) (v : Word) (r : Run) : Run :=
  { r.goto l with log := .w16 port v :: r.log, accesses := r.accesses + 1 }

/-- `MemRead(addr, 2)`. -/
def memRead16 (l : SeqStep) (addr : Nat) (r : Run) : Word × Run :=
  (Memory.readWord r.mem addr, { r.goto l with log := .mr addr (Memory.readWord r.mem addr) :: r.log })

/-- `MemWrite(addr, 2, v)`. -/
def memWrite16 (l : SeqStep) (addr : Nat) (v : Word) (r : Run) : Run :=
  { r.goto l with log := .mw addr v :: r.log, mem := Memory.writeWord r.mem addr v }

/-! ### Steps that several rules share -/

/-- A command byte to COMMAND of a channel (30_encoding R71). -/
def writeCommand (l : SeqStep) (p : Params) (ch : Channel) (c : Command) (r : Run) : Run :=
  portWrite8 l (p.port ch .command) c.byte r

/-- A select byte to DEVICE_SELECT of a channel (R73, R74). -/
def writeSelect (l : SeqStep) (p : Params) (ch : Channel) (v : Byte) (r : Run) : Run :=
  portWrite8 l (p.port ch .deviceSelect) v r

/-- `status_read(ch)` (40_port_and_poll R101): the status snapshot is overwritten whole. -/
def statusRead (l : SeqStep) (p : Params) (ch : Channel) (r : Run) : Run :=
  let a := portRead8 l (p.port ch .status) r
  { a.2 with work := { a.2.work with s := a.1 } }

/-- The loop P2 to P7 of POLL with `m` reads of the budget left (R102): error before readiness before exhaustion. -/
def pollLoop (p : Params) (ch : Channel) (clrMask setMask errMask : Byte) : Nat → Run → PollOutcome × Run
  | 0, r => (.timedOut, r)
  | m + 1, r =>
    let q := statusRead .p3 p ch r
    let q := { q with work := { q.work with n := q.work.n + 1 } }
    if statusError errMask q.work.s then (.errorFlagged, q)
    else if statusReady clrMask setMask q.work.s then (.ready, q)
    else pollLoop p ch clrMask setMask errMask m q

/-- `poll(ch, clr, set, err, budget)` (R102). -/
def poll (p : Params) (ch : Channel) (clrMask setMask errMask : Byte) (budget : Nat) (r : Run) : PollOutcome × Run :=
  pollLoop p ch clrMask setMask errMask budget { r with work := { r.work with n := 0 } }

/-- Step SP2 of `select_position` with `m` settle reads left; the values are discarded (41_selection R120). -/
def settleReads (p : Params) (ch : Channel) : Nat → Run → Run
  | 0, r => r
  | m + 1, r => settleReads p ch m (portRead8 .sp2 (p.port ch .altStatus) r).2

/-- `select_position(ch, is_master)` (R120): the select byte, then the settle reads. -/
def selectPosition (p : Params) (ch : Channel) (isMaster : Bool) (r : Run) : Run :=
  settleReads p ch Config.settleReads (writeSelect .sp1 p ch (selectByte isMaster) r)

/-! ### Operations on the whole state -/

/-- What an operation in progress works on. -/
def State.run (s : State) : Run where
  mem := s.mem
  log := s.log
  answers := s.answers
  accesses := s.accesses
  work := s.work.getD Work.fresh

/-- The state with what the operation in progress has done to it. -/
def State.withRun (s : State) (r : Run) : State :=
  { s with mem := r.mem, log := r.log, answers := r.answers, accesses := r.accesses, work := some r.work }

/-- Run an operation that reads no engine state and returns a result. -/
def State.runWith (f : Run → Result × Run) (s : State) : Result × State :=
  ((f s.run).1, s.withRun (f s.run).2)

/-- `raise K(n)` (00_scope R8, 60_exceptions R225): the operation ends here with `Err(K, n)` and changes nothing more. -/
def raiseError (kind : ErrorKind) (n : Nat) (s : State) : Result × State :=
  (.err kind n, s)

/-- `select(id)` (41_selection R121). -/
def selectDevice (id : Nat) (s : State) : Result × State :=
  match s.dev[id]? with
  | none => raiseError .invalidArgument 0 s
  | some d =>
    (.nothing,
      { s.withRun (selectPosition s.params (s.params.channelOf d) d.isMaster s.run) with selected := .device id })

/-- `ensure_selected(id)` (R122): reselect if different. -/
def ensureSelected (id : Nat) (s : State) : Result × State :=
  if s.selected = .device id then (.nothing, s) else selectDevice id s

/-! ### A request from acceptance to delivery (10_state R16) -/

/-- The request is accepted: the phase becomes Busy and the working registers come into being. -/
def State.accept (op : Instr) (s : State) : State :=
  { s with phase := .busy op, work := some Work.fresh }

/-- The result is delivered, the phase returns to Idle and the working registers cease to exist (R16, R17; 60 R225,
R226). -/
def State.deliver (res : Result) (s : State) : State :=
  { s with phase := .idle, work := none, result := some res }

/-- Every record of the registry is on a channel (10_state R11). -/
def State.registryKnown (s : State) : Bool := s.dev.all s.params.knows

/-- The outcome of a request that started in `s`, ran to `t` and delivers `res`: the state after delivery, unless it
reached the port access that never completes (93 U18). -/
def conclude (s : State) (res : Result) (t : State) : Host.Outcome State Fault Refusal :=
  match s.stall with
  | none => .next (t.deliver res)
  | some n =>
    if s.accesses ≤ n ∧ n < t.accesses then .fault .portAccessNeverCompletes else .next (t.deliver res)

/-- A request is answered only by an idle engine, under parameters in range, with a registry R11 allows. -/
def State.refusal (s : State) : Option Refusal :=
  if s.phase ≠ .idle then some .requestWhileBusy
  else if s.params.wf = false then some .parametersOutOfRange
  else if s.registryKnown = false then some .recordOnNoChannel
  else none

/-- One request as one step: accept, run, deliver (10_state R16: a whole operation as one big step). -/
def perform (op : Instr) (body : State → Result × State) (s : State) : Host.Outcome State Fault Refusal :=
  match s.refusal with
  | some r => .refused r
  | none => conclude s (body (s.accept op)).1 (body (s.accept op)).2

/-- A request code that R79 does not list: `Err(InvalidArgument, 0)`, no access (30_encoding R81 a). -/
def answerUnknownRequest (s : State) : Host.Outcome State Fault Refusal :=
  match s.refusal with
  | some r => .refused r
  | none => conclude s (raiseError .invalidArgument 0 s).1 (raiseError .invalidArgument 0 s).2

/-- What a raw instruction that decodes to nothing does: an unknown request code has its answer in R81 (a); no rule says
what the others do (log 17). -/
def answerReject (e : Reject) (s : State) : Host.Outcome State Fault Refusal :=
  match e with
  | .unknownRequestCode => answerUnknownRequest s
  | .notACommandByte => .refused .undecodable
  | .notASelectByte => .refused .undecodable
  | .wrongArgumentCount => .refused .undecodable
  | .argumentTooWide => .refused .undecodable

/-- The next request of the caller, and the state in which it has been issued. -/
def State.fetch (s : State) : Option (Raw × State) :=
  match s.requests with
  | [] => none
  | raw :: rest => some (raw, { s with requests := rest })

end Sys2Proof.Machine
end

