-- ==== Sys2Proof/Machine/Transfer.lean ====
section
/-! DEFINITION. The Sector Transfer Engine with 28-bit LBA and the 48-bit stubs (44_sector_transfer). -/
namespace Sys2Proof.Machine

/-- Steps T1 to T4 (R172): six port writes from the registers `lba` and `cnt`. -/
def transferSetup (p : Params) (ch : Channel) (isMaster : Bool) (c : Command) (r : Run) : Run :=
  let r := writeSelect .t1 p ch (transferSelectByte isMaster (lbaSelectNibble r.work.lba)) r
  let r := portWrite8 .t2 (p.port ch .sectorCount) r.work.cnt r
  let r := portWrite8 .t3 (p.port ch .lbaLow) (lbaLowByte r.work.lba) r
  let r := portWrite8 .t3 (p.port ch .lbaMid) (lbaMidByte r.work.lba) r
  let r := portWrite8 .t3 (p.port ch .lbaHi) (lbaHiByte r.work.lba) r
  writeCommand .t4 p ch c r

/-- The poll of steps R5a and W5a: BUSY clear and DATA-REQUEST set, error mask ERROR or DRIVE-FAULT (R173, R174, 40
R105). -/
def transferPoll (p : Params) (ch : Channel) (r : Run) : PollOutcome × Run :=
  poll p ch maskBsy maskDrq (maskErr ||| maskDf) p.pollBudget r

/-- Step R5b with `m` words left: each word from DATA to the buffer (R173, 20_memory R46). -/
def readWords (p : Params) (ch : Channel) (size : Nat) : Nat → Run → Run
  | 0, r => r
  | m + 1, r =>
    let a := portRead16 .r5b (p.port ch .data) r
    let q := memWrite16 .r5b (wordAddress a.2.work.buf a.2.work.k size a.2.work.j) a.1 a.2
    readWords p ch size m { q with work := { q.work with j := q.work.j + 1 } }

/-- Step W5b with `m` words left: each word from the buffer to DATA (R174, 20_memory R46). -/
def writeWords (p : Params) (ch : Channel) (size : Nat) : Nat → Run → Run
  | 0, r => r
  | m + 1, r =>
    let a := memRead16 .w5b (wordAddress r.work.buf r.work.k size r.work.j) r
    let q := portWrite16 .w5b (p.port ch .data) a.1 a.2
    writeWords p ch size m { q with work := { q.work with j := q.work.j + 1 } }

/-- The loop PS2 to PS5 with `m` reads left (R176). -/
def settleLoop (p : Params) (ch : Channel) : Nat → Run → Run
  | 0, r => r
  | m + 1, r =>
    let q := statusRead .ps3 p ch r
    let q := { q with work := { q.work with t := q.work.t + 1 } }
    if q.work.s &&& maskDrq = 0#8 then q else settleLoop p ch m q

/-- `post_read_settle(ch)` (R176): no failure outcome. -/
def postReadSettle (p : Params) (ch : Channel) (r : Run) : Run :=
  settleLoop p ch Config.postReadSettleMax { r with work := { r.work with t := 0 } }

/-- `flush_and_wait(ch, k)` (R177): the poll tests BUSY only. -/
def flushAndWait (p : Params) (ch : Channel) (r : Run) : PollOutcome × Run :=
  poll p ch maskBsy 0#8 0#8 p.flushBudget (writeCommand .f1 p ch .flushCache r)

/-- `j <- 0`: the first word of a sector. -/
def Run.firstWord (r : Run) : Run := { r with work := { r.work with j := 0 } }

/-- `k <- k + 1`: the sector is completed. -/
def Run.nextSector (r : Run) : Run := { r with work := { r.work with k := r.work.k + 1 } }

/-- Steps R5b and R5c of one sector: its words, then the post-read settle; the sector is then completed (92 D20). -/
def readSector (p : Params) (ch : Channel) (size : Nat) (r : Run) : Run :=
  (postReadSettle p ch (readWords p ch size (sectorWords size) r.firstWord)).nextSector

/-- Steps W5b and W5d of one sector: its words, then the flush and its wait. -/
def writeSector (p : Params) (ch : Channel) (size : Nat) (r : Run) : PollOutcome × Run :=
  flushAndWait p ch (writeWords p ch size (sectorWords size) r.firstWord)

/-- Step R5 with `m` sectors left (R173, R175): a failed poll ends the operation with the sectors completed so far. -/
def readLoop (p : Params) (ch : Channel) (size : Nat) : Nat → Run → Result × Run
  | 0, r => (.ok r.work.cnt.toNat, r)
  | m + 1, r =>
    let q := transferPoll p ch r
    match q.1 with
    | .errorFlagged => (.err .protocolError q.2.work.k, q.2)
    | .timedOut => (.err .timeout q.2.work.k, q.2)
    | .ready => readLoop p ch size m (readSector p ch size q.2)

/-- Step W5 with `m` sectors left (R174, R175, R177): a sector whose flush wait times out is not counted. -/
def writeLoop (p : Params) (ch : Channel) (size : Nat) : Nat → Run → Result × Run
  | 0, r => (.ok r.work.cnt.toNat, r)
  | m + 1, r =>
    let q := transferPoll p ch r
    match q.1 with
    | .errorFlagged => (.err .protocolError q.2.work.k, q.2)
    | .timedOut => (.err .timeout q.2.work.k, q.2)
    | .ready =>
      let f := writeSector p ch size q.2
      if f.1 = .timedOut then (.err .timeout f.2.work.k, f.2) else writeLoop p ch size m f.2.nextSector

/-- The operands of a transfer put into their working registers (10_state R17). -/
def Run.loadTransfer (lba : BitVec 32) (cnt : Byte) (buf : Nat) (r : Run) : Run :=
  { r with work := { r.work with lba := lba, cnt := cnt, buf := buf, k := 0 } }

/-- A transfer whose checks have passed, reading (R173). -/
def readTransfer (p : Params) (d : Device) (lba : BitVec 32) (cnt : Byte) (out : Nat) (r : Run) : Result × Run :=
  readLoop p (p.channelOf d) d.logicalSectorSize.toNat cnt.toNat
    (transferSetup p (p.channelOf d) d.isMaster .readSectors (r.loadTransfer lba cnt out))

/-- A transfer whose checks have passed, writing (R174). -/
def writeTransfer (p : Params) (d : Device) (lba : BitVec 32) (cnt : Byte) (data : Nat) (r : Run) : Result × Run :=
  writeLoop p (p.channelOf d) d.logicalSectorSize.toNat cnt.toNat
    (transferSetup p (p.channelOf d) d.isMaster .writeSectors (r.loadTransfer lba cnt data))

/-- `read_sectors(device, lba, cnt, out)` (R173). -/
def readSectors (device : Nat) (lba : BitVec 32) (cnt : Byte) (out : Nat) (s : State) : Result × State :=
  match transferChecks s.dev device lba cnt with
  | .error kind => raiseError kind 0 s
  | .ok d => s.runWith (readTransfer s.params d lba cnt out)

/-- `write_sectors(device, lba, cnt, data)` (R174). -/
def writeSectors (device : Nat) (lba : BitVec 32) (cnt : Byte) (data : Nat) (s : State) : Result × State :=
  match transferChecks s.dev device lba cnt with
  | .error kind => raiseError kind 0 s
  | .ok d => s.runWith (writeTransfer s.params d lba cnt data)

/-- READ_SECTORS (R173). -/
def execReadSectors (device : Nat) (lba : BitVec 32) (cnt : Byte) (out : Nat) (s : State) :
    Host.Outcome State Fault Refusal :=
  perform (.readSectors device lba cnt out) (readSectors device lba cnt out) s

/-- WRITE_SECTORS (R174). -/
def execWriteSectors (device : Nat) (lba : BitVec 32) (cnt : Byte) (data : Nat) (s : State) :
    Host.Outcome State Fault Refusal :=
  perform (.writeSectors device lba cnt data) (writeSectors device lba cnt data) s

/-- READ_SECTORS48 (R178): always `Err(Unimplemented, 0)`; no argument is examined. -/
def execReadSectors48 (device : Nat) (lba : BitVec 64) (cnt : Byte) (out : Nat) (s : State) :
    Host.Outcome State Fault Refusal :=
  perform (.readSectors48 device lba cnt out) (raiseError .unimplemented 0) s

/-- WRITE_SECTORS48 (R178): always `Err(Unimplemented, 0)`; no argument is examined. -/
def execWriteSectors48 (device : Nat) (lba : BitVec 64) (cnt : Byte) (data : Nat) (s : State) :
    Host.Outcome State Fault Refusal :=
  perform (.writeSectors48 device lba cnt data) (raiseError .unimplemented 0) s

end Sys2Proof.Machine
end

