-- ==== Sys2Proof/Machine/ByteEntry.lean ====
section
/-! DEFINITION. The byte-addressed entry points READ and WRITE (45_byte_entry). -/
namespace Sys2Proof.Machine

/-- `read(device_id, buffer, byte_offset, byte_size)` (R200): the checks, then ENSURE_SELECTED, then READ_SECTORS.
ENSURE_SELECTED cannot raise here: B1 has checked the handle (R122). -/
def readBytes (id buffer : Nat) (byteOffset byteSize : BitVec 64) (s : State) : Result × State :=
  match entryChecks s.dev id byteOffset byteSize with
  | .error kind => raiseError kind 0 s
  | .ok lc => readSectors id lc.1 lc.2 buffer (ensureSelected id s).2

/-- `write(device_id, buffer, byte_offset, byte_size)` (R201). -/
def writeBytes (id buffer : Nat) (byteOffset byteSize : BitVec 64) (s : State) : Result × State :=
  match entryChecks s.dev id byteOffset byteSize with
  | .error kind => raiseError kind 0 s
  | .ok lc => writeSectors id lc.1 lc.2 buffer (ensureSelected id s).2

/-- READ (R200). -/
def execRead (deviceId buffer : Nat) (byteOffset byteSize : BitVec 64) (s : State) :
    Host.Outcome State Fault Refusal :=
  perform (.read deviceId buffer byteOffset byteSize) (readBytes deviceId buffer byteOffset byteSize) s

/-- WRITE (R201). -/
def execWrite (deviceId buffer : Nat) (byteOffset byteSize : BitVec 64) (s : State) :
    Host.Outcome State Fault Refusal :=
  perform (.write deviceId buffer byteOffset byteSize) (writeBytes deviceId buffer byteOffset byteSize) s

end Sys2Proof.Machine
end

