-- ==== Sys2Proof/Machine/Decoder.lean ====
section
/-! DEFINITION. The Geometry and Capability Decoder (43_decoder). -/
namespace Sys2Proof.Machine

/-- A 32-bit value from a low and a high word (30_encoding R78). -/
def compose32 (lo hi : Word) : BitVec 32 :=
  lo.setWidth 32 ||| (hi.setWidth 32 <<< 16)

/-- A 64-bit value from four words, lowest first (R78). -/
def compose64 (a b c d : Word) : BitVec 64 :=
  a.setWidth 64 ||| (b.setWidth 64 <<< 16) ||| (c.setWidth 64 <<< 32) ||| (d.setWidth 64 <<< 48)

/-- Bit 15 clear and bit 14 set: the validity test of words 106 and 209 (R154, R157). -/
def validityBits (v : Word) : Bool := !v.getLsbD 15 && v.getLsbD 14

/-- Logical sector size, D5 (R155): the word count is widened to 64 bits before it is doubled. -/
def logicalSize (w : Vector Word 256) : BitVec 64 :=
  if validityBits w[106] && w[106].getLsbD 12 then
    (w[117].setWidth 64 ||| (w[118].setWidth 64 <<< 16)) * 2
  else 512

/-- Physical sector size, D6 (R156). -/
def physicalSize (w : Vector Word 256) : BitVec 64 :=
  if validityBits w[106] && w[106].getLsbD 13 then logicalSize w <<< (w[106].extractLsb' 0 4).toNat
  else logicalSize w

/-- Logical sector alignment, D7 (R157): bits 3:2 of word 209, left in place. -/
def sectorAlignment (w : Vector Word 256) : BitVec 64 :=
  if validityBits w[106] && w[106].getLsbD 13 && validityBits w[209] then
    (w[209] &&& 0x000C#16).setWidth 64 >>> Config.alignShift
  else 0

/-- `decode(w)` (R150), D1 to D9. -/
def decodeBuffer (w : Vector Word 256) : Decoded where
  lba28SectorCount := compose32 w[60] w[61]
  lba48SectorCount := if w[83].getLsbD 10 then compose64 w[100] w[101] w[102] w[103] else 0
  supportedUdmaMask := w[88].extractLsb' 0 8
  activeUdmaMode := w[88].extractLsb' 8 8
  logicalSectorSize := logicalSize w
  physicalSectorSize := physicalSize w
  logicalSectorAlignment := sectorAlignment w

/-- DECODE: a pure function; no access, no state (R150, R159). -/
def execDecode (w : Vector Word 256) (s : State) : Host.Outcome State Fault Refusal :=
  perform (.decode w) (fun t => (.record (decodeBuffer w), t)) s

end Sys2Proof.Machine
end

