-- ==== Sys2Proof/Machine/Identification.lean ====
section
/-! DEFINITION. The Identification Protocol, probing and INIT (42_identification_and_probe). -/
namespace Sys2Proof.Machine

/-- Step I2: sector count and the three LBA registers set to zero, in that order (R130, R131 a). -/
def zeroRegisters (p : Params) (ch : Channel) (r : Run) : Run :=
  portWrite8 .i2 (p.port ch .lbaHi) 0#8
    (portWrite8 .i2 (p.port ch .lbaMid) 0#8
      (portWrite8 .i2 (p.port ch .lbaLow) 0#8
        (portWrite8 .i2 (p.port ch .sectorCount) 0#8 r)))

/-- Step I6: LBA_MID, then LBA_HI, both read before the test (R130, R131 d). -/
def readSignature (p : Params) (ch : Channel) (r : Run) : Run :=
  let a := portRead8 .i6 (p.port ch .lbaMid) r
  let q := { a.2 with work := { a.2.work with mid := a.1 } }
  let b := portRead8 .i6 (p.port ch .lbaHi) q
  { b.2 with work := { b.2.work with hi := b.1 } }

/-- `w[j] <- v`, then `j <- j + 1`. -/
def Run.storeIdentifyWord (v : Word) (r : Run) : Run :=
  { r with work := { r.work with w := r.work.w.setIfInBounds r.work.j v, j := r.work.j + 1 } }

/-- Step I8 with `m` words left: no test between words (R130, R131 f). -/
def identifyWords (p : Params) (ch : Channel) : Nat → Run → Run
  | 0, r => r
  | m + 1, r =>
    let a := portRead16 .i8 (p.port ch .data) r
    identifyWords p ch m (a.2.storeIdentifyWord a.1)

/-- Steps I1 to I4 up to the first status read: eleven events, whatever is there (R132). -/
def identifyHead (p : Params) (ch : Channel) (isMaster : Bool) (r : Run) : Run :=
  statusRead .i4 p ch (writeCommand .i3 p ch .identify (zeroRegisters p ch (selectPosition p ch isMaster r)))

/-- Steps I7 and I8: the poll for DATA-REQUEST, which does not ask BUSY to be clear (40 R106), and the words. -/
def identifyTail (p : Params) (ch : Channel) (r : Run) : Option (Vector Word 256) × Run :=
  let q := poll p ch 0#8 maskDrq maskErr p.pollBudget r
  match q.1 with
  | .ready =>
    let t := identifyWords p ch Config.wordsIdentify { q.2 with work := { q.2.work with j := 0 } }
    (some t.work.w, t)
  | .errorFlagged => (none, q.2)
  | .timedOut => (none, q.2)

/-- `identify(ch, is_master)` (R130): the identify buffer, or none for `NotPresent`. -/
def identify (p : Params) (ch : Channel) (isMaster : Bool) (r : Run) : Option (Vector Word 256) × Run :=
  let h := identifyHead p ch isMaster r
  if h.work.s = 0#8 then (none, h)
  else
    let q := poll p ch maskBsy 0#8 maskErr p.pollBudget h
    match q.1 with
    | .ready =>
      let g := readSignature p ch q.2
      if g.work.mid ≠ 0#8 ∨ g.work.hi ≠ 0#8 then (none, g) else identifyTail p ch g
    | .errorFlagged => (none, q.2)
    | .timedOut => (none, q.2)

/-- The result of IDENTIFY as a request (30_encoding R80). -/
def identifyResult : Option (Vector Word 256) → Result
  | none => .notPresent
  | some w => .identifyBuffer w

/-- The record of a drive that answered on channel `ch` (R133, R135): seven fields from the decoder, two from the
position. -/
def makeRecord (p : Params) (ch : Channel) (isMaster : Bool) (w : Vector Word 256) : Device :=
  { decodeBuffer w with channelBase := p.base ch, isMaster := isMaster }

/-- `dev[count] <- rec`, `count <- count + 1` for a buffer, nothing for `NotPresent` (R133). -/
def appendFound (p : Params) (ch : Channel) (isMaster : Bool) (found : Option (Vector Word 256))
    (dev : List Device) : List Device :=
  match found with
  | none => dev
  | some w => dev ++ [makeRecord p ch isMaster w]

/-- Step PA2 at the position in `pos` (R133), which then moves on. -/
def probePosition (s : State) : State :=
  let ch := positionChannel s.run.work.pos
  let m := positionIsMaster s.run.work.pos
  let a := identify s.params ch m s.run
  { s.withRun { a.2 with work := { a.2.work with pos := a.2.work.pos + 1 } } with
    dev := appendFound s.params ch m a.1 s.dev }

/-- Step PA2 with `m` positions left. -/
def probeLoop : Nat → State → State
  | 0, s => s
  | m + 1, s => probeLoop m (probePosition s)

/-- Steps PA1 and PA2: the four positions in the order of 30_encoding R85. -/
def probePositions (s : State) : State :=
  let s := { s with dev := [] }
  probeLoop 4 (s.withRun { s.run with work := { s.run.work with pos := 0 } })

/-- `probe_all()` (R133, R136): after probing, `select(0)` if anything was found. -/
def probeAll (s : State) : State :=
  let t := probePositions s
  if t.count = 0 then t else (selectDevice 0 t).2

/-- `init()` (R134): probing once; a later INIT is a no-op that returns the count. -/
def initialise (s : State) : Result × State :=
  if s.initDone then (.deviceCount s.count, s)
  else (.deviceCount (probeAll s).count, { probeAll s with initDone := true })

/-- IDENTIFY (R130). -/
def execIdentify (ch : Channel) (isMaster : Bool) (s : State) : Host.Outcome State Fault Refusal :=
  perform (.identify ch isMaster)
    (fun t => t.runWith fun r =>
      (identifyResult (identify t.params ch isMaster r).1, (identify t.params ch isMaster r).2)) s

/-- PROBE_ALL (R133); unguarded (R134, 93 U16). -/
def execProbeAll (s : State) : Host.Outcome State Fault Refusal :=
  perform .probeAll (fun t => (.registry, probeAll t)) s

/-- INIT (R134). -/
def execInit (s : State) : Host.Outcome State Fault Refusal :=
  perform .init initialise s

end Sys2Proof.Machine
end

