-- ==== Sys2Proof/Machine/Polling.lean ====
section
/-! DEFINITION. POLL as a request (40_port_and_poll R102). -/
namespace Sys2Proof.Machine

/-- POLL: at most `budget` status reads; its three outcomes are values, never errors (R102, R222). -/
def execPoll (ch : Channel) (clrMask setMask errMask : Byte) (budget : Nat) (s : State) :
    Host.Outcome State Fault Refusal :=
  perform (.poll ch clrMask setMask errMask budget)
    (fun t => t.runWith fun r =>
      (.polled (poll t.params ch clrMask setMask errMask budget r).1,
        (poll t.params ch clrMask setMask errMask budget r).2)) s

end Sys2Proof.Machine
end

