-- ==== Sys2Proof/Machine/PortBytes.lean ====
section
/-! DEFINITION. The command bytes (CMD8, 30_encoding R71) and the select bytes (SEL8, R73; XSEL8, R74) issued alone:
each is one port write of one byte. What the byte then makes a drive do is the port backend's affair (00_scope R5). -/
namespace Sys2Proof.Machine

/-- A command byte issued alone. -/
def commandAlone (op : Instr) (ch : Channel) (c : Command) (s : State) : Host.Outcome State Fault Refusal :=
  perform op (fun t => t.runWith fun r => (.nothing, writeCommand .order t.params ch c r)) s

/-- A select byte issued alone. -/
def selectAlone (op : Instr) (ch : Channel) (v : Byte) (s : State) : Host.Outcome State Fault Refusal :=
  perform op (fun t => t.runWith fun r => (.nothing, writeSelect .order t.params ch v r)) s

/-- IDENTIFY_CMD: 0xEC to COMMAND (R71, step I3 of R130). -/
def execIdentifyCmd (ch : Channel) (s : State) : Host.Outcome State Fault Refusal :=
  commandAlone (.identifyCmd ch) ch .identify s

/-- READ_SECTORS_CMD: 0x20 to COMMAND (R71, step T4 of R172). -/
def execReadSectorsCmd (ch : Channel) (s : State) : Host.Outcome State Fault Refusal :=
  commandAlone (.readSectorsCmd ch) ch .readSectors s

/-- WRITE_SECTORS_CMD: 0x30 to COMMAND (R71, step T4 of R172). -/
def execWriteSectorsCmd (ch : Channel) (s : State) : Host.Outcome State Fault Refusal :=
  commandAlone (.writeSectorsCmd ch) ch .writeSectors s

/-- FLUSH_CACHE_CMD: 0xE7 to COMMAND (R71, step F1 of R177). -/
def execFlushCacheCmd (ch : Channel) (s : State) : Host.Outcome State Fault Refusal :=
  commandAlone (.flushCacheCmd ch) ch .flushCache s

/-- SEL_MASTER: 0xA0 to DEVICE_SELECT (R73, step SP1 of R120). -/
def execSelMaster (ch : Channel) (s : State) : Host.Outcome State Fault Refusal :=
  selectAlone (.selMaster ch) ch (selectByte true) s

/-- SEL_SLAVE: 0xB0 to DEVICE_SELECT (R73, step SP1 of R120). -/
def execSelSlave (ch : Channel) (s : State) : Host.Outcome State Fault Refusal :=
  selectAlone (.selSlave ch) ch (selectByte false) s

/-- XFER_SEL_MASTER: 0xE0 with `l` to DEVICE_SELECT (R74, step T1 of R172). -/
def execXferSelMaster (ch : Channel) (l : BitVec 4) (s : State) : Host.Outcome State Fault Refusal :=
  selectAlone (.xferSelMaster ch l) ch (transferSelectByte true l) s

/-- XFER_SEL_SLAVE: 0xF0 with `l` to DEVICE_SELECT (R74, step T1 of R172). -/
def execXferSelSlave (ch : Channel) (l : BitVec 4) (s : State) : Host.Outcome State Fault Refusal :=
  selectAlone (.xferSelSlave ch l) ch (transferSelectByte false l) s

end Sys2Proof.Machine
end

