-- ==== Sys2Proof/Machine/Selection.lean ====
section
/-! DEFINITION. The Selection State Machine's requests (41_selection). -/
namespace Sys2Proof.Machine

/-- SELECT_POSITION (R120): five port events, no engine state. -/
def execSelectPosition (ch : Channel) (isMaster : Bool) (s : State) : Host.Outcome State Fault Refusal :=
  perform (.selectPosition ch isMaster)
    (fun t => t.runWith fun r => (.nothing, selectPosition t.params ch isMaster r)) s

/-- SELECT (R121). -/
def execSelect (id : Nat) (s : State) : Host.Outcome State Fault Refusal :=
  perform (.select id) (selectDevice id) s

/-- ENSURE_SELECTED (R122). -/
def execEnsureSelected (id : Nat) (s : State) : Host.Outcome State Fault Refusal :=
  perform (.ensureSelected id) (ensureSelected id) s

end Sys2Proof.Machine
end

