-- ==== Sys2Proof/Machine/Dispatch.lean ====
section
/-! DEFINITION. One arm per instruction. -/
namespace Sys2Proof.Machine

/-- The meaning of an instruction. -/
def exec (i : Instr) (s : State) : Host.Outcome State Fault Refusal :=
  match i with
  -- CMD8
  | .identifyCmd ch => Sys2Proof.Machine.execIdentifyCmd ch s
  | .readSectorsCmd ch => Sys2Proof.Machine.execReadSectorsCmd ch s
  | .writeSectorsCmd ch => Sys2Proof.Machine.execWriteSectorsCmd ch s
  | .flushCacheCmd ch => Sys2Proof.Machine.execFlushCacheCmd ch s
  -- SEL8
  | .selMaster ch => Sys2Proof.Machine.execSelMaster ch s
  | .selSlave ch => Sys2Proof.Machine.execSelSlave ch s
  -- XSEL8
  | .xferSelMaster ch l => Sys2Proof.Machine.execXferSelMaster ch l s
  | .xferSelSlave ch l => Sys2Proof.Machine.execXferSelSlave ch l s
  -- REQ
  | .init => Sys2Proof.Machine.execInit s
  | .read d b off size => Sys2Proof.Machine.execRead d b off size s
  | .write d b off size => Sys2Proof.Machine.execWrite d b off size s
  | .probeAll => Sys2Proof.Machine.execProbeAll s
  | .select id => Sys2Proof.Machine.execSelect id s
  | .selectPosition ch m => Sys2Proof.Machine.execSelectPosition ch m s
  | .ensureSelected id => Sys2Proof.Machine.execEnsureSelected id s
  | .poll ch c st e n => Sys2Proof.Machine.execPoll ch c st e n s
  | .identify ch m => Sys2Proof.Machine.execIdentify ch m s
  | .decode w => Sys2Proof.Machine.execDecode w s
  | .readSectors d lba n b => Sys2Proof.Machine.execReadSectors d lba n b s
  | .writeSectors d lba n b => Sys2Proof.Machine.execWriteSectors d lba n b s
  | .readSectors48 d lba n b => Sys2Proof.Machine.execReadSectors48 d lba n b s
  | .writeSectors48 d lba n b => Sys2Proof.Machine.execWriteSectors48 d lba n b s

end Sys2Proof.Machine
end

