-- ==== Sys2Proof/Machine/Step.lean ====
section
/-! DEFINITION. One step of the machine: the caller's next request, run to its end. -/
namespace Sys2Proof.Machine

/-- What a raw instruction does once it has been issued: the meaning of what it decodes to. -/
def issue (raw : Raw) (s : State) : Host.Outcome State Fault Refusal :=
  match decodeRaw raw with
  | .ok i => exec i s
  | .error e => answerReject e s

/-- One step. The engine has no program memory (20_memory R53): the instruction is the next of the caller's requests.
With none, the engine waits in Idle (70_reset_and_hazards R250). -/
def step (s : State) : Host.Outcome State Fault Refusal :=
  match s.fetch with
  | none => .next s
  | some f => issue f.1 f.2

/-- The caller issues a table row's instruction, every operand zero, before any request still waiting (log 4). -/
def State.withFetchWord (s : State) (nbits w : Nat) : State :=
  if nbits = 8 ∧ w < 256 then { s with requests := tableRaw w :: s.requests } else s

end Sys2Proof.Machine
end

