-- ==== Sys2Proof/Safety.lean ====
section
/-! DEFINITION. The terms claims are stated in: when a request is answered, what a trace is and what it says, the
traces each rule allows, and the invariant of a run. -/
namespace Sys2Proof.Machine

/-! ### When a request is answered -/

/-- The engine is idle, its parameters are in range (R6, 93 U17), every record is on a channel (R11), and every port
access completes (R234). -/
structure State.Ready (s : State) : Prop where
  idle : s.phase = .idle
  params : s.params.wf = true
  known : s.registryKnown = true
  completes : s.stall = none

/-! ### What an event is -/

/-- A port access, read or write. -/
def Event.isPort : Event → Bool
  | .r8 _ _ => true
  | .r16 _ _ => true
  | .w8 _ _ => true
  | .w16 _ _ => true
  | .mr _ _ => false
  | .mw _ _ => false

/-- A read of a port. -/
def Event.isPortRead : Event → Bool
  | .r8 _ _ => true
  | .r16 _ _ => true
  | .w8 _ _ => false
  | .w16 _ _ => false
  | .mr _ _ => false
  | .mw _ _ => false

/-- A select byte of 30_encoding R73 or R74. -/
def isSelectByte (v : Byte) : Bool :=
  v == 0xA0#8 || v == 0xB0#8 || v &&& 0xE0#8 == 0xE0#8

/-- An access of channel `ch` that 10_state R20 and 20_memory R43 let the engine make: the register, the direction, the
width, and for COMMAND and DEVICE_SELECT the byte (R71, R73, R74, R81 b and c). -/
def Event.allowedOn (p : Params) (ch : Channel) : Event → Bool
  | .r8 q _ => q == p.port ch .status || q == p.port ch .altStatus || q == p.port ch .lbaMid || q == p.port ch .lbaHi
  | .w8 q v =>
    q == p.port ch .sectorCount || q == p.port ch .lbaLow || q == p.port ch .lbaMid || q == p.port ch .lbaHi ||
      (q == p.port ch .deviceSelect && isSelectByte v) || (q == p.port ch .command && (Command.ofByte v).isSome)
  | .r16 q _ => q == p.port ch .data
  | .w16 q _ => q == p.port ch .data
  | .mr _ _ => true
  | .mw _ _ => true

/-- An access that R20 lets the engine make on one of the two channels. -/
def Event.allowed (p : Params) (e : Event) : Bool :=
  e.allowedOn p .primary || e.allowedOn p .secondary

/-! ### What a trace says -/

/-- The buffer after the buffer writes of a trace. -/
def replay : List Event → Memory → Memory
  | [], m => m
  | .mw a v :: es, m => replay es (Memory.writeWord m a v)
  | .r8 _ _ :: es, m => replay es m
  | .r16 _ _ :: es, m => replay es m
  | .w8 _ _ :: es, m => replay es m
  | .w16 _ _ :: es, m => replay es m
  | .mr _ _ :: es, m => replay es m

/-- Every port read of a trace has the value the backend answered, as long as answers are listed, and every buffer read
the value that all earlier buffer writes left (20_memory R50). -/
def consistent : List Event → List Word → Memory → Bool
  | [], _, _ => true
  | .r8 _ _ :: es, [], m => consistent es [] m
  | .r8 _ v :: es, a :: as, m => v == a.setWidth 8 && consistent es as m
  | .r16 _ _ :: es, [], m => consistent es [] m
  | .r16 _ v :: es, a :: as, m => v == a && consistent es as m
  | .w8 _ _ :: es, as, m => consistent es as m
  | .w16 _ _ :: es, as, m => consistent es as m
  | .mr a v :: es, as, m => v == Memory.readWord m a && consistent es as m
  | .mw a v :: es, as, m => consistent es as (Memory.writeWord m a v)

/-- The state after a request that made the accesses `evs`, delivered `res` and wrote no engine state: the trace is
longer by `evs`, the buffer is what they made of it, one answer is used up per port read, and nothing else differs. -/
def State.afterEvents (s : State) (evs : List Event) (res : Result) : State :=
  { s with
    work := none
    mem := replay evs s.mem
    log := evs.reverse ++ s.log
    result := some res
    answers := s.answers.drop (evs.countP Event.isPortRead)
    accesses := s.accesses + evs.countP Event.isPort }

/-- The answers listed are enough for the trace `evs`, and they are what its port reads say: `evs` is what the backend's
listed answers and the buffer make of the accesses. -/
def State.Scripted (s : State) (evs : List Event) : Prop :=
  evs.countP Event.isPortRead ≤ s.answers.length ∧ consistent evs s.answers s.mem = true

/-- What the trace of `t` has beyond the trace of `s`, oldest event first. -/
def newEvents (s t : State) : List Event :=
  (t.log.take (t.log.length - s.log.length)).reverse

/-- The words a trace writes to DATA ports, in order. -/
def sentWords (evs : List Event) : List Word :=
  evs.filterMap fun e => match e with | .w16 _ v => some v | _ => none

/-- The words a trace reads from DATA ports, in order. -/
def receivedWords (evs : List Event) : List Word :=
  evs.filterMap fun e => match e with | .r16 _ v => some v | _ => none

/-- The last byte a trace (newest event first) writes to DEVICE_SELECT of a channel: what that channel's own controller
has selected (10_state R24). -/
def lastSelectByte (p : Params) (ch : Channel) (log : List Event) : Option Byte :=
  log.findSome? fun e => match e with
    | .w8 q v => if q = p.port ch .deviceSelect then some v else none
    | _ => none

/-! ### The traces of the rules -/

/-- The status bytes `l` read by a poll that returns `o` (40_port_and_poll R102, R103). -/
def PollReads (clrMask setMask errMask : Byte) (budget : Nat) (l : List Byte) : PollOutcome → Prop
  | .ready => ∃ quiet b, l = quiet ++ [b] ∧ l.length ≤ budget ∧
      (∀ x ∈ quiet, x &&& errMask = 0#8 ∧ ¬(x &&& clrMask = 0#8 ∧ x &&& setMask = setMask)) ∧
      b &&& errMask = 0#8 ∧ b &&& clrMask = 0#8 ∧ b &&& setMask = setMask
  | .errorFlagged => ∃ quiet b, l = quiet ++ [b] ∧ l.length ≤ budget ∧
      (∀ x ∈ quiet, x &&& errMask = 0#8 ∧ ¬(x &&& clrMask = 0#8 ∧ x &&& setMask = setMask)) ∧
      b &&& errMask ≠ 0#8
  | .timedOut => l.length = budget ∧
      ∀ x ∈ l, x &&& errMask = 0#8 ∧ ¬(x &&& clrMask = 0#8 ∧ x &&& setMask = setMask)

/-- The status bytes read by the post-read settle (44_sector_transfer R176): DATA-REQUEST set in all but the last and
clear in it, at most 400 of them; or 400 with DATA-REQUEST set in every one. -/
def SettleReads (l : List Byte) : Prop :=
  (∃ busy b, l = busy ++ [b] ∧ l.length ≤ 400 ∧ (∀ x ∈ busy, flagDrq x = true) ∧ flagDrq b = false) ∨
    (l.length = 400 ∧ ∀ x ∈ l, flagDrq x = true)

/-- Reads of STATUS. -/
def statusEvents (p : Params) (ch : Channel) (l : List Byte) : List Event :=
  l.map fun b => .r8 (p.port ch .status) b

/-- The events of `select_position` with the values `vs` of the settle reads (41_selection R120). -/
def selectEvents (p : Params) (ch : Channel) (isMaster : Bool) (vs : List Byte) : List Event :=
  .w8 (p.port ch .deviceSelect) (if isMaster then 0xA0#8 else 0xB0#8) :: vs.map fun v => .r8 (p.port ch .altStatus) v

/-- The six port writes T1 to T4 (44_sector_transfer R172). -/
def setupEvents (p : Params) (ch : Channel) (isMaster : Bool) (op : Byte) (lba : BitVec 32) (cnt : Byte) : List Event :=
  [.w8 (p.port ch .deviceSelect) ((if isMaster then 0xE0#8 else 0xF0#8) ||| BitVec.ofNat 8 (lba.toNat / 2 ^ 24 % 16)),
    .w8 (p.port ch .sectorCount) cnt,
    .w8 (p.port ch .lbaLow) (BitVec.ofNat 8 lba.toNat),
    .w8 (p.port ch .lbaMid) (BitVec.ofNat 8 (lba.toNat / 2 ^ 8)),
    .w8 (p.port ch .lbaHi) (BitVec.ofNat 8 (lba.toNat / 2 ^ 16)),
    .w8 (p.port ch .command) op]

/-- Words `j`, `j + 1`, ... of a sector at `base`, each read from DATA and put into the buffer (R173 step R5b). -/
def readWordEvents (port base : Nat) : Nat → List Word → List Event
  | _, [] => []
  | j, v :: vs => .r16 port v :: .mw (base + 2 * j) v :: readWordEvents port base (j + 1) vs

/-- `m` words of a sector at `base` from word `j` on, each fetched from the buffer and written to DATA (R174 step W5b). -/
def writeWordEvents (port base : Nat) (mem : Memory) : Nat → Nat → List Event
  | _, 0 => []
  | j, m + 1 =>
    .mr (base + 2 * j) (Memory.readWord mem (base + 2 * j)) ::
      .w16 port (Memory.readWord mem (base + 2 * j)) :: writeWordEvents port base mem (j + 1) m

/-- The first eleven events of IDENTIFY (42_identification_and_probe R130 steps I1 to I4, R132). -/
def identifyHeadEvents (p : Params) (ch : Channel) (isMaster : Bool) (vs : List Byte) (s4 : Byte) : List Event :=
  selectEvents p ch isMaster vs ++
    [.w8 (p.port ch .sectorCount) 0#8, .w8 (p.port ch .lbaLow) 0#8, .w8 (p.port ch .lbaMid) 0#8,
      .w8 (p.port ch .lbaHi) 0#8, .w8 (p.port ch .command) 0xEC#8, .r8 (p.port ch .status) s4]

/-- The two reads of step I6. -/
def signatureEvents (p : Params) (ch : Channel) (mid hi : Byte) : List Event :=
  [.r8 (p.port ch .lbaMid) mid, .r8 (p.port ch .lbaHi) hi]

/-- The traces of IDENTIFY with what each returns, one case per way it can end (R130). -/
inductive IdentifyTrace (p : Params) (ch : Channel) (isMaster : Bool) : List Event → Option (Vector Word 256) → Prop
  /-- I4: a status byte of exactly zero -/
  | absent (vs : List Byte) : vs.length = 4 →
      IdentifyTrace p ch isMaster (identifyHeadEvents p ch isMaster vs 0#8) none
  /-- I5: the poll for BUSY clear fails -/
  | busy (vs l : List Byte) (s4 : Byte) (o : PollOutcome) : vs.length = 4 → s4 ≠ 0#8 → o ≠ .ready →
      PollReads 0x80#8 0#8 0x01#8 p.pollBudget l o →
      IdentifyTrace p ch isMaster (identifyHeadEvents p ch isMaster vs s4 ++ statusEvents p ch l) none
  /-- I6: the signature of a non-ATA device -/
  | otherKind (vs l : List Byte) (s4 mid hi : Byte) : vs.length = 4 → s4 ≠ 0#8 →
      PollReads 0x80#8 0#8 0x01#8 p.pollBudget l .ready → mid ≠ 0#8 ∨ hi ≠ 0#8 →
      IdentifyTrace p ch isMaster
        (identifyHeadEvents p ch isMaster vs s4 ++ statusEvents p ch l ++ signatureEvents p ch mid hi) none
  /-- I7: the poll for DATA-REQUEST fails -/
  | noData (vs l l' : List Byte) (s4 : Byte) (o : PollOutcome) : vs.length = 4 → s4 ≠ 0#8 → o ≠ .ready →
      PollReads 0x80#8 0#8 0x01#8 p.pollBudget l .ready → PollReads 0#8 0x08#8 0x01#8 p.pollBudget l' o →
      IdentifyTrace p ch isMaster
        (identifyHeadEvents p ch isMaster vs s4 ++ statusEvents p ch l ++ signatureEvents p ch 0#8 0#8 ++
          statusEvents p ch l') none
  /-- I8: 256 words, back to back -/
  | found (vs l l' : List Byte) (s4 : Byte) (w : Vector Word 256) : vs.length = 4 → s4 ≠ 0#8 →
      PollReads 0x80#8 0#8 0x01#8 p.pollBudget l .ready → PollReads 0#8 0x08#8 0x01#8 p.pollBudget l' .ready →
      IdentifyTrace p ch isMaster
        (identifyHeadEvents p ch isMaster vs s4 ++ statusEvents p ch l ++ signatureEvents p ch 0#8 0#8 ++
          statusEvents p ch l' ++ w.toList.map (fun v => .r16 (p.port ch .data) v)) (some w)

/-- The traces of step R5 with sector `k` next and `m` sectors left, each with its result (44_sector_transfer R173,
R175, R176): `size` bytes a sector, buffer base `out`. -/
inductive ReadTrace (p : Params) (ch : Channel) (size out : Nat) : Nat → Nat → List Event → Result → Prop
  | done (k : Nat) : ReadTrace p ch size out k 0 [] (.ok k)
  | pollError (k m : Nat) (l : List Byte) : PollReads 0x80#8 0x08#8 0x21#8 p.pollBudget l .errorFlagged →
      ReadTrace p ch size out k (m + 1) (statusEvents p ch l) (.err .protocolError k)
  | pollTimeout (k m : Nat) (l : List Byte) : PollReads 0x80#8 0x08#8 0x21#8 p.pollBudget l .timedOut →
      ReadTrace p ch size out k (m + 1) (statusEvents p ch l) (.err .timeout k)
  | sector (k m : Nat) (l l' : List Byte) (ws : List Word) (evs : List Event) (res : Result) :
      PollReads 0x80#8 0x08#8 0x21#8 p.pollBudget l .ready → ws.length = size / 2 → SettleReads l' →
      ReadTrace p ch size out (k + 1) m evs res →
      ReadTrace p ch size out k (m + 1)
        (statusEvents p ch l ++ readWordEvents (p.port ch .data) (out + k * size) 0 ws ++ statusEvents p ch l' ++ evs)
        res

/-- The traces of step W5 with sector `k` next and `m` sectors left, each with its result (R174, R175, R177); the
buffer holds `mem` throughout. -/
inductive WriteTrace (p : Params) (ch : Channel) (size data : Nat) (mem : Memory) :
    Nat → Nat → List Event → Result → Prop
  | done (k : Nat) : WriteTrace p ch size data mem k 0 [] (.ok k)
  | pollError (k m : Nat) (l : List Byte) : PollReads 0x80#8 0x08#8 0x21#8 p.pollBudget l .errorFlagged →
      WriteTrace p ch size data mem k (m + 1) (statusEvents p ch l) (.err .protocolError k)
  | pollTimeout (k m : Nat) (l : List Byte) : PollReads 0x80#8 0x08#8 0x21#8 p.pollBudget l .timedOut →
      WriteTrace p ch size data mem k (m + 1) (statusEvents p ch l) (.err .timeout k)
  | flushTimeout (k m : Nat) (l l' : List Byte) : PollReads 0x80#8 0x08#8 0x21#8 p.pollBudget l .ready →
      PollReads 0x80#8 0#8 0#8 p.flushBudget l' .timedOut →
      WriteTrace p ch size data mem k (m + 1)
        (statusEvents p ch l ++ writeWordEvents (p.port ch .data) (data + k * size) mem 0 (size / 2) ++
          [.w8 (p.port ch .command) 0xE7#8] ++ statusEvents p ch l') (.err .timeout k)
  | sector (k m : Nat) (l l' : List Byte) (evs : List Event) (res : Result) :
      PollReads 0x80#8 0x08#8 0x21#8 p.pollBudget l .ready → PollReads 0x80#8 0#8 0#8 p.flushBudget l' .ready →
      WriteTrace p ch size data mem (k + 1) m evs res →
      WriteTrace p ch size data mem k (m + 1)
        (statusEvents p ch l ++ writeWordEvents (p.port ch .data) (data + k * size) mem 0 (size / 2) ++
          [.w8 (p.port ch .command) 0xE7#8] ++ statusEvents p ch l' ++ evs) res

/-! ### Results -/

/-- How many sectors a result of a transfer counts as completed (30_encoding R80). -/
def Result.sectors : Result → Nat
  | .ok n => n
  | .err _ n => n
  | .deviceCount _ => 0
  | .registry => 0
  | .polled _ => 0
  | .identifyBuffer _ => 0
  | .notPresent => 0
  | .record _ => 0
  | .nothing => 0

/-- The result of IDENTIFY (42_identification_and_probe R130). -/
def Result.ofFound : Option (Vector Word 256) → Result
  | none => .notPresent
  | some w => .identifyBuffer w

/-- A result of a transfer of `cnt` sectors that passed its checks (44_sector_transfer R180). -/
def Result.ofTransfer (cnt : Nat) (r : Result) : Prop :=
  r = .ok cnt ∨ ∃ k, k < cnt ∧ (r = .err .protocolError k ∨ r = .err .timeout k)

/-- A result of a transfer refused by its checks (R171, R180). -/
def Result.ofRefusal (r : Result) : Prop :=
  r = .err .unsupportedAddress 0 ∨ r = .err .invalidArgument 0

/-- The results each operation can have (60_exceptions R233). A command or select byte issued alone delivers nothing
(log 2). -/
def Result.fits : Instr → Result → Prop
  | .identifyCmd _, r => r = .nothing
  | .readSectorsCmd _, r => r = .nothing
  | .writeSectorsCmd _, r => r = .nothing
  | .flushCacheCmd _, r => r = .nothing
  | .selMaster _, r => r = .nothing
  | .selSlave _, r => r = .nothing
  | .xferSelMaster _ _, r => r = .nothing
  | .xferSelSlave _ _, r => r = .nothing
  | .init, r => ∃ n, n ≤ 4 ∧ r = .deviceCount n
  | .read _ _ _ _, r => r.ofRefusal ∨ ∃ cnt, 1 ≤ cnt ∧ cnt ≤ 255 ∧ r.ofTransfer cnt
  | .write _ _ _ _, r => r.ofRefusal ∨ ∃ cnt, 1 ≤ cnt ∧ cnt ≤ 255 ∧ r.ofTransfer cnt
  | .probeAll, r => r = .registry
  | .select _, r => r = .nothing ∨ r = .err .invalidArgument 0
  | .selectPosition _ _, r => r = .nothing
  | .ensureSelected _, r => r = .nothing ∨ r = .err .invalidArgument 0
  | .poll _ _ _ _ _, r => ∃ o, r = .polled o
  | .identify _ _, r => ∃ f, r = .ofFound f
  | .decode _, r => ∃ d, r = .record d
  | .readSectors _ _ cnt _, r => r.ofRefusal ∨ (cnt ≠ 0#8 ∧ r.ofTransfer cnt.toNat)
  | .writeSectors _ _ cnt _, r => r.ofRefusal ∨ (cnt ≠ 0#8 ∧ r.ofTransfer cnt.toNat)
  | .readSectors48 _ _ _ _, r => r = .err .unimplemented 0
  | .writeSectors48 _ _ _ _, r => r = .err .unimplemented 0

/-! ### The invariant of a run -/

/-- `selected` names a populated slot. A PROBE_ALL issued directly that finds nothing leaves a stale index beside an
empty registry (R123, R133, R263; log 10). -/
def Selected.inRange (n : Nat) : Selected → Prop
  | .unselected => True
  | .device i => i < n ∨ n = 0

/-- A record that the decoder can have made: its logical sector size is even and at most 2^33 - 2 (43_decoder R155). -/
def Device.decodable (d : Device) : Prop :=
  d.logicalSectorSize.toNat % 2 = 0 ∧ d.logicalSectorSize.toNat ≤ 2 ^ 33 - 2

/-- The invariant every step keeps. -/
structure State.Inv (s : State) : Prop where
  /-- parameters in range (R6, R41) -/
  params : s.params.wf = true
  /-- between requests the engine is idle and has no working registers (R16, R25) -/
  idle : s.phase = .idle
  noWork : s.work = none
  /-- at most four records (R13), each on a channel (R11) and decodable (R155) -/
  capacity : s.count ≤ 4
  known : s.registryKnown = true
  decodable : ∀ d ∈ s.dev, d.decodable
  /-- R14 -/
  selected : s.selected.inRange s.count
  /-- the buffer is in canonical form -/
  memory : Memory.wf s.mem
  /-- the engine has made only the accesses R20 and R43 allow -/
  allowed : ∀ e ∈ s.log, e.allowed s.params = true
  /-- each port access is one event (R43) -/
  counted : s.accesses = s.log.countP Event.isPort

end Sys2Proof.Machine
end

