-- ==== Sys2Proof/WellFormed.lean ====
section
/-! DEFINITION. Which instructions are well formed. The types of `Instr` already hold every width of 30_encoding R79;
what is left is the one bound R79 puts on a natural number. -/
namespace Sys2Proof

/-- `budget` is a natural number >= 1 (30_encoding R79, 40_port_and_poll R102); everything else is well formed by its
type. -/
def Instr.wellFormed : Instr → Bool
  | .identifyCmd _ => true
  | .readSectorsCmd _ => true
  | .writeSectorsCmd _ => true
  | .flushCacheCmd _ => true
  | .selMaster _ => true
  | .selSlave _ => true
  | .xferSelMaster _ _ => true
  | .xferSelSlave _ _ => true
  | .init => true
  | .read _ _ _ _ => true
  | .write _ _ _ _ => true
  | .probeAll => true
  | .select _ => true
  | .selectPosition _ _ => true
  | .ensureSelected _ => true
  | .poll _ _ _ _ budget => budget != 0
  | .identify _ _ => true
  | .decode _ => true
  | .readSectors _ _ _ _ => true
  | .writeSectors _ _ _ _ => true
  | .readSectors48 _ _ _ _ => true
  | .writeSectors48 _ _ _ _ => true

end Sys2Proof
end

