-- ==== Sys2Proof/Certificates/Slice0/Obligations.lean ====
section
/-! DEFINITION. The statements about the model. `s.afterEvents evs res` is `s` with the trace `evs` made and `res`
delivered, and nothing else changed: an equation with it gives an instruction's result and its whole frame. -/

open Sys2Proof Sys2Proof.Machine

/-! ## Encodings -/

/-- Bytes written out from the tables of 30_encoding R71, R73, R74 and R79 decode to what they stand for. -/
def Obligations.SpecBytesDecode : Prop :=
  (∀ ch, decodeRaw ⟨.command ch, 0b11101100#8, []⟩ = .ok (.identifyCmd ch)) ∧
  (∀ ch, decodeRaw ⟨.command ch, 0b00100000#8, []⟩ = .ok (.readSectorsCmd ch)) ∧
  (∀ ch, decodeRaw ⟨.command ch, 0b00110000#8, []⟩ = .ok (.writeSectorsCmd ch)) ∧
  (∀ ch, decodeRaw ⟨.command ch, 0b11100111#8, []⟩ = .ok (.flushCacheCmd ch)) ∧
  (∀ ch, decodeRaw ⟨.deviceSelect ch, 0b10100000#8, []⟩ = .ok (.selMaster ch)) ∧
  (∀ ch, decodeRaw ⟨.deviceSelect ch, 0b10110000#8, []⟩ = .ok (.selSlave ch)) ∧
  (∀ ch, decodeRaw ⟨.deviceSelect ch, 0b11100101#8, []⟩ = .ok (.xferSelMaster ch 0b0101#4)) ∧
  (∀ ch, decodeRaw ⟨.deviceSelect ch, 0b11111010#8, []⟩ = .ok (.xferSelSlave ch 0b1010#4)) ∧
  decodeRaw ⟨.request, 0x00#8, []⟩ = .ok .init ∧
  decodeRaw ⟨.request, 0x11#8, [3]⟩ = .ok (.select 3) ∧
  decodeRaw ⟨.request, 0x12#8, [1, 0]⟩ = .ok (.selectPosition .secondary false) ∧
  decodeRaw ⟨.request, 0x14#8, [0, 0x80, 0x08, 0x21, 7]⟩ = .ok (.poll .primary 0x80#8 0x08#8 0x21#8 7) ∧
  decodeRaw ⟨.request, 0x01#8, [2, 0x1000, 1024, 512]⟩ = .ok (.read 2 0x1000 1024#64 512#64) ∧
  decodeRaw ⟨.request, 0x17#8, [1, 0x0FFFFFFF, 255, 0x2000]⟩ = .ok (.readSectors 1 0x0FFFFFFF#32 255#8 0x2000)

/-- Decoding an encoded instruction gives it back, with every operand at every value. -/
def Obligations.DecodeOfEncode : Prop :=
  ∀ i : Instr, decodeRaw (encode i) = .ok i

/-- Whatever decodes is the encoding of what it decodes to: every instruction has one raw form. -/
def Obligations.EncodeOfDecode : Prop :=
  ∀ (raw : Raw) (i : Instr), decodeRaw raw = .ok i → encode i = raw

/-- A byte that R71, R73, R74 or R79 does not list decodes to nothing, whatever its arguments (R81 a, b, c). -/
def Obligations.UnlistedBytesRejected : Prop :=
  (∀ ch b i, b ≠ 0x20#8 → b ≠ 0x30#8 → b ≠ 0xE7#8 → b ≠ 0xEC#8 → decodeRaw ⟨.command ch, b, []⟩ ≠ .ok i) ∧
  (∀ ch b i, b ≠ 0xA0#8 → b ≠ 0xB0#8 → b.toNat < 0xE0 → decodeRaw ⟨.deviceSelect ch, b, []⟩ ≠ .ok i) ∧
  (∀ b args, ¬b.toNat ≤ 0x02 → ¬(0x10 ≤ b.toNat ∧ b.toNat ≤ 0x1A) →
    decodeRaw ⟨.request, b, args⟩ = .error .unknownRequestCode)

/-- R75 with R74: the four registers hold the LBA, four bits of it in the select byte, and `0xE0` or `0xF0` beside. -/
def Obligations.LbaSplitRecombines : Prop :=
  ∀ (m : Bool) (lba : BitVec 32), lbaTopNibble lba = 0#4 →
    (transferSelectByte m (lbaSelectNibble lba)).toNat = (if m then 0xE0 else 0xF0) + lba.toNat / 2 ^ 24 ∧
    lba.toNat = (transferSelectByte m (lbaSelectNibble lba)).toNat % 16 * 2 ^ 24 + (lbaHiByte lba).toNat * 2 ^ 16 +
      (lbaMidByte lba).toNat * 2 ^ 8 + (lbaLowByte lba).toNat

/-- R41: the port of a register, and the channel of a record. -/
def Obligations.PortMap : Prop :=
  ∀ p : Params,
    (∀ ch, p.port ch .altStatus = p.alt ch ∧ p.port ch .data = p.base ch + p.offData ∧
      p.port ch .sectorCount = p.base ch + p.offSectorCount ∧ p.port ch .lbaLow = p.base ch + p.offLbaLow ∧
      p.port ch .lbaMid = p.base ch + p.offLbaMid ∧ p.port ch .lbaHi = p.base ch + p.offLbaHi ∧
      p.port ch .deviceSelect = p.base ch + p.offDeviceSelect ∧ p.port ch .status = p.base ch + p.offStatus ∧
      p.port ch .command = p.base ch + p.offCommand) ∧
    ∀ d : Device, p.base .primary ≠ p.base .secondary → p.knows d = true →
      ∀ ch, p.base ch = d.channelBase ↔ ch = p.channelOf d

/-! ## Steps -/

/-- A step runs the caller's next request: when it decodes to a well-formed instruction, the step is that instruction's
meaning in the state in which the request has been taken. -/
def Obligations.StepRunsDecodedRequest : Prop :=
  ∀ (s : State) (raw : Raw) (rest : List Raw) (i : Instr), s.requests = raw :: rest → decodeRaw raw = .ok i →
    i.wellFormed = true → step s = exec i { s with requests := rest }

/-- With no request the engine waits (log 5). -/
def Obligations.StepWaitsWithoutRequest : Prop :=
  ∀ s : State, s.requests = [] → step s = .next s

/-- R81 (a): a request code that R79 does not list is answered `Err(InvalidArgument, 0)` and makes no access. -/
def Obligations.UnknownRequestCodeAnswered : Prop :=
  ∀ (s : State) (b : Byte) (args : List Nat) (rest : List Raw), s.Ready → ¬b.toNat ≤ 0x02 →
    ¬(0x10 ≤ b.toNat ∧ b.toNat ≤ 0x1A) → s.requests = ⟨.request, b, args⟩ :: rest →
    step s = .next (State.afterEvents { s with requests := rest } [] (.err .invalidArgument 0))

/-- The model's own stops (log 14): a busy engine, parameters out of range, a record that is on no channel. -/
def Obligations.RequestRefusals : Prop :=
  ∀ (i : Instr) (s : State),
    (s.phase ≠ .idle → exec i s = .refused .requestWhileBusy) ∧
    (s.phase = .idle → s.params.wf = false → exec i s = .refused .parametersOutOfRange) ∧
    (s.phase = .idle → s.params.wf = true → s.registryKnown = false → exec i s = .refused .recordOnNoChannel)

/-- R234 and its proviso (93 U18, log 13): a request that would end in `t` is stuck exactly when the port access that
never completes is one of its own; otherwise nothing of it is different. -/
def Obligations.StalledAccessFaults : Prop :=
  ∀ (i : Instr) (s t : State) (n : Nat), s.stall = none → exec i s = .next t →
    exec i { s with stall := some n } =
      if s.accesses ≤ n ∧ n < t.accesses then .fault .portAccessNeverCompletes else .next { t with stall := some n }

/-- R226 and R17: no request depends on the result of an earlier one or on what its working registers held. -/
def Obligations.RequestsStartClean : Prop :=
  ∀ (i : Instr) (s : State) (res : Option Result) (w : Option Work), exec i { s with result := res, work := w } = exec i s

/-! ## Reset and the invariant -/

/-- R25 and R250, which 92 D23 marks as the spec's own choice: what reset leaves. -/
def Obligations.ResetState : Prop :=
  State.reset.count = 0 ∧ State.reset.selected = .unselected ∧ State.reset.initDone = false ∧
    State.reset.phase = .idle ∧ State.reset.work = none ∧ State.reset.trace = [] ∧ State.reset.accesses = 0

/-- The invariant holds after reset. -/
def Obligations.ResetInvariant : Prop :=
  State.reset.Inv

/-- Every step keeps the invariant. -/
def Obligations.StepKeepsInvariant : Prop :=
  ∀ s t : State, s.Inv → step s = .next t → t.Inv

/-! ## The buffer memory -/

/-- R45 (92 D4): a word occupies two bytes, the low one at the lower address; no other byte changes; and a word is read
from the same two bytes. -/
def Obligations.WordIsLittleEndian : Prop :=
  ∀ (m : Memory) (a : Nat) (v : Word), Memory.wf m →
    (Memory.read (Memory.writeWord m a v) a).toNat = v.toNat % 256 ∧
    (Memory.read (Memory.writeWord m a v) (a + 1)).toNat = v.toNat / 256 ∧
    (∀ b, b ≠ a → b ≠ a + 1 → Memory.read (Memory.writeWord m a v) b = Memory.read m b) ∧
    Memory.readWord (Memory.writeWord m a v) a = v ∧
    (Memory.readWord m a).toNat = (Memory.read m (a + 1)).toNat * 256 + (Memory.read m a).toNat

/-! ## Command and select bytes -/

/-- R71: the four command bytes, each one write to COMMAND of the channel. That a byte can be issued alone is the
model's own (log 2). -/
def Obligations.CommandBytesWritten : Prop :=
  ∀ (s : State) (ch : Channel), s.Ready →
    exec (.identifyCmd ch) s = .next (s.afterEvents [.w8 (s.params.port ch .command) 0xEC#8] .nothing) ∧
    exec (.readSectorsCmd ch) s = .next (s.afterEvents [.w8 (s.params.port ch .command) 0x20#8] .nothing) ∧
    exec (.writeSectorsCmd ch) s = .next (s.afterEvents [.w8 (s.params.port ch .command) 0x30#8] .nothing) ∧
    exec (.flushCacheCmd ch) s = .next (s.afterEvents [.w8 (s.params.port ch .command) 0xE7#8] .nothing)

/-- R73, R74: the select bytes, each one write to DEVICE_SELECT of the channel (log 2). -/
def Obligations.SelectBytesWritten : Prop :=
  ∀ (s : State) (ch : Channel), s.Ready →
    exec (.selMaster ch) s = .next (s.afterEvents [.w8 (s.params.port ch .deviceSelect) 0xA0#8] .nothing) ∧
    exec (.selSlave ch) s = .next (s.afterEvents [.w8 (s.params.port ch .deviceSelect) 0xB0#8] .nothing) ∧
    ∀ l : BitVec 4,
      exec (.xferSelMaster ch l) s =
        .next (s.afterEvents [.w8 (s.params.port ch .deviceSelect) (BitVec.ofNat 8 (0xE0 + l.toNat))] .nothing) ∧
      exec (.xferSelSlave ch l) s =
        .next (s.afterEvents [.w8 (s.params.port ch .deviceSelect) (BitVec.ofNat 8 (0xF0 + l.toNat))] .nothing)

/-! ## POLL -/

/-- R102: whatever the drive answers, POLL reads STATUS as the rule says and returns what it says; nothing else
changes. -/
def Obligations.PollFollowsItsRule : Prop :=
  ∀ (s : State) (ch : Channel) (c t e : Byte) (budget : Nat), s.Ready →
    ∃ l o, PollReads c t e budget l o ∧ consistent (statusEvents s.params ch l) s.answers s.mem = true ∧
      exec (.poll ch c t e budget) s = .next (s.afterEvents (statusEvents s.params ch l) (.polled o))

/-- R102, R103: the drive's answers fix POLL. Status bytes that the rule allows, answered in that order, are the ones
read, and their outcome is returned. -/
def Obligations.PollDeterminedByAnswers : Prop :=
  ∀ (s : State) (ch : Channel) (c t e : Byte) (budget : Nat) (l : List Byte) (o : PollOutcome), s.Ready →
    PollReads c t e budget l o → s.Scripted (statusEvents s.params ch l) →
    exec (.poll ch c t e budget) s = .next (s.afterEvents (statusEvents s.params ch l) (.polled o))

/-- R82: the four predicates and error masks the engine uses, in the words of the source. The mask form is 92 D3's. -/
def Obligations.PollPredicates : Prop :=
  ∀ s : Byte,
    (statusReady 0x80#8 0#8 s = true ↔ flagBsy s = false) ∧
    (statusReady 0#8 0x08#8 s = true ↔ flagDrq s = true) ∧
    (statusReady 0x80#8 0x08#8 s = true ↔ flagBsy s = false ∧ flagDrq s = true) ∧
    (statusError 0x01#8 s = true ↔ flagErr s = true) ∧
    (statusError 0x21#8 s = true ↔ flagErr s = true ∨ flagDf s = true) ∧
    statusError 0#8 s = false

/-! ## Selection -/

/-- R120: SELECT_POSITION makes five port events, whatever is read, and changes no engine state. -/
def Obligations.SelectPositionEvents : Prop :=
  ∀ (s : State) (ch : Channel) (m : Bool), s.Ready →
    ∃ vs, vs.length = 4 ∧ consistent (selectEvents s.params ch m vs) s.answers s.mem = true ∧
      exec (.selectPosition ch m) s = .next (s.afterEvents (selectEvents s.params ch m vs) .nothing)

/-- R121: SELECT of a populated slot makes the five port events on its device's channel and sets `selected`, also when
it was selected already. -/
def Obligations.SelectValidHandle : Prop :=
  ∀ (s : State) (id : Nat) (d : Device), s.Ready → s.dev[id]? = some d →
    ∃ vs, vs.length = 4 ∧
      consistent (selectEvents s.params (s.params.channelOf d) d.isMaster vs) s.answers s.mem = true ∧
      exec (.select id) s = .next { s.afterEvents (selectEvents s.params (s.params.channelOf d) d.isMaster vs) .nothing with
        selected := .device id }

/-- R121 S1 and R27 (92 D9): a handle that is not below `count` is refused with no access. -/
def Obligations.SelectInvalidHandle : Prop :=
  ∀ (s : State) (id : Nat), s.Ready → s.count ≤ id →
    exec (.select id) s = .next (s.afterEvents [] (.err .invalidArgument 0)) ∧
    (s.selected ≠ .device id → exec (.ensureSelected id) s = .next (s.afterEvents [] (.err .invalidArgument 0)))

/-- R122 (92 D7): ENSURE_SELECTED makes no event at all for the selected device and is SELECT for any other. -/
def Obligations.EnsureSelectedPolicy : Prop :=
  ∀ (s : State) (id : Nat), s.Ready →
    (s.selected = .device id → exec (.ensureSelected id) s = .next (s.afterEvents [] .nothing)) ∧
    (s.selected ≠ .device id → exec (.ensureSelected id) s = exec (.select id) s) ∧
    (id < s.count → ∃ evs,
      exec (.ensureSelected id) s = .next { s.afterEvents evs .nothing with selected := .device id })

/-! ## Identification and probing -/

/-- R130: whatever the drive answers, IDENTIFY goes through its steps and returns the buffer or `NotPresent`; it
changes no engine state. -/
def Obligations.IdentifyFollowsItsRule : Prop :=
  ∀ (s : State) (ch : Channel) (m : Bool), s.Ready →
    ∃ evs found, IdentifyTrace s.params ch m evs found ∧ consistent evs s.answers s.mem = true ∧
      exec (.identify ch m) s = .next (s.afterEvents evs (.ofFound found))

/-- R130: the drive's answers fix IDENTIFY, in each of the ways it can end. -/
def Obligations.IdentifyDeterminedByAnswers : Prop :=
  ∀ (s : State) (ch : Channel) (m : Bool) (evs : List Event) (found : Option (Vector Word 256)), s.Ready →
    IdentifyTrace s.params ch m evs found → s.Scripted evs →
    exec (.identify ch m) s = .next (s.afterEvents evs (.ofFound found))

/-- R133, R135, R136 (92 D6): all four positions are probed in order, those that answer fill the registry from slot 0,
and slot 0 is selected if there is one. -/
def Obligations.ProbeAllFollowsItsRule : Prop :=
  ∀ s : State, s.Ready →
    ∃ e₀ e₁ e₂ e₃ f₀ f₁ f₂ f₃ e₄ sel,
      IdentifyTrace s.params .primary true e₀ f₀ ∧ IdentifyTrace s.params .primary false e₁ f₁ ∧
      IdentifyTrace s.params .secondary true e₂ f₂ ∧ IdentifyTrace s.params .secondary false e₃ f₃ ∧
      let dev := (f₀.map (makeRecord s.params .primary true)).toList ++ (f₁.map (makeRecord s.params .primary false)).toList ++
        (f₂.map (makeRecord s.params .secondary true)).toList ++ (f₃.map (makeRecord s.params .secondary false)).toList
      ((dev = [] ∧ e₄ = [] ∧ sel = s.selected) ∨
        ∃ d vs, dev.head? = some d ∧ vs.length = 4 ∧ sel = .device 0 ∧
          e₄ = selectEvents s.params (s.params.channelOf d) d.isMaster vs) ∧
      consistent (e₀ ++ e₁ ++ e₂ ++ e₃ ++ e₄) s.answers s.mem = true ∧
      exec .probeAll s =
        .next { s.afterEvents (e₀ ++ e₁ ++ e₂ ++ e₃ ++ e₄) .registry with dev := dev, selected := sel }

/-- R133 (92 D5): what a probed record holds: the seven decoded fields, and the two identity fields of its position. -/
def Obligations.ProbedRecordFields : Prop :=
  ∀ (p : Params) (ch : Channel) (m : Bool) (w : Vector Word 256), p.wf = true →
    (makeRecord p ch m w).toDecoded = decodeBuffer w ∧ (makeRecord p ch m w).channelBase = p.base ch ∧
      (makeRecord p ch m w).isMaster = m ∧ p.channelOf (makeRecord p ch m w) = ch

/-- R134 (92 D8): the first INIT is PROBE_ALL with `init_done` set and the count returned. -/
def Obligations.FirstInitProbes : Prop :=
  ∀ s : State, s.Ready → s.initDone = false →
    ∃ t, exec .probeAll s = .next t ∧
      exec .init s = .next { t with initDone := true, result := some (.deviceCount t.count) }

/-- R134 (92 D8): every later INIT returns the count, makes no access and changes nothing. -/
def Obligations.LaterInitDoesNothing : Prop :=
  ∀ s : State, s.Ready → s.initDone = true → exec .init s = .next (s.afterEvents [] (.deviceCount s.count))

/-- R253 (92 D6, D8): after the first INIT of an engine that has no device selected: the registry in probe order, the
default selection, and on each channel the last select byte. The ports of DEVICE_SELECT are told apart from the other
ports written. -/
def Obligations.AfterFirstInit : Prop :=
  ∀ s t : State, s.Ready → s.initDone = false → s.selected = .unselected →
    (∀ ch ch' r, r ∈ [Reg.sectorCount, .lbaLow, .lbaMid, .lbaHi, .command] →
      s.params.port ch .deviceSelect ≠ s.params.port ch' r) →
    s.params.port .primary .deviceSelect ≠ s.params.port .secondary .deviceSelect →
    exec .init s = .next t →
    t.initDone = true ∧ t.result = some (.deviceCount t.count) ∧ t.count ≤ 4 ∧
    t.selected = (if t.count = 0 then .unselected else .device 0) ∧
    (t.dev.map fun d => (t.params.channelOf d, d.isMaster)).Sublist
      [(.primary, true), (.primary, false), (.secondary, true), (.secondary, false)] ∧
    ∀ ch, lastSelectByte t.params ch t.log =
      some (match t.dev with
        | [] => 0xB0#8
        | d :: _ => if t.params.channelOf d = ch ∧ d.isMaster then 0xA0#8 else 0xB0#8)

/-! ## DECODE -/

/-- R159, R150: DECODE makes no access and changes nothing but the result, a record that depends on twelve words only. -/
def Obligations.DecodeIsPure : Prop :=
  ∀ (s : State) (w v : Vector Word 256), s.Ready →
    w[60] = v[60] → w[61] = v[61] → w[83] = v[83] → w[88] = v[88] → w[100] = v[100] → w[101] = v[101] →
    w[102] = v[102] → w[103] = v[103] → w[106] = v[106] → w[117] = v[117] → w[118] = v[118] → w[209] = v[209] →
    exec (.decode w) s = .next (s.afterEvents [] (.record (decodeBuffer v))) ∧ exec (.decode w) s = exec (.decode v) s

/-- R151, R152, R153: the sector counts and the UDMA bytes. -/
def Obligations.DecodeCountsAndUdma : Prop :=
  ∀ w : Vector Word 256,
    (decodeBuffer w).lba28SectorCount.toNat = w[60].toNat + w[61].toNat * 2 ^ 16 ∧
    (decodeBuffer w).lba48SectorCount.toNat =
      (if w[83].getLsbD 10 then
        w[100].toNat + w[101].toNat * 2 ^ 16 + w[102].toNat * 2 ^ 32 + w[103].toNat * 2 ^ 48 else 0) ∧
    (decodeBuffer w).supportedUdmaMask.toNat = w[88].toNat % 256 ∧
    (decodeBuffer w).activeUdmaMode.toNat = w[88].toNat / 256

/-- R154: without a valid geometry word both sizes are 512 and the alignment is 0, whatever words 117, 118, 209 say. -/
def Obligations.DecodeInvalidGeometry : Prop :=
  ∀ w : Vector Word 256, w[106] &&& 0xC000#16 ≠ 0x4000#16 →
    (decodeBuffer w).logicalSectorSize = 512#64 ∧ (decodeBuffer w).physicalSectorSize = 512#64 ∧
      (decodeBuffer w).logicalSectorAlignment = 0#64

/-- R155, R156 (92 D13) and R157 (92 D14): the sizes and the alignment under a valid geometry word. -/
def Obligations.DecodeValidGeometry : Prop :=
  ∀ w : Vector Word 256, w[106] &&& 0xC000#16 = 0x4000#16 →
    (decodeBuffer w).logicalSectorSize.toNat =
      (if w[106].getLsbD 12 then 2 * (w[117].toNat + w[118].toNat * 2 ^ 16) else 512) ∧
    (decodeBuffer w).physicalSectorSize.toNat =
      (decodeBuffer w).logicalSectorSize.toNat * (if w[106].getLsbD 13 then 2 ^ (w[106].toNat % 16) else 1) ∧
    (decodeBuffer w).logicalSectorAlignment.toNat =
      (if w[106].getLsbD 13 ∧ w[209] &&& 0xC000#16 = 0x4000#16 then w[209].toNat / 4 % 4 * 4 else 0)

/-! ## Sector transfers -/

/-- R171 (92 D9 to D12): the four checks in their order; a refusal makes no access. Read and write alike. -/
def Obligations.TransferChecksRefuse : Prop :=
  ∀ (s : State) (device : Nat) (lba : BitVec 32) (cnt : Byte) (buf : Nat) (kind : ErrorKind), s.Ready →
    ((2 ^ 28 ≤ lba.toNat ∧ kind = .unsupportedAddress) ∨
      (lba.toNat < 2 ^ 28 ∧ kind = .invalidArgument ∧
        (s.count ≤ device ∨ cnt = 0#8 ∨
          ∃ d, s.dev[device]? = some d ∧ (d.logicalSectorSize = 0#64 ∨ d.logicalSectorSize.toNat % 2 = 1)))) →
    exec (.readSectors device lba cnt buf) s = .next (s.afterEvents [] (.err kind 0)) ∧
    exec (.writeSectors device lba cnt buf) s = .next (s.afterEvents [] (.err kind 0))

/-- R173 with R172, R175, R176: past the checks, READ_SECTORS writes the command setup and then reads sector after
sector as the rule says, whatever the drive answers. -/
def Obligations.ReadSectorsFollowsItsRule : Prop :=
  ∀ (s : State) (device : Nat) (lba : BitVec 32) (cnt : Byte) (out : Nat) (d : Device), s.Ready →
    lba.toNat < 2 ^ 28 → s.dev[device]? = some d → cnt ≠ 0#8 → d.logicalSectorSize ≠ 0#64 →
    d.logicalSectorSize.toNat % 2 = 0 →
    ∃ evs res, ReadTrace s.params (s.params.channelOf d) d.logicalSectorSize.toNat out 0 cnt.toNat evs res ∧
      consistent (setupEvents s.params (s.params.channelOf d) d.isMaster 0x20#8 lba cnt ++ evs) s.answers s.mem = true ∧
      exec (.readSectors device lba cnt out) s =
        .next (s.afterEvents (setupEvents s.params (s.params.channelOf d) d.isMaster 0x20#8 lba cnt ++ evs) res)

/-- R173: the drive's answers fix READ_SECTORS. With `res = Ok(cnt)` this says when a read succeeds. -/
def Obligations.ReadSectorsDeterminedByAnswers : Prop :=
  ∀ (s : State) (device : Nat) (lba : BitVec 32) (cnt : Byte) (out : Nat) (d : Device) (evs : List Event) (res : Result),
    s.Ready → lba.toNat < 2 ^ 28 → s.dev[device]? = some d → cnt ≠ 0#8 → d.logicalSectorSize ≠ 0#64 →
    d.logicalSectorSize.toNat % 2 = 0 →
    ReadTrace s.params (s.params.channelOf d) d.logicalSectorSize.toNat out 0 cnt.toNat evs res →
    s.Scripted (setupEvents s.params (s.params.channelOf d) d.isMaster 0x20#8 lba cnt ++ evs) →
    exec (.readSectors device lba cnt out) s =
      .next (s.afterEvents (setupEvents s.params (s.params.channelOf d) d.isMaster 0x20#8 lba cnt ++ evs) res)

/-- R174 with R172, R175, R177: past the checks, WRITE_SECTORS writes the command setup and then sends sector after
sector and flushes each, whatever the drive answers; the buffer is only read. -/
def Obligations.WriteSectorsFollowsItsRule : Prop :=
  ∀ (s : State) (device : Nat) (lba : BitVec 32) (cnt : Byte) (data : Nat) (d : Device), s.Ready →
    lba.toNat < 2 ^ 28 → s.dev[device]? = some d → cnt ≠ 0#8 → d.logicalSectorSize ≠ 0#64 →
    d.logicalSectorSize.toNat % 2 = 0 →
    ∃ evs res, WriteTrace s.params (s.params.channelOf d) d.logicalSectorSize.toNat data s.mem 0 cnt.toNat evs res ∧
      consistent (setupEvents s.params (s.params.channelOf d) d.isMaster 0x30#8 lba cnt ++ evs) s.answers s.mem = true ∧
      exec (.writeSectors device lba cnt data) s =
        .next (s.afterEvents (setupEvents s.params (s.params.channelOf d) d.isMaster 0x30#8 lba cnt ++ evs) res)

/-- R174: the drive's answers fix WRITE_SECTORS. With `res = Ok(cnt)` this says when a write succeeds. -/
def Obligations.WriteSectorsDeterminedByAnswers : Prop :=
  ∀ (s : State) (device : Nat) (lba : BitVec 32) (cnt : Byte) (data : Nat) (d : Device) (evs : List Event)
      (res : Result),
    s.Ready → lba.toNat < 2 ^ 28 → s.dev[device]? = some d → cnt ≠ 0#8 → d.logicalSectorSize ≠ 0#64 →
    d.logicalSectorSize.toNat % 2 = 0 →
    WriteTrace s.params (s.params.channelOf d) d.logicalSectorSize.toNat data s.mem 0 cnt.toNat evs res →
    s.Scripted (setupEvents s.params (s.params.channelOf d) d.isMaster 0x30#8 lba cnt ++ evs) →
    exec (.writeSectors device lba cnt data) s =
      .next (s.afterEvents (setupEvents s.params (s.params.channelOf d) d.isMaster 0x30#8 lba cnt ++ evs) res)

/-- R172: steps 1 to 4 are six port writes before any read, the same in both directions but for the command byte; the
first read is a status read. -/
def Obligations.CommandSetupWrites : Prop :=
  ∀ (s t u : State) (device : Nat) (lba : BitVec 32) (cnt : Byte) (buf : Nat) (d : Device) (ch : Channel),
    lba.toNat < 2 ^ 28 → s.dev[device]? = some d → cnt ≠ 0#8 → d.logicalSectorSize ≠ 0#64 →
    d.logicalSectorSize.toNat % 2 = 0 → ch = s.params.channelOf d →
    exec (.readSectors device lba cnt buf) s = .next t → exec (.writeSectors device lba cnt buf) s = .next u →
    (newEvents s t).take 6 =
      [.w8 (s.params.port ch .deviceSelect) (BitVec.ofNat 8 ((if d.isMaster then 0xE0 else 0xF0) + lba.toNat / 2 ^ 24)),
        .w8 (s.params.port ch .sectorCount) cnt, .w8 (s.params.port ch .lbaLow) (BitVec.ofNat 8 lba.toNat),
        .w8 (s.params.port ch .lbaMid) (BitVec.ofNat 8 (lba.toNat / 2 ^ 8)),
        .w8 (s.params.port ch .lbaHi) (BitVec.ofNat 8 (lba.toNat / 2 ^ 16)), .w8 (s.params.port ch .command) 0x20#8] ∧
    (newEvents s u).take 5 = (newEvents s t).take 5 ∧
    (newEvents s u)[5]? = some (.w8 (s.params.port ch .command) 0x30#8) ∧
    ∃ v w, (newEvents s t)[6]? = some (.r8 (s.params.port ch .status) v) ∧
      (newEvents s u)[6]? = some (.r8 (s.params.port ch .status) w)

/-- R178 (92 D30): the 48-bit operations return `Err(Unimplemented, 0)` whatever their arguments, with no access. -/
def Obligations.FortyEightBitStubs : Prop :=
  ∀ (s : State) (device : Nat) (lba : BitVec 64) (cnt : Byte) (buf : Nat), s.Ready →
    exec (.readSectors48 device lba cnt buf) s = .next (s.afterEvents [] (.err .unimplemented 0)) ∧
    exec (.writeSectors48 device lba cnt buf) s = .next (s.afterEvents [] (.err .unimplemented 0))

/-! ## Byte ranges -/

/-- R202 (92 D9 to D12, D17, D18) and R203 (e): the five checks in their order; a refusal makes no access and leaves
`selected` alone. Read and write alike. -/
def Obligations.ByteRangeChecksRefuse : Prop :=
  ∀ (s : State) (id buf : Nat) (off size : BitVec 64) (kind : ErrorKind), s.Ready →
    ((s.count ≤ id ∧ kind = .invalidArgument) ∨
      ∃ d, s.dev[id]? = some d ∧
        (((d.logicalSectorSize = 0#64 ∨ d.logicalSectorSize.toNat % 2 = 1) ∧ kind = .invalidArgument) ∨
          (d.logicalSectorSize ≠ 0#64 ∧ d.logicalSectorSize.toNat % 2 = 0 ∧
            (((off.toNat % d.logicalSectorSize.toNat ≠ 0 ∨ size.toNat % d.logicalSectorSize.toNat ≠ 0) ∧
                kind = .invalidArgument) ∨
              (off.toNat % d.logicalSectorSize.toNat = 0 ∧ size.toNat % d.logicalSectorSize.toNat = 0 ∧
                ((2 ^ 28 ≤ off.toNat / d.logicalSectorSize.toNat ∧ kind = .unsupportedAddress) ∨
                  (off.toNat / d.logicalSectorSize.toNat < 2 ^ 28 ∧ kind = .invalidArgument ∧
                    (size = 0#64 ∨ 255 < size.toNat / d.logicalSectorSize.toNat)))))))) →
    exec (.read id buf off size) s = .next (s.afterEvents [] (.err kind 0)) ∧
    exec (.write id buf off size) s = .next (s.afterEvents [] (.err kind 0))

/-- R200 with R122, R204: a byte range of whole sectors is read by ENSURE_SELECTED's events and then READ_SECTORS' own,
with `lba` and `cnt` such that the offset is `lba * L` and the size `cnt * L`. -/
def Obligations.ReadFollowsItsRule : Prop :=
  ∀ (s : State) (id buf : Nat) (off size : BitVec 64) (d : Device) (lba : BitVec 32) (cnt : Byte), s.Ready →
    s.dev[id]? = some d → d.logicalSectorSize ≠ 0#64 → d.logicalSectorSize.toNat % 2 = 0 → lba.toNat < 2 ^ 28 →
    cnt ≠ 0#8 → off.toNat = lba.toNat * d.logicalSectorSize.toNat → size.toNat = cnt.toNat * d.logicalSectorSize.toNat →
    ∃ vs evs res, vs.length = 4 ∧
      ReadTrace s.params (s.params.channelOf d) d.logicalSectorSize.toNat buf 0 cnt.toNat evs res ∧
      let all := (if s.selected = .device id then [] else selectEvents s.params (s.params.channelOf d) d.isMaster vs) ++
        setupEvents s.params (s.params.channelOf d) d.isMaster 0x20#8 lba cnt ++ evs
      consistent all s.answers s.mem = true ∧
      exec (.read id buf off size) s = .next { s.afterEvents all res with selected := .device id }

/-- R200: the drive's answers fix READ. With `res = Ok(cnt)` this says when a read succeeds. -/
def Obligations.ReadDeterminedByAnswers : Prop :=
  ∀ (s : State) (id buf : Nat) (off size : BitVec 64) (d : Device) (lba : BitVec 32) (cnt : Byte) (vs : List Byte)
      (evs : List Event) (res : Result), s.Ready →
    s.dev[id]? = some d → d.logicalSectorSize ≠ 0#64 → d.logicalSectorSize.toNat % 2 = 0 → lba.toNat < 2 ^ 28 →
    cnt ≠ 0#8 → off.toNat = lba.toNat * d.logicalSectorSize.toNat → size.toNat = cnt.toNat * d.logicalSectorSize.toNat →
    vs.length = 4 →
    ReadTrace s.params (s.params.channelOf d) d.logicalSectorSize.toNat buf 0 cnt.toNat evs res →
    let all := (if s.selected = .device id then [] else selectEvents s.params (s.params.channelOf d) d.isMaster vs) ++
      setupEvents s.params (s.params.channelOf d) d.isMaster 0x20#8 lba cnt ++ evs
    s.Scripted all → exec (.read id buf off size) s = .next { s.afterEvents all res with selected := .device id }

/-- R201 with R122 (92 D7), R204: WRITE, the same way. -/
def Obligations.WriteFollowsItsRule : Prop :=
  ∀ (s : State) (id buf : Nat) (off size : BitVec 64) (d : Device) (lba : BitVec 32) (cnt : Byte), s.Ready →
    s.dev[id]? = some d → d.logicalSectorSize ≠ 0#64 → d.logicalSectorSize.toNat % 2 = 0 → lba.toNat < 2 ^ 28 →
    cnt ≠ 0#8 → off.toNat = lba.toNat * d.logicalSectorSize.toNat → size.toNat = cnt.toNat * d.logicalSectorSize.toNat →
    ∃ vs evs res, vs.length = 4 ∧
      WriteTrace s.params (s.params.channelOf d) d.logicalSectorSize.toNat buf s.mem 0 cnt.toNat evs res ∧
      let all := (if s.selected = .device id then [] else selectEvents s.params (s.params.channelOf d) d.isMaster vs) ++
        setupEvents s.params (s.params.channelOf d) d.isMaster 0x30#8 lba cnt ++ evs
      consistent all s.answers s.mem = true ∧
      exec (.write id buf off size) s = .next { s.afterEvents all res with selected := .device id }

/-- R201: the drive's answers fix WRITE. With `res = Ok(cnt)` this says when a write succeeds. -/
def Obligations.WriteDeterminedByAnswers : Prop :=
  ∀ (s : State) (id buf : Nat) (off size : BitVec 64) (d : Device) (lba : BitVec 32) (cnt : Byte) (vs : List Byte)
      (evs : List Event) (res : Result), s.Ready →
    s.dev[id]? = some d → d.logicalSectorSize ≠ 0#64 → d.logicalSectorSize.toNat % 2 = 0 → lba.toNat < 2 ^ 28 →
    cnt ≠ 0#8 → off.toNat = lba.toNat * d.logicalSectorSize.toNat → size.toNat = cnt.toNat * d.logicalSectorSize.toNat →
    vs.length = 4 →
    WriteTrace s.params (s.params.channelOf d) d.logicalSectorSize.toNat buf s.mem 0 cnt.toNat evs res →
    let all := (if s.selected = .device id then [] else selectEvents s.params (s.params.channelOf d) d.isMaster vs) ++
      setupEvents s.params (s.params.channelOf d) d.isMaster 0x30#8 lba cnt ++ evs
    s.Scripted all → exec (.write id buf off size) s = .next { s.afterEvents all res with selected := .device id }

/-! ## The whole machine -/

/-- R5, R20, R43, R50, R81 (b), (c): whatever instruction runs, its accesses are ones the engine may make, the trace has
them all in order, each read has the value the backend or the buffer gave, and the buffer, the answers used and the
count of port accesses are what the trace says. Nothing else changes but the engine state. -/
def Obligations.TraceTellsAll : Prop :=
  ∀ (i : Instr) (s t : State), exec i s = .next t →
    ∃ evs res, consistent evs s.answers s.mem = true ∧ (∀ e ∈ evs, e.allowed s.params = true) ∧
      t = { s.afterEvents evs res with dev := t.dev, selected := t.selected, initDone := t.initDone }

/-- R12 to R15, R121, R123, R134: who writes the engine state, and what. -/
def Obligations.EngineStateWriters : Prop :=
  ∀ (i : Instr) (s t : State), exec i s = .next t →
    (t.dev ≠ s.dev → i = .init ∨ i = .probeAll) ∧
    (t.initDone ≠ s.initDone → i = .init ∧ t.initDone = true) ∧
    (t.selected ≠ s.selected →
      ((i = .init ∨ i = .probeAll) ∧ t.selected = .device 0 ∧ t.count ≠ 0) ∨
      ∃ id, t.selected = .device id ∧ id < s.count ∧
        (i = .select id ∨ i = .ensureSelected id ∨ (∃ buf off size, i = .read id buf off size) ∨
          ∃ buf off size, i = .write id buf off size))

/-- R123: an operation that returns an error has changed `selected` only if it is a READ or a WRITE past its checks, and
the registry and `init_done` not at all. -/
def Obligations.FailureLeavesEngineState : Prop :=
  ∀ (i : Instr) (s t : State) (kind : ErrorKind) (k : Nat), exec i s = .next t → t.result = some (.err kind k) →
    t.dev = s.dev ∧ t.initDone = s.initDone ∧ t.phase = .idle ∧ t.work = none ∧
    (t.accesses = s.accesses → t.selected = s.selected ∧ t.log = s.log ∧ t.mem = s.mem ∧ k = 0) ∧
    (t.selected ≠ s.selected → ∃ id buf off size, i = .read id buf off size ∨ i = .write id buf off size)

/-- R233, R180: the results each operation can have. -/
def Obligations.ResultsFit : Prop :=
  ∀ (i : Instr) (s t : State), s.count ≤ 4 → exec i s = .next t → ∃ r, t.result = some r ∧ r.fits i

/-- R40, R46, R175: a byte of the buffer that changes belongs to a sector that a READ or READ_SECTORS completed. -/
def Obligations.BufferWrittenOnlyByCompletedReads : Prop :=
  ∀ (i : Instr) (s t : State) (a : Nat) (r : Result), exec i s = .next t → t.result = some r → t.byte a ≠ s.byte a →
    ∃ device buf d, s.dev[device]? = some d ∧ buf ≤ a ∧ a < buf + r.sectors * d.logicalSectorSize.toNat ∧
      ((∃ lba cnt, i = .readSectors device lba cnt buf) ∨ ∃ off size, i = .read device buf off size)

/-- R46, R45: the words a READ_SECTORS received stand in the buffer one after another from its base, low byte first, as
many as the sectors it completed hold. -/
def Obligations.ReceivedWordsInOrder : Prop :=
  ∀ (s t : State) (device : Nat) (lba : BitVec 32) (cnt : Byte) (out : Nat) (d : Device) (r : Result),
    Memory.wf s.mem → s.dev[device]? = some d → exec (.readSectors device lba cnt out) s = .next t →
    t.result = some r →
    (receivedWords (newEvents s t)).length = r.sectors * (d.logicalSectorSize.toNat / 2) ∧
    ∀ n v, (receivedWords (newEvents s t))[n]? = some v →
      (t.byte (out + 2 * n)).toNat = v.toNat % 256 ∧ (t.byte (out + 2 * n + 1)).toNat = v.toNat / 256

/-- R46, R45, R174: the words a WRITE_SECTORS sent are the buffer's, one after another from its base, low byte first; a
completed write sent every sector, and one that failed at most one sector more than it counts. -/
def Obligations.SentWordsInOrder : Prop :=
  ∀ (s t : State) (device : Nat) (lba : BitVec 32) (cnt : Byte) (data : Nat) (d : Device) (r : Result),
    s.dev[device]? = some d → exec (.writeSectors device lba cnt data) s = .next t → t.result = some r →
    t.mem = s.mem ∧
    (r = .ok cnt.toNat → (sentWords (newEvents s t)).length = cnt.toNat * (d.logicalSectorSize.toNat / 2)) ∧
    ((sentWords (newEvents s t)).length = r.sectors * (d.logicalSectorSize.toNat / 2) ∨
      (r = .err .timeout r.sectors ∧
        (sentWords (newEvents s t)).length = (r.sectors + 1) * (d.logicalSectorSize.toNat / 2))) ∧
    ∀ n v, (sentWords (newEvents s t))[n]? = some v →
      v.toNat = (s.byte (data + 2 * n)).toNat + (s.byte (data + 2 * n + 1)).toNat * 256

/-- R55: a byte range written and later read back into any buffer, by a backend that returns the words it was sent, has
the bytes that were written. -/
def Obligations.WriteThenReadReturnsBytes : Prop :=
  ∀ (s t u v : State) (id data out : Nat) (off size : BitVec 64) (n m : Nat), Memory.wf u.mem → u.dev = s.dev →
    exec (.write id data off size) s = .next t → t.result = some (.ok n) →
    exec (.read id out off size) u = .next v → v.result = some (.ok m) →
    receivedWords (newEvents u v) = sentWords (newEvents s t) →
    ∀ a, a < size.toNat → v.byte (out + a) = s.byte (data + a)

/-- R121 and R170: a selection or a transfer touches the ports of its device's channel only. -/
def Obligations.DeviceChannelOnly : Prop :=
  ∀ (i : Instr) (s t : State) (id : Nat) (d : Device), s.dev[id]? = some d → exec i s = .next t →
    (i = .select id ∨ i = .ensureSelected id ∨ (∃ lba cnt buf, i = .readSectors id lba cnt buf) ∨
      (∃ lba cnt buf, i = .writeSectors id lba cnt buf) ∨ (∃ buf off size, i = .read id buf off size) ∨
      ∃ buf off size, i = .write id buf off size) →
    ∀ e ∈ newEvents s t, e.allowedOn s.params (s.params.channelOf d) = true

/-- R104, R132, R137, R179: the bounds on the number of events. -/
def Obligations.EventBounds : Prop :=
  ∀ (s t : State),
    (∀ ch c st e n, exec (.poll ch c st e n) s = .next t → (newEvents s t).length ≤ n) ∧
    (∀ ch m, exec (.identify ch m) s = .next t →
      11 ≤ (newEvents s t).length ∧ (newEvents s t).length ≤ 269 + 2 * s.params.pollBudget) ∧
    (exec .probeAll s = .next t → (newEvents s t).length ≤ 1081 + 8 * s.params.pollBudget) ∧
    (exec .init s = .next t → (newEvents s t).length ≤ 1081 + 8 * s.params.pollBudget) ∧
    (∀ device lba cnt out d, s.dev[device]? = some d → exec (.readSectors device lba cnt out) s = .next t →
      (newEvents s t).length ≤
        6 + cnt.toNat * (s.params.pollBudget + 2 * (d.logicalSectorSize.toNat / 2) + 400)) ∧
    (∀ device lba cnt data d, s.dev[device]? = some d → exec (.writeSectors device lba cnt data) s = .next t →
      (newEvents s t).length ≤
        6 + cnt.toNat * (s.params.pollBudget + 2 * (d.logicalSectorSize.toNat / 2) + 1 + s.params.flushBudget))

/-- R226, R234: a ready engine answers every instruction, and is ready again. -/
def Obligations.EveryRequestCompletes : Prop :=
  ∀ (i : Instr) (s : State), s.Ready → ∃ t, exec i s = .next t ∧ t.Ready
end

