-- ==== Sys2Proof/Laws/Memory.lean ====
section
/-! SUPPORT. The laws of the buffer memory: a read after a write, a read elsewhere, and the canonical form. -/
namespace Sys2Proof.Machine

/-- The empty memory, which is the memory after reset, is in canonical form. -/
theorem Memory.wf_nil : Memory.wf ([] : Memory) := by simp [Memory.wf]

theorem Memory.wf_cons {c : Host.Cell} {m : Memory} :
    Memory.wf (c :: m) ↔ (∀ d ∈ m, c.1 < d.1) ∧ c.2 ≠ Memory.unlisted ∧ Memory.wf m := by
  simp only [Memory.wf, List.pairwise_cons, List.forall_mem_cons]
  tauto

/-- An address below every listed one reads as unlisted. -/
theorem Memory.read_below {m : Memory} {a : Nat} (h : ∀ d ∈ m, a < d.1) : Memory.read m a = Memory.unlisted := by
  induction m with
  | nil => rfl
  | cons c m ih =>
    have hc := h c (by simp)
    simp only [Memory.read]
    rw [if_neg (by omega), ih fun d hd => h d (by simp [hd])]

/-- What a write leaves listed: old cells and the new one. -/
theorem Memory.mem_write {m : Memory} {a : Nat} {v : Byte} {c : Host.Cell} (h : c ∈ Memory.write m a v) :
    c ∈ m ∨ c = (a, v) ∧ v ≠ Memory.unlisted := by
  induction m with
  | nil =>
    simp only [Memory.write] at h
    split at h <;> simp_all
  | cons d m ih =>
    obtain ⟨b, u⟩ := d
    simp only [Memory.write] at h
    split at h
    · split at h <;> simp_all; tauto
    · split at h
      · split at h <;> simp_all
        tauto
      · simp only [List.mem_cons] at h ⊢
        rcases h with h | h
        · tauto
        · rcases ih h with h | h <;> tauto

/-- A write keeps the canonical form. -/
theorem Memory.write_wf {m : Memory} (hm : Memory.wf m) (a : Nat) (v : Byte) : Memory.wf (Memory.write m a v) := by
  induction m with
  | nil =>
    simp only [Memory.write]
    split
    · exact Memory.wf_nil
    · exact Memory.wf_cons.2 ⟨by simp, by assumption, Memory.wf_nil⟩
  | cons d m ih =>
    obtain ⟨b, u⟩ := d
    obtain ⟨hlt, hu, hm'⟩ := Memory.wf_cons.1 hm
    simp only [Memory.write]
    split
    · split
      · exact hm
      · refine Memory.wf_cons.2 ⟨fun d hd => ?_, by assumption, hm⟩
        rcases List.mem_cons.1 hd with rfl | hd
        · assumption
        · exact lt_trans (by assumption) (hlt d hd)
    · split
      · rename_i hab
        subst hab
        split
        · exact hm'
        · exact Memory.wf_cons.2 ⟨hlt, by assumption, hm'⟩
      · refine Memory.wf_cons.2 ⟨fun d hd => ?_, hu, ih hm'⟩
        rcases Memory.mem_write hd with hd | ⟨rfl, -⟩
        · exact hlt d hd
        · simp only; omega

/-- The byte just written. -/
theorem Memory.read_write_same {m : Memory} (hm : Memory.wf m) (a : Nat) (v : Byte) :
    Memory.read (Memory.write m a v) a = v := by
  induction m with
  | nil =>
    simp only [Memory.write]
    split <;> simp_all [Memory.read]
  | cons d m ih =>
    obtain ⟨b, u⟩ := d
    obtain ⟨hlt, hu, hm'⟩ := Memory.wf_cons.1 hm
    simp only [Memory.write]
    split
    · split
      · rename_i hab hv
        rw [hv]
        apply Memory.read_below
        intro d hd
        rcases List.mem_cons.1 hd with rfl | hd
        · exact hab
        · exact lt_trans hab (hlt d hd)
      · simp [Memory.read]
    · split
      · rename_i hab
        subst hab
        split
        · rename_i hv
          rw [hv]
          exact Memory.read_below hlt
        · simp [Memory.read]
      · simp only [Memory.read]
        rw [if_neg (by assumption), ih hm']

/-- A write leaves every other address alone. -/
theorem Memory.read_write_other {m : Memory} {a b : Nat} (h : b ≠ a) (v : Byte) :
    Memory.read (Memory.write m a v) b = Memory.read m b := by
  induction m with
  | nil =>
    simp only [Memory.write]
    split <;> simp [Memory.read, h]
  | cons d m ih =>
    obtain ⟨c, u⟩ := d
    simp only [Memory.write]
    split
    · split
      · rfl
      · simp [Memory.read, h]
    · split
      · rename_i hac
        subst hac
        split <;> simp [Memory.read, h]
      · simp only [Memory.read, ih]

/-- A write of a word keeps the canonical form. -/
theorem Memory.writeWord_wf {m : Memory} (hm : Memory.wf m) (a : Nat) (v : Word) :
    Memory.wf (Memory.writeWord m a v) :=
  Memory.write_wf (Memory.write_wf hm _ _) _ _

/-- A write of a word leaves every address but its two alone. -/
theorem Memory.read_writeWord_other {m : Memory} {a b : Nat} (h : b ≠ a) (h' : b ≠ a + 1) (v : Word) :
    Memory.read (Memory.writeWord m a v) b = Memory.read m b := by
  rw [Memory.writeWord, Memory.read_write_other h', Memory.read_write_other h]

/-- The low byte of the word just written is at its address. -/
theorem Memory.read_writeWord_low {m : Memory} (hm : Memory.wf m) (a : Nat) (v : Word) :
    Memory.read (Memory.writeWord m a v) a = v.extractLsb' 0 8 := by
  rw [Memory.writeWord, Memory.read_write_other (by omega), Memory.read_write_same hm]

/-- The high byte of the word just written is at the next address. -/
theorem Memory.read_writeWord_high {m : Memory} (hm : Memory.wf m) (a : Nat) (v : Word) :
    Memory.read (Memory.writeWord m a v) (a + 1) = v.extractLsb' 8 8 := by
  rw [Memory.writeWord, Memory.read_write_same (Memory.write_wf hm _ _)]

/-- A trace's buffer writes keep the canonical form. -/
theorem replay_wf (evs : List Event) {m : Memory} (hm : Memory.wf m) : Memory.wf (replay evs m) := by
  induction evs generalizing m with
  | nil => exact hm
  | cons e evs ih =>
    cases e with
    | mw a v => exact ih (Memory.writeWord_wf hm a v)
    | r8 => exact ih hm
    | r16 => exact ih hm
    | w8 => exact ih hm
    | w16 => exact ih hm
    | mr => exact ih hm

end Sys2Proof.Machine
end

