-- ==== Sys2Proof/Laws/State.lean ====
section
/-! SUPPORT. One lemma per field per update of the state, each true by rfl, so that no proof unfolds a record update. -/
namespace Sys2Proof.Machine

variable (s : State) (r : Run) (op : Instr) (res : Result) (evs : List Event)

/-! ### withRun -/

@[simp] theorem State.withRun_params : (s.withRun r).params = s.params := rfl
@[simp] theorem State.withRun_dev : (s.withRun r).dev = s.dev := rfl
@[simp] theorem State.withRun_selected : (s.withRun r).selected = s.selected := rfl
@[simp] theorem State.withRun_initDone : (s.withRun r).initDone = s.initDone := rfl
@[simp] theorem State.withRun_phase : (s.withRun r).phase = s.phase := rfl
@[simp] theorem State.withRun_work : (s.withRun r).work = some r.work := rfl
@[simp] theorem State.withRun_mem : (s.withRun r).mem = r.mem := rfl
@[simp] theorem State.withRun_log : (s.withRun r).log = r.log := rfl
@[simp] theorem State.withRun_result : (s.withRun r).result = s.result := rfl
@[simp] theorem State.withRun_requests : (s.withRun r).requests = s.requests := rfl
@[simp] theorem State.withRun_answers : (s.withRun r).answers = r.answers := rfl
@[simp] theorem State.withRun_accesses : (s.withRun r).accesses = r.accesses := rfl
@[simp] theorem State.withRun_stall : (s.withRun r).stall = s.stall := rfl

/-! ### accept -/

@[simp] theorem State.accept_params : (s.accept op).params = s.params := rfl
@[simp] theorem State.accept_dev : (s.accept op).dev = s.dev := rfl
@[simp] theorem State.accept_selected : (s.accept op).selected = s.selected := rfl
@[simp] theorem State.accept_initDone : (s.accept op).initDone = s.initDone := rfl
@[simp] theorem State.accept_phase : (s.accept op).phase = .busy op := rfl
@[simp] theorem State.accept_work : (s.accept op).work = some Work.fresh := rfl
@[simp] theorem State.accept_mem : (s.accept op).mem = s.mem := rfl
@[simp] theorem State.accept_log : (s.accept op).log = s.log := rfl
@[simp] theorem State.accept_result : (s.accept op).result = s.result := rfl
@[simp] theorem State.accept_requests : (s.accept op).requests = s.requests := rfl
@[simp] theorem State.accept_answers : (s.accept op).answers = s.answers := rfl
@[simp] theorem State.accept_accesses : (s.accept op).accesses = s.accesses := rfl
@[simp] theorem State.accept_stall : (s.accept op).stall = s.stall := rfl

/-! ### deliver -/

@[simp] theorem State.deliver_params : (s.deliver res).params = s.params := rfl
@[simp] theorem State.deliver_dev : (s.deliver res).dev = s.dev := rfl
@[simp] theorem State.deliver_selected : (s.deliver res).selected = s.selected := rfl
@[simp] theorem State.deliver_initDone : (s.deliver res).initDone = s.initDone := rfl
@[simp] theorem State.deliver_phase : (s.deliver res).phase = .idle := rfl
@[simp] theorem State.deliver_work : (s.deliver res).work = none := rfl
@[simp] theorem State.deliver_mem : (s.deliver res).mem = s.mem := rfl
@[simp] theorem State.deliver_log : (s.deliver res).log = s.log := rfl
@[simp] theorem State.deliver_result : (s.deliver res).result = some res := rfl
@[simp] theorem State.deliver_requests : (s.deliver res).requests = s.requests := rfl
@[simp] theorem State.deliver_answers : (s.deliver res).answers = s.answers := rfl
@[simp] theorem State.deliver_accesses : (s.deliver res).accesses = s.accesses := rfl
@[simp] theorem State.deliver_stall : (s.deliver res).stall = s.stall := rfl

/-! ### afterEvents -/

@[simp] theorem State.afterEvents_params : (s.afterEvents evs res).params = s.params := rfl
@[simp] theorem State.afterEvents_dev : (s.afterEvents evs res).dev = s.dev := rfl
@[simp] theorem State.afterEvents_selected : (s.afterEvents evs res).selected = s.selected := rfl
@[simp] theorem State.afterEvents_initDone : (s.afterEvents evs res).initDone = s.initDone := rfl
@[simp] theorem State.afterEvents_phase : (s.afterEvents evs res).phase = s.phase := rfl
@[simp] theorem State.afterEvents_work : (s.afterEvents evs res).work = none := rfl
@[simp] theorem State.afterEvents_mem : (s.afterEvents evs res).mem = replay evs s.mem := rfl
@[simp] theorem State.afterEvents_log : (s.afterEvents evs res).log = evs.reverse ++ s.log := rfl
@[simp] theorem State.afterEvents_result : (s.afterEvents evs res).result = some res := rfl
@[simp] theorem State.afterEvents_requests : (s.afterEvents evs res).requests = s.requests := rfl
@[simp] theorem State.afterEvents_answers : (s.afterEvents evs res).answers = s.answers.drop (evs.countP Event.isPortRead) := rfl
@[simp] theorem State.afterEvents_accesses : (s.afterEvents evs res).accesses = s.accesses + evs.countP Event.isPort := rfl
@[simp] theorem State.afterEvents_stall : (s.afterEvents evs res).stall = s.stall := rfl

/-! ### the view of an operation in progress -/

@[simp] theorem State.run_mem : s.run.mem = s.mem := rfl
@[simp] theorem State.run_log : s.run.log = s.log := rfl
@[simp] theorem State.run_answers : s.run.answers = s.answers := rfl
@[simp] theorem State.run_accesses : s.run.accesses = s.accesses := rfl
@[simp] theorem State.run_withRun : (s.withRun r).run = r := rfl
@[simp] theorem State.run_accept_work : (s.accept op).run.work = Work.fresh := rfl
@[simp] theorem State.withRun_withRun (q : Run) : (s.withRun r).withRun q = s.withRun q := rfl
@[simp] theorem State.withRun_count : (s.withRun r).count = s.count := rfl
@[simp] theorem State.accept_count : (s.accept op).count = s.count := rfl
@[simp] theorem State.deliver_count : (s.deliver res).count = s.count := rfl
@[simp] theorem State.afterEvents_count : (s.afterEvents evs res).count = s.count := rfl

/-! ### the step label -/

@[simp] theorem Run.goto_mem (l : SeqStep) : (r.goto l).mem = r.mem := rfl
@[simp] theorem Run.goto_log (l : SeqStep) : (r.goto l).log = r.log := rfl
@[simp] theorem Run.goto_answers (l : SeqStep) : (r.goto l).answers = r.answers := rfl
@[simp] theorem Run.goto_accesses (l : SeqStep) : (r.goto l).accesses = r.accesses := rfl
@[simp] theorem Run.goto_work (l : SeqStep) : (r.goto l).work = { r.work with seq := l } := rfl

end Sys2Proof.Machine
end

