-- ==== Sys2Proof/Laws/Trace.lean ====
section
/-! SUPPORT. How traces compose, and the relation `Did`: an operation made exactly these accesses and changed nothing
but what they change and its working registers. -/
namespace Sys2Proof.Machine

@[simp] theorem replay_append (e f : List Event) (m : Memory) : replay (e ++ f) m = replay f (replay e m) := by
  induction e generalizing m with
  | nil => rfl
  | cons x e ih => cases x <;> simp [replay, ih]

theorem consistent_append (e f : List Event) (as : List Word) (m : Memory) :
    consistent (e ++ f) as m =
      (consistent e as m && consistent f (as.drop (e.countP Event.isPortRead)) (replay e m)) := by
  induction e generalizing as m with
  | nil => simp [consistent, replay]
  | cons x e ih =>
    cases x <;> cases as <;>
      simp [consistent, replay, ih, Event.isPortRead, List.countP_cons, Bool.and_assoc]

/-- What is left of a run after the accesses `evs`, its working registers being `w`. -/
def Run.plays (r : Run) (evs : List Event) (w : Work) : Run where
  mem := replay evs r.mem
  log := evs.reverse ++ r.log
  answers := r.answers.drop (evs.countP Event.isPortRead)
  accesses := r.accesses + evs.countP Event.isPort
  work := w

@[simp] theorem Run.plays_work (r : Run) (evs : List Event) (w : Work) : (r.plays evs w).work = w := rfl
@[simp] theorem Run.plays_mem (r : Run) (evs : List Event) (w : Work) : (r.plays evs w).mem = replay evs r.mem := rfl
@[simp] theorem Run.plays_answers (r : Run) (evs : List Event) (w : Work) :
    (r.plays evs w).answers = r.answers.drop (evs.countP Event.isPortRead) := rfl

theorem Run.plays_plays (r : Run) (e f : List Event) (w v : Work) :
    (r.plays e w).plays f v = r.plays (e ++ f) v := by
  simp [Run.plays, Nat.add_assoc]

/-- From `r`, the accesses `evs` were made, every read answered as `consistent` says, and nothing else happened but to
the working registers: `q` is the result. -/
structure Did (r : Run) (evs : List Event) (q : Run) : Prop where
  answered : consistent evs r.answers r.mem = true
  result : q = r.plays evs q.work

theorem Did.refl (r : Run) : Did r [] r := ⟨rfl, by simp [Run.plays, replay]⟩

theorem Did.trans {r q t : Run} {e f : List Event} (h : Did r e q) (g : Did q f t) : Did r (e ++ f) t := by
  obtain ⟨h₁, h₂⟩ := h
  obtain ⟨g₁, g₂⟩ := g
  refine ⟨?_, ?_⟩
  · rw [consistent_append, h₁]
    rw [h₂] at g₁
    simpa using g₁
  · rw [g₂, h₂, Run.plays_plays]
    rfl

/-- Setting working registers makes no access. -/
theorem Did.setWork {r q : Run} {e : List Event} (h : Did r e q) (w : Work) : Did r e { q with work := w } :=
  ⟨h.answered, by conv_lhs => rw [h.result]
                  rfl⟩

/-- Working registers set beforehand make no access either. -/
theorem Did.fromWork {r q : Run} {e : List Event} {w : Work} (h : Did { r with work := w } e q) : Did r e q :=
  ⟨h.answered, h.result⟩

theorem Did.mem {r q : Run} {e : List Event} (h : Did r e q) : q.mem = replay e r.mem := by
  rw [h.result]; rfl

/-! ### The accesses -/

theorem Run.answer_agrees (r : Run) :
    r.answers = [] ∨ ∃ as, r.answers = r.answer :: as := by
  rcases h : r.answers with _ | ⟨a, as⟩ <;> simp [Run.answer, h]

theorem portRead8_did (l : SeqStep) (port : Nat) (r : Run) :
    Did r [.r8 port (portRead8 l port r).1] (portRead8 l port r).2 := by
  refine ⟨?_, by simp [portRead8, Run.plays, replay, Event.isPortRead, Event.isPort]⟩
  rcases r.answer_agrees with h | ⟨as, h⟩ <;> rw [h] <;> simp [consistent, portRead8]

theorem portRead16_did (l : SeqStep) (port : Nat) (r : Run) :
    Did r [.r16 port (portRead16 l port r).1] (portRead16 l port r).2 := by
  refine ⟨?_, by simp [portRead16, Run.plays, replay, Event.isPortRead, Event.isPort]⟩
  rcases r.answer_agrees with h | ⟨as, h⟩ <;> rw [h] <;> simp [consistent, portRead16]

theorem portWrite8_did (l : SeqStep) (port : Nat) (v : Byte) (r : Run) :
    Did r [.w8 port v] (portWrite8 l port v r) :=
  ⟨by simp [consistent], by simp [portWrite8, Run.plays, replay, Event.isPortRead, Event.isPort]⟩

theorem portWrite16_did (l : SeqStep) (port : Nat) (v : Word) (r : Run) :
    Did r [.w16 port v] (portWrite16 l port v r) :=
  ⟨by simp [consistent], by simp [portWrite16, Run.plays, replay, Event.isPortRead, Event.isPort]⟩

theorem memRead16_did (l : SeqStep) (addr : Nat) (r : Run) :
    Did r [.mr addr (Memory.readWord r.mem addr)] (memRead16 l addr r).2 :=
  ⟨by simp [consistent], by simp [memRead16, Run.plays, replay, Event.isPortRead, Event.isPort]⟩

theorem memWrite16_did (l : SeqStep) (addr : Nat) (v : Word) (r : Run) :
    Did r [.mw addr v] (memWrite16 l addr v r) :=
  ⟨by simp [consistent], by simp [memWrite16, Run.plays, replay, Event.isPortRead, Event.isPort]⟩

@[simp] theorem portRead8_work (l : SeqStep) (port : Nat) (r : Run) :
    (portRead8 l port r).2.work = { r.work with seq := l } := rfl
@[simp] theorem portRead16_work (l : SeqStep) (port : Nat) (r : Run) :
    (portRead16 l port r).2.work = { r.work with seq := l } := rfl
@[simp] theorem portWrite8_work (l : SeqStep) (port : Nat) (v : Byte) (r : Run) :
    (portWrite8 l port v r).work = { r.work with seq := l } := rfl
@[simp] theorem portWrite16_work (l : SeqStep) (port : Nat) (v : Word) (r : Run) :
    (portWrite16 l port v r).work = { r.work with seq := l } := rfl
@[simp] theorem memRead16_work (l : SeqStep) (addr : Nat) (r : Run) :
    (memRead16 l addr r).2.work = { r.work with seq := l } := rfl
@[simp] theorem memWrite16_work (l : SeqStep) (addr : Nat) (v : Word) (r : Run) :
    (memWrite16 l addr v r).work = { r.work with seq := l } := rfl
@[simp] theorem memRead16_value (l : SeqStep) (addr : Nat) (r : Run) :
    (memRead16 l addr r).1 = Memory.readWord r.mem addr := rfl
@[simp] theorem portWrite16_mem (l : SeqStep) (port : Nat) (v : Word) (r : Run) :
    (portWrite16 l port v r).mem = r.mem := rfl
@[simp] theorem memRead16_mem (l : SeqStep) (addr : Nat) (r : Run) : (memRead16 l addr r).2.mem = r.mem := rfl

end Sys2Proof.Machine
end

