-- ==== Sys2Proof/Laws/Polling.lean ====
section
/-! SUPPORT. What the shared loops over the ports do: the status read, POLL, the select settle and the post-read
settle. Each lemma gives the accesses made and the working registers touched. -/
namespace Sys2Proof.Machine

/-! ### The status read (R101) -/

theorem statusRead_did (l : SeqStep) (p : Params) (ch : Channel) (r : Run) :
    Did r (statusEvents p ch [(statusRead l p ch r).work.s]) (statusRead l p ch r) :=
  (portRead8_did l (p.port ch .status) r).setWork _

@[simp] theorem statusRead_work (l : SeqStep) (p : Params) (ch : Channel) (r : Run) :
    (statusRead l p ch r).work = { r.work with seq := l, s := (statusRead l p ch r).work.s } := rfl

theorem statusEvents_cons (p : Params) (ch : Channel) (b : Byte) (l : List Byte) :
    statusEvents p ch (b :: l) = statusEvents p ch [b] ++ statusEvents p ch l := rfl

/-! ### POLL (R102) -/

theorem statusError_iff (e s : Byte) : statusError e s = true ↔ s &&& e ≠ 0#8 := by
  simp [statusError]

theorem statusReady_iff (c t s : Byte) : statusReady c t s = true ↔ s &&& c = 0#8 ∧ s &&& t = t := by
  simp [statusReady]

/-- One more quiet byte in front of a poll's bytes. -/
theorem PollReads.cons {c t e : Byte} {m : Nat} {l : List Byte} {o : PollOutcome} {b : Byte}
    (hb : b &&& e = 0#8 ∧ ¬(b &&& c = 0#8 ∧ b &&& t = t)) (h : PollReads c t e m l o) :
    PollReads c t e (m + 1) (b :: l) o := by
  cases o with
  | timedOut =>
    refine ⟨by simp [h.1], fun x hx => ?_⟩
    rcases List.mem_cons.1 hx with rfl | hx
    · exact hb
    · exact h.2 x hx
  | ready =>
    obtain ⟨q, y, rfl, hlen, hq, h⟩ := h
    refine ⟨b :: q, y, rfl, by simpa using hlen, fun x hx => ?_, h⟩
    rcases List.mem_cons.1 hx with rfl | hx
    · exact hb
    · exact hq x hx
  | errorFlagged =>
    obtain ⟨q, y, rfl, hlen, hq, h⟩ := h
    refine ⟨b :: q, y, rfl, by simpa using hlen, fun x hx => ?_, h⟩
    rcases List.mem_cons.1 hx with rfl | hx
    · exact hb
    · exact hq x hx

/-- All a poll can do: it reads status bytes that `PollReads` allows and touches only `seq`, `s` and `n`. -/
theorem pollLoop_spec (p : Params) (ch : Channel) (c t e : Byte) (m : Nat) (r : Run) :
    ∃ l q s n, PollReads c t e m l (pollLoop p ch c t e m r).1 ∧
      Did r (statusEvents p ch l) (pollLoop p ch c t e m r).2 ∧
      (pollLoop p ch c t e m r).2.work = { r.work with seq := q, s := s, n := n } := by
  induction m generalizing r with
  | zero => exact ⟨[], _, _, _, ⟨rfl, by simp⟩, Did.refl r, rfl⟩
  | succ m ih =>
    simp only [pollLoop]
    set b := (statusRead .p3 p ch r).work.s with hb
    set r₁ : Run := { statusRead .p3 p ch r with
      work := { (statusRead .p3 p ch r).work with n := (statusRead .p3 p ch r).work.n + 1 } } with hr
    have d₁ : Did r (statusEvents p ch [b]) r₁ := (statusRead_did .p3 p ch r).setWork _
    split
    · rename_i he
      exact ⟨[b], _, _, _, ⟨[], b, rfl, by simp, by simp, (statusError_iff _ _).1 he⟩, d₁, rfl⟩
    · rename_i he
      have he' : b &&& e = 0#8 := not_not.1 fun h => he ((statusError_iff _ _).2 h)
      split
      · rename_i ho
        exact ⟨[b], _, _, _, ⟨[], b, rfl, by simp, by simp, he', (statusReady_iff _ _ _).1 ho⟩, d₁, rfl⟩
      · rename_i ho
        obtain ⟨l, q, s, n, hl, hd, hw⟩ := ih r₁
        refine ⟨b :: l, q, s, n, hl.cons ⟨he', fun h => ho ((statusReady_iff _ _ _).2 h)⟩, ?_, ?_⟩
        · rw [statusEvents_cons]; exact d₁.trans hd
        · rw [hw]; rfl

/-- All `poll` can do. -/
theorem poll_spec (p : Params) (ch : Channel) (c t e : Byte) (budget : Nat) (r : Run) :
    ∃ l q s n, PollReads c t e budget l (poll p ch c t e budget r).1 ∧
      Did r (statusEvents p ch l) (poll p ch c t e budget r).2 ∧
      (poll p ch c t e budget r).2.work = { r.work with seq := q, s := s, n := n } := by
  obtain ⟨l, q, s, n, hl, hd, hw⟩ := pollLoop_spec p ch c t e budget { r with work := { r.work with n := 0 } }
  exact ⟨l, q, s, n, hl, hd.fromWork, hw⟩

/-! ### The select settle (R120) -/

/-- The settle reads, whatever they return, touch only `seq`. -/
theorem settleReads_spec (p : Params) (ch : Channel) (m : Nat) (r : Run) :
    ∃ (vs : List Byte) (q : SeqStep), vs.length = m ∧ Did r (vs.map fun v => .r8 (p.port ch .altStatus) v) (settleReads p ch m r) ∧
      (settleReads p ch m r).work = { r.work with seq := q } := by
  induction m generalizing r with
  | zero => exact ⟨[], _, rfl, Did.refl r, rfl⟩
  | succ m ih =>
    obtain ⟨vs, q, hlen, hd, hw⟩ := ih (portRead8 .sp2 (p.port ch .altStatus) r).2
    exact ⟨_ :: vs, q, by simp [hlen], (portRead8_did .sp2 (p.port ch .altStatus) r).trans hd, by
      rw [settleReads, hw]; rfl⟩

theorem selectByte_eq (m : Bool) : selectByte m = if m then 0xA0#8 else 0xB0#8 := by cases m <;> rfl

/-- All `select_position` does: five port events; it touches only `seq`. -/
theorem selectPosition_spec (p : Params) (ch : Channel) (m : Bool) (r : Run) :
    ∃ vs q, vs.length = 4 ∧ Did r (selectEvents p ch m vs) (selectPosition p ch m r) ∧
      (selectPosition p ch m r).work = { r.work with seq := q } := by
  obtain ⟨vs, q, hlen, hd, hw⟩ := settleReads_spec p ch Config.settleReads (writeSelect .sp1 p ch (selectByte m) r)
  refine ⟨vs, q, hlen, ?_, hw⟩
  rw [selectEvents, ← selectByte_eq]
  exact (portWrite8_did .sp1 (p.port ch .deviceSelect) (selectByte m) r).trans hd

/-! ### The post-read settle (R176) -/

theorem drq_mask (s : Byte) : s &&& maskDrq = 0#8 ↔ flagDrq s = false := by
  revert s; decide

/-- All the settle loop can do with `m` reads left; it touches only `seq`, `s` and `t`. -/
theorem settleLoop_spec (p : Params) (ch : Channel) (m : Nat) (r : Run) :
    ∃ l q s t, ((∃ busy b, l = busy ++ [b] ∧ l.length ≤ m ∧ (∀ x ∈ busy, flagDrq x = true) ∧ flagDrq b = false) ∨
        (l.length = m ∧ ∀ x ∈ l, flagDrq x = true)) ∧
      Did r (statusEvents p ch l) (settleLoop p ch m r) ∧
      (settleLoop p ch m r).work = { r.work with seq := q, s := s, t := t } := by
  induction m generalizing r with
  | zero => exact ⟨[], _, _, _, .inr ⟨rfl, by simp⟩, Did.refl r, rfl⟩
  | succ m ih =>
    simp only [settleLoop]
    set b := (statusRead .ps3 p ch r).work.s with hb
    set r₁ : Run := { statusRead .ps3 p ch r with
      work := { (statusRead .ps3 p ch r).work with t := (statusRead .ps3 p ch r).work.t + 1 } } with hr
    have d₁ : Did r (statusEvents p ch [b]) r₁ := (statusRead_did .ps3 p ch r).setWork _
    split
    · rename_i he
      exact ⟨[b], _, _, _, .inl ⟨[], b, rfl, by simp, by simp, (drq_mask b).1 he⟩, d₁, rfl⟩
    · rename_i he
      have hset : flagDrq b = true := by simpa using fun h => he ((drq_mask b).2 h)
      obtain ⟨l, q, s, t, hl, hd, hw⟩ := ih r₁
      refine ⟨b :: l, q, s, t, ?_, ?_, by rw [hw]; rfl⟩
      · rcases hl with ⟨busy, y, rfl, hlen, hbusy, hy⟩ | ⟨hlen, hall⟩
        · exact .inl ⟨b :: busy, y, rfl, by simpa using hlen, by simpa [hset] using hbusy, hy⟩
        · exact .inr ⟨by simp [hlen], by simpa [hset] using hall⟩
      · rw [statusEvents_cons]; exact d₁.trans hd

/-- All `post_read_settle` can do: between 1 and 400 status reads, no failure. -/
theorem postReadSettle_spec (p : Params) (ch : Channel) (r : Run) :
    ∃ l q s t, SettleReads l ∧ Did r (statusEvents p ch l) (postReadSettle p ch r) ∧
      (postReadSettle p ch r).work = { r.work with seq := q, s := s, t := t } := by
  obtain ⟨l, q, s, t, hl, hd, hw⟩ :=
    settleLoop_spec p ch Config.postReadSettleMax { r with work := { r.work with t := 0 } }
  exact ⟨l, q, s, t, hl, hd.fromWork, hw⟩

end Sys2Proof.Machine
end

