-- ==== Sys2Proof/Laws/Transfer.lean ====
section
/-! SUPPORT. What the parts of a sector transfer do (44_sector_transfer): the setup writes, the words of a sector, and
the two loops over the sectors. -/
namespace Sys2Proof.Machine

/-! ### Setup (R172) -/

theorem transferSelectByte_eq (m : Bool) (lba : BitVec 32) :
    transferSelectByte m (lbaSelectNibble lba) =
      (if m then 0xE0#8 else 0xF0#8) ||| BitVec.ofNat 8 (lba.toNat / 2 ^ 24 % 16) := by
  have h : (lbaSelectNibble lba).setWidth 8 = BitVec.ofNat 8 (lba.toNat / 2 ^ 24 % 16) := by
    apply BitVec.eq_of_toNat_eq
    simp [lbaSelectNibble, Nat.shiftRight_eq_div_pow]
  cases m <;> simp [transferSelectByte, h]

theorem lbaLowByte_eq (lba : BitVec 32) : lbaLowByte lba = BitVec.ofNat 8 lba.toNat := by
  apply BitVec.eq_of_toNat_eq; simp [lbaLowByte]

theorem lbaMidByte_eq (lba : BitVec 32) : lbaMidByte lba = BitVec.ofNat 8 (lba.toNat / 2 ^ 8) := by
  apply BitVec.eq_of_toNat_eq; simp [lbaMidByte, Nat.shiftRight_eq_div_pow]

theorem lbaHiByte_eq (lba : BitVec 32) : lbaHiByte lba = BitVec.ofNat 8 (lba.toNat / 2 ^ 16) := by
  apply BitVec.eq_of_toNat_eq; simp [lbaHiByte, Nat.shiftRight_eq_div_pow]

/-- The setup makes the six writes of T1 to T4 and touches only `seq`. -/
theorem transferSetup_spec (p : Params) (ch : Channel) (m : Bool) (c : Command) (r : Run) :
    Did r (setupEvents p ch m c.byte r.work.lba r.work.cnt) (transferSetup p ch m c r) ∧
      (transferSetup p ch m c r).work = { r.work with seq := .t4 } := by
  refine ⟨?_, rfl⟩
  rw [setupEvents, ← transferSelectByte_eq, ← lbaLowByte_eq, ← lbaMidByte_eq, ← lbaHiByte_eq]
  exact (((((portWrite8_did .t1 _ _ r).trans (portWrite8_did .t2 _ _ _)).trans (portWrite8_did .t3 _ _ _)).trans
    (portWrite8_did .t3 _ _ _)).trans (portWrite8_did .t3 _ _ _)).trans (portWrite8_did .t4 _ _ _)

/-! ### The words of a sector (R173 step R5b, R174 step W5b) -/

/-- `m` words are read into the buffer from word `j` on; only `seq` and `j` are touched. -/
theorem readWords_spec (p : Params) (ch : Channel) (size m : Nat) (r : Run) :
    ∃ (ws : List Word) (q : SeqStep) (j : Nat), ws.length = m ∧
      Did r (readWordEvents (p.port ch .data) (r.work.buf + r.work.k * size) r.work.j ws) (readWords p ch size m r) ∧
      (readWords p ch size m r).work = { r.work with seq := q, j := j } := by
  induction m generalizing r with
  | zero => exact ⟨[], _, _, rfl, Did.refl r, rfl⟩
  | succ m ih =>
    let a := portRead16 .r5b (p.port ch .data) r
    let q := memWrite16 .r5b (wordAddress r.work.buf r.work.k size r.work.j) a.1 a.2
    let q' : Run := { q with work := { q.work with j := q.work.j + 1 } }
    obtain ⟨ws, s, j, hlen, hd, hw⟩ := ih q'
    refine ⟨a.1 :: ws, s, j, by simp [hlen], ?_, ?_⟩
    · have d₁ : Did r [.r16 (p.port ch .data) a.1] a.2 := portRead16_did _ _ _
      have d₂ : Did a.2 [.mw (wordAddress r.work.buf r.work.k size r.work.j) a.1] q' :=
        (memWrite16_did _ _ _ _).setWork _
      exact (d₁.trans d₂).trans hd
    · exact hw

/-- `m` words are written from the buffer from word `j` on; only `seq` and `j` are touched, and the buffer stays. -/
theorem writeWords_spec (p : Params) (ch : Channel) (size m : Nat) (r : Run) :
    ∃ (q : SeqStep) (j : Nat),
      Did r (writeWordEvents (p.port ch .data) (r.work.buf + r.work.k * size) r.mem r.work.j m)
        (writeWords p ch size m r) ∧
      (writeWords p ch size m r).work = { r.work with seq := q, j := j } ∧ (writeWords p ch size m r).mem = r.mem := by
  induction m generalizing r with
  | zero => exact ⟨_, _, Did.refl r, rfl, rfl⟩
  | succ m ih =>
    let a := memRead16 .w5b (wordAddress r.work.buf r.work.k size r.work.j) r
    let q := portWrite16 .w5b (p.port ch .data) a.1 a.2
    let q' : Run := { q with work := { q.work with j := q.work.j + 1 } }
    obtain ⟨s, j, hd, hw, hm⟩ := ih q'
    refine ⟨s, j, ?_, hw, hm⟩
    have d₁ : Did r [.mr (wordAddress r.work.buf r.work.k size r.work.j)
        (Memory.readWord r.mem (wordAddress r.work.buf r.work.k size r.work.j))] a.2 := memRead16_did _ _ _
    have d₂ : Did a.2 [.w16 (p.port ch .data) a.1] q' := (portWrite16_did _ _ _ _).setWork _
    exact (d₁.trans d₂).trans hd

/-- A trace of status reads leaves the buffer alone. -/
@[simp] theorem replay_statusEvents (p : Params) (ch : Channel) (l : List Byte) (m : Memory) :
    replay (statusEvents p ch l) m = m := by
  induction l with
  | nil => rfl
  | cons b l ih => rw [statusEvents_cons, replay_append]; exact ih

/-! ### The loops over the sectors -/

/-- The poll of a transfer. -/
theorem transferPoll_spec (p : Params) (ch : Channel) (r : Run) :
    ∃ l q s n, PollReads 0x80#8 0x08#8 0x21#8 p.pollBudget l (transferPoll p ch r).1 ∧
      Did r (statusEvents p ch l) (transferPoll p ch r).2 ∧
      (transferPoll p ch r).2.work = { r.work with seq := q, s := s, n := n } :=
  poll_spec p ch maskBsy maskDrq (maskErr ||| maskDf) p.pollBudget r

/-- One sector read: `size / 2` words and a settle; the registers `cnt` and `buf` stay and `k` moves on. -/
theorem readSector_spec (p : Params) (ch : Channel) (size : Nat) (r : Run) :
    ∃ (ws : List Word) (l : List Byte), ws.length = size / 2 ∧ SettleReads l ∧
      Did r (readWordEvents (p.port ch .data) (r.work.buf + r.work.k * size) 0 ws ++ statusEvents p ch l)
        (readSector p ch size r) ∧
      (readSector p ch size r).work.cnt = r.work.cnt ∧ (readSector p ch size r).work.buf = r.work.buf ∧
      (readSector p ch size r).work.k = r.work.k + 1 := by
  obtain ⟨ws, q, j, hlen, hd, hw⟩ := readWords_spec p ch size (sectorWords size) r.firstWord
  obtain ⟨l, q', s, t, hl, hd', hw'⟩ :=
    postReadSettle_spec p ch (readWords p ch size (sectorWords size) r.firstWord)
  rw [hw] at hw'
  refine ⟨ws, l, hlen, hl, (hd.fromWork.trans hd').setWork _, ?_, ?_, ?_⟩ <;>
    simp only [readSector, Run.nextSector, hw'] <;> rfl

/-- The buffer of a write trace is the one it started with. -/
theorem replay_writeWordEvents (port base : Nat) (mem m : Memory) (j n : Nat) :
    replay (writeWordEvents port base mem j n) m = m := by
  induction n generalizing j with
  | zero => rfl
  | succ n ih => exact ih (j + 1)

/-- One sector written: `size / 2` words, the flush and its wait; the buffer and the registers `cnt`, `buf` and `k`
stay. The wait flags no error, its error mask being empty. -/
theorem writeSector_spec (p : Params) (ch : Channel) (size : Nat) (r : Run) :
    ∃ l : List Byte, PollReads 0x80#8 0#8 0#8 p.flushBudget l (writeSector p ch size r).1 ∧
      (writeSector p ch size r).1 ≠ .errorFlagged ∧
      Did r (writeWordEvents (p.port ch .data) (r.work.buf + r.work.k * size) r.mem 0 (size / 2) ++
        [.w8 (p.port ch .command) 0xE7#8] ++ statusEvents p ch l) (writeSector p ch size r).2 ∧
      (writeSector p ch size r).2.mem = r.mem ∧
      (writeSector p ch size r).2.work.cnt = r.work.cnt ∧ (writeSector p ch size r).2.work.buf = r.work.buf ∧
      (writeSector p ch size r).2.work.k = r.work.k := by
  obtain ⟨q, j, hd, hw, hm⟩ := writeWords_spec p ch size (sectorWords size) r.firstWord
  have hd' := portWrite8_did .f1 (p.port ch .command) Command.flushCache.byte
    (writeWords p ch size (sectorWords size) r.firstWord)
  obtain ⟨l, q', s, n, hl, hd'', hw'⟩ := poll_spec p ch maskBsy 0#8 0#8 p.flushBudget
    (writeCommand .f1 p ch .flushCache (writeWords p ch size (sectorWords size) r.firstWord))
  have hall := (hd.fromWork.trans hd').trans hd''
  have hwork : (writeSector p ch size r).2.work = _ := hw'
  simp only [writeCommand, portWrite8_work, hw] at hwork
  refine ⟨l, hl, fun h => ?_, hall, ?_, ?_, ?_, ?_⟩
  · have hl' : PollReads _ _ _ _ l (writeSector p ch size r).1 := hl
    rw [h] at hl'
    obtain ⟨-, b, -, -, -, hb⟩ := hl'
    simp at hb
  · have h := hall.mem
    simp only [replay_append, replay_writeWordEvents, replay_statusEvents] at h
    exact h
  all_goals rw [hwork]; rfl

/-- The read loop follows R173 with `m` sectors left; it reads the registers `buf`, `k` and `cnt`. -/
theorem readLoop_spec (p : Params) (ch : Channel) (size m : Nat) (r : Run)
    (hcnt : r.work.cnt.toNat = r.work.k + m) :
    ∃ evs, ReadTrace p ch size r.work.buf r.work.k m evs (readLoop p ch size m r).1 ∧
      Did r evs (readLoop p ch size m r).2 := by
  induction m generalizing r with
  | zero =>
    refine ⟨[], ?_, Did.refl r⟩
    simp only [readLoop]
    rw [show r.work.cnt.toNat = r.work.k from hcnt]
    exact .done _
  | succ m ih =>
    obtain ⟨l, q, s, n, hl, hd, hw⟩ := transferPoll_spec p ch r
    simp only [readLoop]
    split
    · rename_i ho
      rw [ho] at hl
      rw [hw]
      exact ⟨_, .pollError _ _ _ hl, hd⟩
    · rename_i ho
      rw [ho] at hl
      rw [hw]
      exact ⟨_, .pollTimeout _ _ _ hl, hd⟩
    · rename_i ho
      rw [ho] at hl
      obtain ⟨ws, l', hlen, hl', hd', hc, hb, hk⟩ := readSector_spec p ch size (transferPoll p ch r).2
      simp only [hw] at hc hb hk hd'
      obtain ⟨evs, ht, hd''⟩ := ih (readSector p ch size (transferPoll p ch r).2) (by rw [hc, hk]; omega)
      rw [hb, hk] at ht
      refine ⟨_, .sector _ _ l l' ws evs _ hl hlen hl' ht, ?_⟩
      have h := (hd.trans hd').trans hd''
      simpa only [List.append_assoc] using h

/-- The write loop follows R174 with `m` sectors left. -/
theorem writeLoop_spec (p : Params) (ch : Channel) (size m : Nat) (r : Run)
    (hcnt : r.work.cnt.toNat = r.work.k + m) :
    ∃ evs, WriteTrace p ch size r.work.buf r.mem r.work.k m evs (writeLoop p ch size m r).1 ∧
      Did r evs (writeLoop p ch size m r).2 := by
  induction m generalizing r with
  | zero =>
    refine ⟨[], ?_, Did.refl r⟩
    simp only [writeLoop]
    rw [show r.work.cnt.toNat = r.work.k from hcnt]
    exact .done _
  | succ m ih =>
    obtain ⟨l, q, s, n, hl, hd, hw⟩ := transferPoll_spec p ch r
    simp only [writeLoop]
    split
    · rename_i ho
      rw [ho] at hl
      rw [hw]
      exact ⟨_, .pollError _ _ _ hl, hd⟩
    · rename_i ho
      rw [ho] at hl
      rw [hw]
      exact ⟨_, .pollTimeout _ _ _ hl, hd⟩
    · rename_i ho
      rw [ho] at hl
      have hm : (transferPoll p ch r).2.mem = r.mem := by rw [hd.mem]; simp
      obtain ⟨l', hl', he, hd', hm', hc, hb, hk⟩ := writeSector_spec p ch size (transferPoll p ch r).2
      rw [hm] at hm'
      simp only [hw, hm] at hc hb hk hd'
      have hall := hd.trans hd'
      split
      · rename_i hf
        rw [hf] at hl'
        rw [hk]
        refine ⟨_, .flushTimeout _ _ l l' hl hl', ?_⟩
        simpa only [List.append_assoc] using hall
      · rename_i hf
        obtain ⟨evs, ht, hd''⟩ := ih (writeSector p ch size (transferPoll p ch r).2).2.nextSector
          (by simp only [Run.nextSector, hc, hk]; omega)
        have hb' : (writeSector p ch size (transferPoll p ch r).2).2.nextSector.work.buf = r.work.buf := hb
        have hk' : (writeSector p ch size (transferPoll p ch r).2).2.nextSector.work.k = r.work.k + 1 :=
          congrArg (· + 1) hk
        have hn : (writeSector p ch size (transferPoll p ch r).2).2.nextSector.mem = r.mem := hm'
        rw [hb', hk', hn] at ht
        have hready : (writeSector p ch size (transferPoll p ch r).2).1 = .ready := by
          revert he hf
          cases (writeSector p ch size (transferPoll p ch r).2).1 <;> simp
        rw [hready] at hl'
        refine ⟨_, .sector _ _ l l' evs _ hl hl' ht, ?_⟩
        have h := hall.trans hd''.fromWork
        simpa only [List.append_assoc] using h

end Sys2Proof.Machine
end

