-- ==== Sys2Proof/Laws/Identification.lean ====
section
/-! SUPPORT. What IDENTIFY and the probe of one position do (42_identification_and_probe R130, R133). -/
namespace Sys2Proof.Machine

/-! ### IDENTIFY (R130) -/

theorem zeroRegisters_did (p : Params) (ch : Channel) (r : Run) :
    Did r [.w8 (p.port ch .sectorCount) 0#8, .w8 (p.port ch .lbaLow) 0#8, .w8 (p.port ch .lbaMid) 0#8,
      .w8 (p.port ch .lbaHi) 0#8] (zeroRegisters p ch r) :=
  (((portWrite8_did .i2 _ _ r).trans (portWrite8_did .i2 _ _ _)).trans (portWrite8_did .i2 _ _ _)).trans
    (portWrite8_did .i2 _ _ _)

/-- Steps I1 to I4: the eleven events; `seq` and `s` are touched. -/
theorem identifyHead_spec (p : Params) (ch : Channel) (m : Bool) (r : Run) :
    ∃ vs, vs.length = 4 ∧
      Did r (identifyHeadEvents p ch m vs (identifyHead p ch m r).work.s) (identifyHead p ch m r) ∧
      (identifyHead p ch m r).work.pos = r.work.pos := by
  obtain ⟨vs, q, hlen, hd, hw⟩ := selectPosition_spec p ch m r
  refine ⟨vs, hlen, ?_, ?_⟩
  · have h := ((hd.trans (zeroRegisters_did p ch _)).trans
      (portWrite8_did .i3 (p.port ch .command) Command.identify.byte _)).trans (statusRead_did .i4 p ch _)
    rw [List.append_assoc, List.append_assoc] at h
    exact h
  · have h : (identifyHead p ch m r).work.pos = (selectPosition p ch m r).work.pos := rfl
    rw [h, hw]

/-- Step I6: the two reads of the signature. -/
theorem readSignature_did (p : Params) (ch : Channel) (r : Run) :
    Did r (signatureEvents p ch (readSignature p ch r).work.mid (readSignature p ch r).work.hi)
      (readSignature p ch r) :=
  ((portRead8_did .i6 (p.port ch .lbaMid) r).setWork _).trans ((portRead8_did .i6 (p.port ch .lbaHi) _).setWork _)

/-- Step I8: `m` words are read into `w` from index `j` on. -/
theorem identifyWords_spec (p : Params) (ch : Channel) (m : Nat) (r : Run) :
    ∃ vs : List Word, vs.length = m ∧
      Did r (vs.map fun v => .r16 (p.port ch .data) v) (identifyWords p ch m r) ∧
      (identifyWords p ch m r).work.pos = r.work.pos ∧
      (∀ i (h : i < 256), i < r.work.j → (identifyWords p ch m r).work.w[i] = r.work.w[i]) ∧
      ∀ i (h : i < vs.length) (h' : r.work.j + i < 256),
        (identifyWords p ch m r).work.w[r.work.j + i] = vs[i] := by
  induction m generalizing r with
  | zero => exact ⟨[], rfl, Did.refl r, rfl, fun _ _ _ => rfl, fun i h => absurd h (by simp)⟩
  | succ m ih =>
    let q := (portRead16 .i8 (p.port ch .data) r).2.storeIdentifyWord (portRead16 .i8 (p.port ch .data) r).1
    have hq : identifyWords p ch (m + 1) r = identifyWords p ch m q := rfl
    have hj : q.work.j = r.work.j + 1 := rfl
    have hs : q.work.w = r.work.w.setIfInBounds r.work.j (portRead16 .i8 (p.port ch .data) r).1 := rfl
    obtain ⟨vs, hlen, hd, hp, hlow, hhigh⟩ := ih q
    refine ⟨(portRead16 .i8 (p.port ch .data) r).1 :: vs, by simp [hlen],
      ((portRead16_did .i8 (p.port ch .data) r).setWork _).trans hd, hp, ?_, ?_⟩
    · intro i h hi
      simp only [hq]
      rw [hlow i h (by omega)]
      simp only [hs]
      rw [Vector.getElem_setIfInBounds_ne h (by omega)]
    · intro i h h'
      simp only [hq]
      cases i with
      | zero =>
        rw [hlow _ h' (by omega)]
        simp [hs]
      | succ i =>
        have := hhigh i (by simpa using h) (by omega)
        simp only [hj, Nat.add_assoc, Nat.add_comm 1] at this
        simpa using this

/-- The 256 words of step I8, from index 0. -/
theorem identifyWords_all (p : Params) (ch : Channel) (r : Run) (hj : r.work.j = 0) :
    Did r ((identifyWords p ch Config.wordsIdentify r).work.w.toList.map fun v => .r16 (p.port ch .data) v)
        (identifyWords p ch Config.wordsIdentify r) ∧
      (identifyWords p ch Config.wordsIdentify r).work.pos = r.work.pos := by
  obtain ⟨vs, hlen, hd, hp, -, hw⟩ := identifyWords_spec p ch Config.wordsIdentify r
  have h : (identifyWords p ch Config.wordsIdentify r).work.w.toList = vs := by
    apply List.ext_getElem
    · simp [hlen, Config.wordsIdentify]
    · intro i h₁ h₂
      have := hw i h₂ (by rw [hj]; simp only [Config.wordsIdentify] at hlen; omega)
      simp only [hj, Nat.zero_add] at this
      simpa using this
  rw [h]
  exact ⟨hd, hp⟩

/-- All IDENTIFY can do; the register `pos` stays. -/
theorem identify_spec (p : Params) (ch : Channel) (m : Bool) (r : Run) :
    ∃ evs, IdentifyTrace p ch m evs (identify p ch m r).1 ∧ Did r evs (identify p ch m r).2 ∧
      (identify p ch m r).2.work.pos = r.work.pos := by
  obtain ⟨vs, hvs, dh, hp⟩ := identifyHead_spec p ch m r
  simp only [identify]
  set h := identifyHead p ch m r
  split
  · rename_i h0
    rw [h0] at dh
    exact ⟨_, .absent vs hvs, dh, hp⟩
  · rename_i h0
    obtain ⟨l, q, s, n, hl, dl, hw⟩ := poll_spec p ch maskBsy 0#8 maskErr p.pollBudget h
    have hp₁ : (poll p ch maskBsy 0#8 maskErr p.pollBudget h).2.work.pos = r.work.pos := by rw [hw, ← hp]
    split
    · rename_i ho
      rw [ho] at hl
      have ds := readSignature_did p ch (poll p ch maskBsy 0#8 maskErr p.pollBudget h).2
      set g := readSignature p ch (poll p ch maskBsy 0#8 maskErr p.pollBudget h).2 with hg
      have hp₂ : g.work.pos = r.work.pos := hp₁
      have d₂ := (dh.trans dl).trans ds
      split
      · rename_i hm
        exact ⟨_, .otherKind vs l _ _ _ hvs h0 hl hm, d₂, hp₂⟩
      · rename_i hm
        obtain ⟨hmid, hhi⟩ : g.work.mid = 0#8 ∧ g.work.hi = 0#8 := by simpa using hm
        rw [hmid, hhi] at d₂
        obtain ⟨l', q', s', n', hl', dl', hw'⟩ := poll_spec p ch 0#8 maskDrq maskErr p.pollBudget g
        have hp₃ : (poll p ch 0#8 maskDrq maskErr p.pollBudget g).2.work.pos = r.work.pos := by rw [hw', ← hp₂]
        simp only [identifyTail]
        split
        · rename_i ho'
          rw [ho'] at hl'
          obtain ⟨dw, hpw⟩ := identifyWords_all p ch
            { (poll p ch 0#8 maskDrq maskErr p.pollBudget g).2 with
              work := { (poll p ch 0#8 maskDrq maskErr p.pollBudget g).2.work with j := 0 } } rfl
          have dw' := Did.fromWork (r := (poll p ch 0#8 maskDrq maskErr p.pollBudget g).2) dw
          have dall := (d₂.trans dl').trans dw'
          have hpos := hpw.trans hp₃
          generalize identifyWords p ch Config.wordsIdentify _ = t at dall hpos ⊢
          exact ⟨_, .found vs l l' _ t.work.w hvs h0 hl hl', dall, hpos⟩
        · rename_i ho'
          rw [ho'] at hl'
          exact ⟨_, .noData vs l l' _ .errorFlagged hvs h0 (by simp) hl hl', d₂.trans dl', hp₃⟩
        · rename_i ho'
          rw [ho'] at hl'
          exact ⟨_, .noData vs l l' _ .timedOut hvs h0 (by simp) hl hl', d₂.trans dl', hp₃⟩
    · rename_i ho
      rw [ho] at hl
      exact ⟨_, .busy vs l _ .errorFlagged hvs h0 (by simp) hl, dh.trans dl, hp₁⟩
    · rename_i ho
      rw [ho] at hl
      exact ⟨_, .busy vs l _ .timedOut hvs h0 (by simp) hl, dh.trans dl, hp₁⟩

end Sys2Proof.Machine
end

