-- ==== Sys2Proof/Laws/Requests.lean ====
section
/-! SUPPORT. A request from acceptance to delivery: when it is answered, and what the operations on the whole state do.
`State.Acts` is `Did` for the whole state. -/
namespace Sys2Proof.Machine

/-- From `s`, the accesses `evs` were made, every read answered as `consistent` says; `t` is the result. Beside what the
accesses change, only the working registers and the engine state (R10) may differ; which of those do, a lemma about the
operation says. -/
structure State.Acts (s : State) (evs : List Event) (t : State) : Prop where
  answered : consistent evs s.answers s.mem = true
  result : t =
    { s with
      mem := replay evs s.mem
      log := evs.reverse ++ s.log
      answers := s.answers.drop (evs.countP Event.isPortRead)
      accesses := s.accesses + evs.countP Event.isPort
      work := t.work
      dev := t.dev
      selected := t.selected
      initDone := t.initDone }

theorem State.Acts.refl (s : State) : s.Acts [] s := ⟨rfl, by simp [replay]⟩

theorem State.Acts.trans {s t u : State} {e f : List Event} (h : s.Acts e t) (g : t.Acts f u) : s.Acts (e ++ f) u := by
  obtain ⟨h₁, h₂⟩ := h
  obtain ⟨g₁, g₂⟩ := g
  have hm : t.mem = replay e s.mem := by rw [h₂]
  have ha : t.answers = s.answers.drop (e.countP Event.isPortRead) := by rw [h₂]
  refine ⟨?_, ?_⟩
  · rw [consistent_append, h₁, ← ha, ← hm, g₁]; rfl
  · rw [g₂, h₂]
    simp [Nat.add_assoc]

/-- An operation on the view of a request in progress. -/
theorem State.acts_withRun {s : State} {evs : List Event} {q : Run} (h : Did s.run evs q) :
    s.Acts evs (s.withRun q) :=
  ⟨h.answered, by rw [h.result]; rfl⟩

/-- Engine state written makes no access. -/
theorem State.Acts.set {s t : State} {evs : List Event} (h : s.Acts evs t) (w : Option Work) (dev : List Device)
    (sel : Selected) (b : Bool) :
    s.Acts evs { t with work := w, dev := dev, selected := sel, initDone := b } :=
  ⟨h.answered, by conv_lhs => rw [h.result]⟩

theorem State.Acts.params {s t : State} {evs : List Event} (h : s.Acts evs t) : t.params = s.params := by rw [h.result]
theorem State.Acts.stall {s t : State} {evs : List Event} (h : s.Acts evs t) : t.stall = s.stall := by rw [h.result]
theorem State.Acts.mem {s t : State} {evs : List Event} (h : s.Acts evs t) : t.mem = replay evs s.mem := by
  rw [h.result]
theorem State.Acts.answers {s t : State} {evs : List Event} (h : s.Acts evs t) :
    t.answers = s.answers.drop (evs.countP Event.isPortRead) := by rw [h.result]
theorem State.Acts.accesses {s t : State} {evs : List Event} (h : s.Acts evs t) :
    t.accesses = s.accesses + evs.countP Event.isPort := by rw [h.result]

/-! ### When a request is answered -/

theorem State.refusal_none {s : State} :
    s.refusal = none ↔ s.phase = .idle ∧ s.params.wf = true ∧ s.registryKnown = true := by
  simp only [State.refusal]
  split_ifs <;> simp_all

theorem State.Ready.refusal {s : State} (h : s.Ready) : s.refusal = none :=
  State.refusal_none.2 ⟨h.idle, h.params, h.known⟩

/-- A ready engine answers every request. -/
theorem perform_ready {s : State} (h : s.Ready) (op : Instr) (body : State → Result × State) :
    perform op body s = .next ((body (s.accept op)).2.deliver (body (s.accept op)).1) := by
  simp [perform, h.refusal, conclude, h.completes]

/-- A next state is what was delivered. -/
theorem conclude_next {s t u : State} {res : Result} (h : conclude s res t = .next u) : u = t.deliver res := by
  simp only [conclude] at h
  split at h
  · simpa using h.symm
  · split at h
    · cases h
    · simpa using h.symm

/-- A request that gave a next state was answered. -/
theorem perform_next {op : Instr} {body : State → Result × State} {s t : State} (h : perform op body s = .next t) :
    s.refusal = none ∧ t = (body (s.accept op)).2.deliver (body (s.accept op)).1 := by
  simp only [perform] at h
  split at h
  · cases h
  · exact ⟨‹_›, conclude_next h⟩

/-- An unknown request code that gave a next state was answered with the error of R81 (a). -/
theorem answerUnknownRequest_next {s t : State} (h : answerUnknownRequest s = .next t) :
    s.refusal = none ∧ t = s.deliver (.err .invalidArgument 0) := by
  simp only [answerUnknownRequest] at h
  split at h
  · cases h
  · exact ⟨‹_›, conclude_next h⟩

/-- What is delivered after a request that made the accesses `evs`. -/
theorem State.Acts.deliver {s t : State} {op : Instr} {evs : List Event} (h : (s.accept op).Acts evs t)
    (hp : s.phase = .idle) (res : Result) :
    t.deliver res =
      { s.afterEvents evs res with dev := t.dev, selected := t.selected, initDone := t.initDone } := by
  conv_lhs => rw [h.result]
  simp [State.deliver, State.accept, State.afterEvents, hp]

/-- A request that works on the view of its own and writes no engine state. -/
theorem perform_runWith {s : State} (h : s.Ready) (op : Instr) (f : State → Run → Result × Run) {evs : List Event}
    (hd : Did (s.accept op).run evs (f (s.accept op) (s.accept op).run).2) :
    perform op (fun t => t.runWith (f t)) s =
      .next (s.afterEvents evs (f (s.accept op) (s.accept op).run).1) := by
  rw [perform_ready h]
  have ha := State.acts_withRun hd
  exact congrArg _ (ha.deliver h.idle _)

/-- A request that raises at once (R225). -/
theorem perform_raise {s : State} (h : s.Ready) (op : Instr) (kind : ErrorKind) (n : Nat) :
    perform op (raiseError kind n) s = .next (s.afterEvents [] (.err kind n)) := by
  rw [perform_ready h]
  exact congrArg _ ((State.Acts.refl (s.accept op)).deliver h.idle _)

/-! ### SELECT and ENSURE_SELECTED (R121, R122) -/

/-- SELECT of a populated slot. -/
theorem selectDevice_some {s : State} {id : Nat} {d : Device} (hd : s.dev[id]? = some d) :
    ∃ vs, vs.length = 4 ∧ (selectDevice id s).1 = .nothing ∧
      s.Acts (selectEvents s.params (s.params.channelOf d) d.isMaster vs) (selectDevice id s).2 ∧
      (selectDevice id s).2.dev = s.dev ∧ (selectDevice id s).2.selected = .device id ∧
      (selectDevice id s).2.initDone = s.initDone := by
  obtain ⟨vs, q, hlen, h, -⟩ := selectPosition_spec s.params (s.params.channelOf d) d.isMaster s.run
  have he : selectDevice id s = (.nothing,
      { s.withRun (selectPosition s.params (s.params.channelOf d) d.isMaster s.run) with selected := .device id }) := by
    simp only [selectDevice, hd]
  rw [he]
  exact ⟨vs, hlen, rfl, (State.acts_withRun h).set _ _ _ _, rfl, rfl, rfl⟩

/-- SELECT of anything else: nothing but an error. -/
theorem selectDevice_none {s : State} {id : Nat} (hd : s.dev[id]? = none) :
    selectDevice id s = (.err .invalidArgument 0, s) := by
  simp [selectDevice, hd, raiseError]

/-- ENSURE_SELECTED of a populated slot: no event if it is the selected one, else SELECT's. -/
theorem ensureSelected_some {s : State} {id : Nat} {d : Device} (hd : s.dev[id]? = some d) :
    ∃ vs, vs.length = 4 ∧
      s.Acts (if s.selected = .device id then []
        else selectEvents s.params (s.params.channelOf d) d.isMaster vs) (ensureSelected id s).2 ∧
      (ensureSelected id s).2.dev = s.dev ∧ (ensureSelected id s).2.selected = .device id ∧
      (ensureSelected id s).2.initDone = s.initDone := by
  by_cases hs : s.selected = .device id
  · rw [ensureSelected, if_pos hs]
    exact ⟨[0, 0, 0, 0], rfl, by rw [if_pos hs]; exact State.Acts.refl s, rfl, hs, rfl⟩
  · rw [ensureSelected, if_neg hs]
    obtain ⟨vs, hlen, -, h, h₁, h₂, h₃⟩ := selectDevice_some hd
    exact ⟨vs, hlen, by rw [if_neg hs]; exact h, h₁, h₂, h₃⟩

/-! ### Transfers (R173, R174) -/

/-- A read whose checks have passed. -/
theorem readTransfer_spec (p : Params) (d : Device) (lba : BitVec 32) (cnt : Byte) (out : Nat) (r : Run) :
    ∃ evs, ReadTrace p (p.channelOf d) d.logicalSectorSize.toNat out 0 cnt.toNat evs
        (readTransfer p d lba cnt out r).1 ∧
      Did r (setupEvents p (p.channelOf d) d.isMaster 0x20#8 lba cnt ++ evs) (readTransfer p d lba cnt out r).2 := by
  obtain ⟨hd, hw⟩ := transferSetup_spec p (p.channelOf d) d.isMaster .readSectors (r.loadTransfer lba cnt out)
  obtain ⟨evs, ht, hd'⟩ := readLoop_spec p (p.channelOf d) d.logicalSectorSize.toNat cnt.toNat
    (transferSetup p (p.channelOf d) d.isMaster .readSectors (r.loadTransfer lba cnt out)) (by
      rw [hw]; exact (Nat.zero_add _).symm)
  rw [hw] at ht
  exact ⟨evs, ht, Did.fromWork (hd.trans hd')⟩

/-- A write whose checks have passed; the buffer is read, not written. -/
theorem writeTransfer_spec (p : Params) (d : Device) (lba : BitVec 32) (cnt : Byte) (data : Nat) (r : Run) :
    ∃ evs, WriteTrace p (p.channelOf d) d.logicalSectorSize.toNat data r.mem 0 cnt.toNat evs
        (writeTransfer p d lba cnt data r).1 ∧
      Did r (setupEvents p (p.channelOf d) d.isMaster 0x30#8 lba cnt ++ evs) (writeTransfer p d lba cnt data r).2 := by
  obtain ⟨hd, hw⟩ := transferSetup_spec p (p.channelOf d) d.isMaster .writeSectors (r.loadTransfer lba cnt data)
  obtain ⟨evs, ht, hd'⟩ := writeLoop_spec p (p.channelOf d) d.logicalSectorSize.toNat cnt.toNat
    (transferSetup p (p.channelOf d) d.isMaster .writeSectors (r.loadTransfer lba cnt data)) (by
      rw [hw]; exact (Nat.zero_add _).symm)
  rw [hw] at ht
  exact ⟨evs, ht, Did.fromWork (hd.trans hd')⟩

/-- READ_SECTORS as an operation on the whole state. -/
theorem readSectors_acts {s : State} {device : Nat} {lba : BitVec 32} {cnt : Byte} {d : Device}
    (hc : transferChecks s.dev device lba cnt = .ok d) (out : Nat) :
    ∃ evs, ReadTrace s.params (s.params.channelOf d) d.logicalSectorSize.toNat out 0 cnt.toNat evs
        (readSectors device lba cnt out s).1 ∧
      s.Acts (setupEvents s.params (s.params.channelOf d) d.isMaster 0x20#8 lba cnt ++ evs)
        (readSectors device lba cnt out s).2 ∧
      (readSectors device lba cnt out s).2.dev = s.dev ∧
      (readSectors device lba cnt out s).2.selected = s.selected ∧
      (readSectors device lba cnt out s).2.initDone = s.initDone := by
  simp only [readSectors, hc]
  obtain ⟨evs, ht, hd⟩ := readTransfer_spec s.params d lba cnt out s.run
  exact ⟨evs, ht, State.acts_withRun hd, rfl, rfl, rfl⟩

/-- WRITE_SECTORS as an operation on the whole state. -/
theorem writeSectors_acts {s : State} {device : Nat} {lba : BitVec 32} {cnt : Byte} {d : Device}
    (hc : transferChecks s.dev device lba cnt = .ok d) (data : Nat) :
    ∃ evs, WriteTrace s.params (s.params.channelOf d) d.logicalSectorSize.toNat data s.mem 0 cnt.toNat evs
        (writeSectors device lba cnt data s).1 ∧
      s.Acts (setupEvents s.params (s.params.channelOf d) d.isMaster 0x30#8 lba cnt ++ evs)
        (writeSectors device lba cnt data s).2 ∧
      (writeSectors device lba cnt data s).2.dev = s.dev ∧
      (writeSectors device lba cnt data s).2.selected = s.selected ∧
      (writeSectors device lba cnt data s).2.initDone = s.initDone := by
  simp only [writeSectors, hc]
  obtain ⟨evs, ht, hd⟩ := writeTransfer_spec s.params d lba cnt data s.run
  exact ⟨evs, ht, State.acts_withRun hd, rfl, rfl, rfl⟩

/-- What READ_SECTORS and WRITE_SECTORS' checks let through (R171). -/
theorem transferChecks_ok {dev : List Device} {device : Nat} {lba : BitVec 32} {cnt : Byte} {d : Device} :
    transferChecks dev device lba cnt = .ok d ↔
      lbaTopNibble lba = 0 ∧ dev[device]? = some d ∧ cnt ≠ 0 ∧ badSectorSize d.logicalSectorSize = false := by
  simp only [transferChecks]
  constructor
  · intro h
    split at h
    · cases h
    · rename_i h₁
      split at h
      · cases h
      · rename_i e hd
        split at h
        · cases h
        · rename_i h₂
          split at h
          · cases h
          · rename_i h₃
            cases h
            exact ⟨not_not.1 h₁, hd, h₂, by simpa using h₃⟩
  · rintro ⟨h₁, h₂, h₃, h₄⟩
    simp [h₁, h₂, show ¬cnt = 0#8 from h₃, h₄]

/-- What READ and WRITE's checks let through, and the translation (R202, R204). -/
theorem entryChecks_ok {dev : List Device} {id : Nat} {off size : BitVec 64} {lba : BitVec 32} {cnt : Byte}
    (h : entryChecks dev id off size = .ok (lba, cnt)) :
    ∃ d, dev[id]? = some d ∧ transferChecks dev id lba cnt = .ok d ∧
      off.toNat = lba.toNat * d.logicalSectorSize.toNat ∧ size.toNat = cnt.toNat * d.logicalSectorSize.toNat := by
  simp only [entryChecks] at h
  split at h
  · cases h
  · rename_i d hd
    split at h
    · cases h
    · rename_i h₂
      split at h
      · cases h
      · rename_i h₃
        split at h
        · cases h
        · rename_i h₄
          split at h
          · cases h
          · rename_i h₅
            simp only [Except.ok.injEq, Prod.mk.injEq] at h
            obtain ⟨rfl, rfl⟩ := h
            simp only [not_or, not_not, not_le] at h₃ h₄ h₅
            have hq : (BitVec.ofNat 32 (off.toNat / d.logicalSectorSize.toNat)).toNat =
                off.toNat / d.logicalSectorSize.toNat := by
              rw [BitVec.toNat_ofNat, Nat.mod_eq_of_lt (h₄.trans (by decide))]
            have hc : (BitVec.ofNat 8 (size.toNat / d.logicalSectorSize.toNat)).toNat =
                size.toNat / d.logicalSectorSize.toNat := by
              rw [BitVec.toNat_ofNat, Nat.mod_eq_of_lt (by omega)]
            refine ⟨d, hd, transferChecks_ok.2 ⟨?_, hd, ?_, by simpa using h₂⟩, ?_, ?_⟩
            · apply BitVec.eq_of_toNat_eq
              rw [lbaTopNibble, BitVec.extractLsb'_toNat, hq, Nat.shiftRight_eq_div_pow, Nat.div_eq_of_lt h₄]
              rfl
            · intro h0
              rw [h0] at hc
              exact h₅.1 hc.symm
            · rw [hq, Nat.div_mul_cancel (Nat.dvd_of_mod_eq_zero h₃.1)]
            · rw [hc, Nat.div_mul_cancel (Nat.dvd_of_mod_eq_zero h₃.2)]

/-! ### Probing (R133) -/

/-- One position probed: IDENTIFY's accesses there, and a record if something answered. -/
theorem probePosition_acts (s : State) :
    ∃ evs found, IdentifyTrace s.params (positionChannel s.run.work.pos) (positionIsMaster s.run.work.pos) evs found ∧
      s.Acts evs (probePosition s) ∧
      (probePosition s).dev =
        appendFound s.params (positionChannel s.run.work.pos) (positionIsMaster s.run.work.pos) found s.dev ∧
      (probePosition s).selected = s.selected ∧ (probePosition s).initDone = s.initDone ∧
      (probePosition s).run.work.pos = s.run.work.pos + 1 := by
  obtain ⟨evs, ht, hd, hp⟩ :=
    identify_spec s.params (positionChannel s.run.work.pos) (positionIsMaster s.run.work.pos) s.run
  refine ⟨evs, _, ht, (State.acts_withRun (hd.setWork _)).set _ _ _ _, rfl, rfl, rfl, ?_⟩
  exact congrArg (· + 1) hp

/-- The four positions probed in the order of R85. -/
theorem probePositions_acts (s : State) :
    ∃ e₀ e₁ e₂ e₃ f₀ f₁ f₂ f₃,
      IdentifyTrace s.params .primary true e₀ f₀ ∧ IdentifyTrace s.params .primary false e₁ f₁ ∧
      IdentifyTrace s.params .secondary true e₂ f₂ ∧ IdentifyTrace s.params .secondary false e₃ f₃ ∧
      s.Acts (e₀ ++ e₁ ++ e₂ ++ e₃) (probePositions s) ∧
      (probePositions s).dev =
        appendFound s.params .secondary false f₃ (appendFound s.params .secondary true f₂
          (appendFound s.params .primary false f₁ (appendFound s.params .primary true f₀ []))) ∧
      (probePositions s).selected = s.selected ∧ (probePositions s).initDone = s.initDone := by
  let s₀ : State := { s with
    dev := [], work := some { (State.run { s with dev := [] }).work with pos := 0 } }
  have a₀ : s.Acts [] s₀ := (State.Acts.refl s).set _ [] s.selected s.initDone
  have hs : probePositions s = probePosition (probePosition (probePosition (probePosition s₀))) := rfl
  have hpos : s₀.run.work.pos = 0 := rfl
  obtain ⟨e₀, f₀, t₀, a₁, d₁, l₁, i₁, p₁⟩ := probePosition_acts s₀
  rw [hpos] at t₀ d₁ p₁
  obtain ⟨e₁, f₁, t₁, a₂, d₂, l₂, i₂, p₂⟩ := probePosition_acts (probePosition s₀)
  rw [p₁] at t₁ d₂ p₂
  obtain ⟨e₂, f₂, t₂, a₃, d₃, l₃, i₃, p₃⟩ := probePosition_acts (probePosition (probePosition s₀))
  rw [p₂] at t₂ d₃ p₃
  obtain ⟨e₃, f₃, t₃, a₄, d₄, l₄, i₄, -⟩ := probePosition_acts (probePosition (probePosition (probePosition s₀)))
  rw [p₃] at t₃ d₄
  have q₁ := a₁.params
  have q₂ := a₂.params.trans q₁
  have q₃ := a₃.params.trans q₂
  rw [q₁] at t₁ d₂
  rw [q₂] at t₂ d₃
  rw [q₃] at t₃ d₄
  refine ⟨e₀, e₁, e₂, e₃, f₀, f₁, f₂, f₃, t₀, t₁, t₂, t₃, ?_, ?_, ?_, ?_⟩
  · rw [hs]
    exact ((((a₀.trans a₁).trans a₂).trans a₃).trans a₄)
  · rw [hs, d₄, d₃, d₂, d₁]
    rfl
  · rw [hs, l₄, l₃, l₂, l₁]
  · rw [hs, i₄, i₃, i₂, i₁]

end Sys2Proof.Machine
end

