-- ==== Sys2Proof/Laws/Scripts.lean ====
section
/-! SUPPORT. When every answer of the port backend is listed, at most one trace of a rule agrees with the answers: the
answers fix the trace and the result. -/
namespace Sys2Proof.Machine

/-! ### Status bytes, one at a time -/

theorem consistent_status_cons {p : Params} {ch : Channel} {b : Byte} {l : List Byte} {x : List Event} {a : Word}
    {as : List Word} {m : Memory} (h : consistent (statusEvents p ch (b :: l) ++ x) (a :: as) m = true) :
    b = a.setWidth 8 ∧ consistent (statusEvents p ch l ++ x) as m = true := by
  simpa [statusEvents, consistent] using h

theorem PollReads.nil_iff {c t e : Byte} {m : Nat} {o : PollOutcome} :
    PollReads c t e m [] o ↔ m = 0 ∧ o = .timedOut := by
  cases o with
  | timedOut => exact ⟨fun h => ⟨h.1.symm, rfl⟩, fun h => ⟨h.1.symm, by simp⟩⟩
  | ready => simp [PollReads]
  | errorFlagged => simp [PollReads]

theorem PollReads.zero_cons {c t e b : Byte} {l : List Byte} {o : PollOutcome} : ¬PollReads c t e 0 (b :: l) o := by
  cases o <;> simp [PollReads]

/-- The first byte of a poll ends it, or is quiet and the rest is the poll that follows. -/
theorem PollReads.cons_cases {c t e b : Byte} {l : List Byte} {m : Nat} {o : PollOutcome}
    (h : PollReads c t e (m + 1) (b :: l) o) :
    (b &&& e ≠ 0#8 ∧ l = [] ∧ o = .errorFlagged) ∨
      (b &&& e = 0#8 ∧ (b &&& c = 0#8 ∧ b &&& t = t) ∧ l = [] ∧ o = .ready) ∨
      (b &&& e = 0#8 ∧ ¬(b &&& c = 0#8 ∧ b &&& t = t) ∧ PollReads c t e m l o) := by
  cases o with
  | timedOut =>
    obtain ⟨hl, h⟩ := h
    exact .inr (.inr ⟨(h b (by simp)).1, (h b (by simp)).2, by simpa using hl, fun x hx => h x (by simp [hx])⟩)
  | ready =>
    obtain ⟨q, y, hl, hlen, hq, hy⟩ := h
    cases q with
    | nil =>
      simp only [List.nil_append, List.cons.injEq] at hl
      obtain ⟨rfl, rfl⟩ := hl
      exact .inr (.inl ⟨hy.1, hy.2, rfl, rfl⟩)
    | cons z q =>
      simp only [List.cons_append, List.cons.injEq] at hl
      obtain ⟨rfl, rfl⟩ := hl
      exact .inr (.inr ⟨(hq b (by simp)).1, (hq b (by simp)).2, q, y, rfl, by simpa using hlen,
        fun x hx => hq x (by simp [hx]), hy⟩)
  | errorFlagged =>
    obtain ⟨q, y, hl, hlen, hq, hy⟩ := h
    cases q with
    | nil =>
      simp only [List.nil_append, List.cons.injEq] at hl
      obtain ⟨rfl, rfl⟩ := hl
      exact .inl ⟨hy, rfl, rfl⟩
    | cons z q =>
      simp only [List.cons_append, List.cons.injEq] at hl
      obtain ⟨rfl, rfl⟩ := hl
      exact .inr (.inr ⟨(hq b (by simp)).1, (hq b (by simp)).2, q, y, rfl, by simpa using hlen,
        fun x hx => hq x (by simp [hx]), hy⟩)

/-- The answers fix what a poll reads and returns. -/
theorem PollReads.unique {p : Params} {ch : Channel} {c t e : Byte} {m : Nat} {l l' : List Byte} {o o' : PollOutcome}
    {x x' : List Event} {as : List Word} {mem : Memory} (h : PollReads c t e m l o) (h' : PollReads c t e m l' o')
    (hc : consistent (statusEvents p ch l ++ x) as mem = true)
    (hc' : consistent (statusEvents p ch l' ++ x') as mem = true) (hlen : l.length ≤ as.length) : l = l' ∧ o = o' := by
  induction m generalizing l l' as with
  | zero =>
    cases l with
    | cons b l => exact absurd h PollReads.zero_cons
    | nil =>
      cases l' with
      | cons b l' => exact absurd h' PollReads.zero_cons
      | nil => exact ⟨rfl, (PollReads.nil_iff.1 h).2.trans (PollReads.nil_iff.1 h').2.symm⟩
  | succ m ih =>
    cases l with
    | nil => exact absurd (PollReads.nil_iff.1 h).1 (by simp)
    | cons b l =>
      cases l' with
      | nil => exact absurd (PollReads.nil_iff.1 h').1 (by simp)
      | cons b' l' =>
        cases as with
        | nil => simp at hlen
        | cons a as =>
          obtain ⟨hb, hr⟩ := consistent_status_cons hc
          obtain ⟨hb', hr'⟩ := consistent_status_cons hc'
          obtain rfl : b = b' := hb.trans hb'.symm
          rcases h.cons_cases with ⟨h₁, rfl, rfl⟩ | ⟨h₁, h₂, rfl, rfl⟩ | ⟨h₁, h₂, h₃⟩ <;>
            rcases h'.cons_cases with ⟨g₁, rfl, rfl⟩ | ⟨g₁, g₂, rfl, rfl⟩ | ⟨g₁, g₂, g₃⟩
          all_goals first | exact ⟨rfl, rfl⟩ | exact absurd g₁ h₁ | exact absurd h₁ g₁ | exact absurd g₂ h₂ | exact absurd h₂ g₂ | skip
          obtain ⟨rfl, rfl⟩ := ih h₃ g₃ hr hr' (by simpa using hlen)
          exact ⟨rfl, rfl⟩

/-- The answers fix what the post-read settle reads. -/
theorem settle_unique {p : Params} {ch : Channel} {m : Nat} {l l' : List Byte} {x x' : List Event} {as : List Word}
    {mem : Memory}
    (h : (∃ busy b, l = busy ++ [b] ∧ l.length ≤ m ∧ (∀ x ∈ busy, flagDrq x = true) ∧ flagDrq b = false) ∨
      (l.length = m ∧ ∀ x ∈ l, flagDrq x = true))
    (h' : (∃ busy b, l' = busy ++ [b] ∧ l'.length ≤ m ∧ (∀ x ∈ busy, flagDrq x = true) ∧ flagDrq b = false) ∨
      (l'.length = m ∧ ∀ x ∈ l', flagDrq x = true))
    (hc : consistent (statusEvents p ch l ++ x) as mem = true)
    (hc' : consistent (statusEvents p ch l' ++ x') as mem = true) (hlen : l.length ≤ as.length) : l = l' := by
  have key : ∀ {l : List Byte} {m : Nat} {o : PollOutcome},
      ((∃ busy b, l = busy ++ [b] ∧ l.length ≤ m ∧ (∀ x ∈ busy, flagDrq x = true) ∧ flagDrq b = false) ∨
        (l.length = m ∧ ∀ x ∈ l, flagDrq x = true)) →
      ∃ o, PollReads maskDrq 0#8 0#8 m l o := by
    rintro l m o (⟨busy, b, rfl, hlen, hb, hy⟩ | ⟨hlen, hall⟩)
    · refine ⟨.ready, busy, b, rfl, hlen, fun x hx => ⟨by simp, ?_⟩, by simp, (drq_mask b).2 hy, by simp⟩
      have := hb x hx
      rintro ⟨h, -⟩
      rw [(drq_mask x).1 h] at this
      cases this
    · refine ⟨.timedOut, hlen, fun x hx => ⟨by simp, ?_⟩⟩
      have := hall x hx
      rintro ⟨h, -⟩
      rw [(drq_mask x).1 h] at this
      cases this
  obtain ⟨o, h⟩ := key (o := .ready) h
  obtain ⟨o', h'⟩ := key (o := .ready) h'
  exact (h.unique h' hc hc' hlen).1

/-! ### Fixed shapes -/

/-- What an event is apart from the value that a read returns. -/
def Event.shape : Event → Event
  | .r8 p _ => .r8 p 0#8
  | .r16 p _ => .r16 p 0#16
  | .w8 p v => .w8 p v
  | .w16 p v => .w16 p v
  | .mr a _ => .mr a 0#16
  | .mw a v => .mw a v

/-- Two traces of one shape that agree with the same answers are one trace. -/
theorem shape_unique {e e' x x' : List Event} {as : List Word} {m : Memory} (hs : e.map Event.shape = e'.map Event.shape)
    (h : consistent (e ++ x) as m = true) (h' : consistent (e' ++ x') as m = true)
    (hlen : e.countP Event.isPortRead ≤ as.length) : e = e' := by
  induction e generalizing e' as m with
  | nil => simpa using hs.symm
  | cons a e ih =>
    cases e' with
    | nil => simp at hs
    | cons b e' =>
      simp only [List.map_cons, List.cons.injEq] at hs
      obtain ⟨hab, hs⟩ := hs
      cases a <;> cases b <;> simp only [Event.shape, reduceCtorEq, Event.r8.injEq, Event.r16.injEq, Event.w8.injEq,
        Event.w16.injEq, Event.mr.injEq, Event.mw.injEq, and_true] at hab
      case r8.r8 =>
        subst hab
        cases as with
        | nil => simp [List.countP_cons, Event.isPortRead] at hlen
        | cons v as =>
          simp only [List.cons_append, consistent, Bool.and_eq_true, beq_iff_eq] at h h'
          rw [h.1, h'.1, ih hs h.2 h'.2 (by simpa [List.countP_cons, Event.isPortRead] using hlen)]
      case r16.r16 =>
        subst hab
        cases as with
        | nil => simp [List.countP_cons, Event.isPortRead] at hlen
        | cons v as =>
          simp only [List.cons_append, consistent, Bool.and_eq_true, beq_iff_eq] at h h'
          rw [h.1, h'.1, ih hs h.2 h'.2 (by simpa [List.countP_cons, Event.isPortRead] using hlen)]
      case w8.w8 =>
        obtain ⟨rfl, rfl⟩ := hab
        rw [ih hs (by simpa [consistent] using h) (by simpa [consistent] using h')
          (by simpa [List.countP_cons, Event.isPortRead] using hlen)]
      case w16.w16 =>
        obtain ⟨rfl, rfl⟩ := hab
        rw [ih hs (by simpa [consistent] using h) (by simpa [consistent] using h')
          (by simpa [List.countP_cons, Event.isPortRead] using hlen)]
      case mr.mr =>
        subst hab
        simp only [List.cons_append, consistent, Bool.and_eq_true, beq_iff_eq] at h h'
        rw [h.1, h'.1, ih hs h.2 h'.2 (by simpa [List.countP_cons, Event.isPortRead] using hlen)]
      case mw.mw =>
        obtain ⟨rfl, rfl⟩ := hab
        rw [ih hs (by simpa [consistent] using h) (by simpa [consistent] using h')
          (by simpa [List.countP_cons, Event.isPortRead] using hlen)]

/-- The answers fix the words of a sector that is read. -/
theorem readWordEvents_unique {port base : Nat} {j : Nat} {ws ws' : List Word} {x x' : List Event} {as : List Word}
    {m : Memory} (hw : ws.length = ws'.length)
    (h : consistent (readWordEvents port base j ws ++ x) as m = true)
    (h' : consistent (readWordEvents port base j ws' ++ x') as m = true) (hlen : ws.length ≤ as.length) : ws = ws' := by
  induction ws generalizing ws' j as m with
  | nil => simpa using hw.symm
  | cons v ws ih =>
    cases ws' with
    | nil => simp at hw
    | cons v' ws' =>
      cases as with
      | nil => simp at hlen
      | cons a as =>
        simp only [readWordEvents, List.cons_append, consistent, Bool.and_eq_true, beq_iff_eq] at h h'
        obtain ⟨rfl, h⟩ := h
        obtain ⟨rfl, h'⟩ := h'
        rw [ih (by simpa using hw) h h' (by simpa using hlen)]

/-! ### How many answers a trace uses -/

@[simp] theorem countP_statusEvents (p : Params) (ch : Channel) (l : List Byte) :
    (statusEvents p ch l).countP Event.isPortRead = l.length := by
  induction l with
  | nil => rfl
  | cons b l ih => rw [statusEvents_cons, List.countP_append, ih]; simp [statusEvents, Event.isPortRead, Nat.add_comm]

@[simp] theorem countP_readWordEvents (port base j : Nat) (ws : List Word) :
    (readWordEvents port base j ws).countP Event.isPortRead = ws.length := by
  induction ws generalizing j with
  | nil => rfl
  | cons v ws ih => simp [readWordEvents, List.countP_cons, Event.isPortRead, ih]

@[simp] theorem countP_writeWordEvents (port base : Nat) (mem : Memory) (j n : Nat) :
    (writeWordEvents port base mem j n).countP Event.isPortRead = 0 := by
  induction n generalizing j with
  | zero => rfl
  | succ n ih => simp [writeWordEvents, Event.isPortRead, ih]

/-- What follows a trace that agrees with the answers agrees with the answers that are left. -/
theorem consistent_rest {e x : List Event} {as : List Word} {m : Memory} (h : consistent (e ++ x) as m = true) :
    consistent x (as.drop (e.countP Event.isPortRead)) (replay e m) = true := by
  rw [consistent_append, Bool.and_eq_true] at h
  exact h.2

end Sys2Proof.Machine
end

