-- ==== Sys2Proof/Laws/Unique.lean ====
section
/-! SUPPORT. The answers fix the whole trace and the result of a transfer and of IDENTIFY. -/
namespace Sys2Proof.Machine

/-! ### READ_SECTORS (R173) -/

/-- A read with sectors left begins with the poll of step R5a, whose outcome says what follows. -/
theorem ReadTrace.cases_succ {p : Params} {ch : Channel} {size out k m : Nat} {evs : List Event} {res : Result}
    (h : ReadTrace p ch size out k (m + 1) evs res) :
    ∃ l o x, PollReads 0x80#8 0x08#8 0x21#8 p.pollBudget l o ∧ evs = statusEvents p ch l ++ x ∧
      ((o = .errorFlagged ∧ x = [] ∧ res = .err .protocolError k) ∨
        (o = .timedOut ∧ x = [] ∧ res = .err .timeout k) ∨
        (o = .ready ∧ ∃ ws l' y, ws.length = size / 2 ∧ SettleReads l' ∧ ReadTrace p ch size out (k + 1) m y res ∧
          x = readWordEvents (p.port ch .data) (out + k * size) 0 ws ++ (statusEvents p ch l' ++ y))) := by
  cases h with
  | pollError _ _ l hl => exact ⟨l, _, [], hl, by simp, .inl ⟨rfl, rfl, rfl⟩⟩
  | pollTimeout _ _ l hl => exact ⟨l, _, [], hl, by simp, .inr (.inl ⟨rfl, rfl, rfl⟩)⟩
  | sector _ _ l l' ws y _ hl hlen hl' ht =>
    exact ⟨l, _, _, hl, by simp only [List.append_assoc], .inr (.inr ⟨rfl, ws, l', y, hlen, hl', ht, rfl⟩)⟩

/-- The answers fix a read. -/
theorem ReadTrace.unique {p : Params} {ch : Channel} {size out k m : Nat} {e e' : List Event} {res res' : Result}
    {as : List Word} {mem : Memory} (h : ReadTrace p ch size out k m e res) (h' : ReadTrace p ch size out k m e' res')
    (hc : consistent e as mem = true) (hc' : consistent e' as mem = true)
    (hlen : e.countP Event.isPortRead ≤ as.length) : e = e' ∧ res = res' := by
  induction m generalizing k e e' as mem with
  | zero => cases h; cases h'; exact ⟨rfl, rfl⟩
  | succ m ih =>
    obtain ⟨l, o, x, hl, rfl, g⟩ := h.cases_succ
    obtain ⟨l₁, o₁, x₁, hl₁, rfl, g'⟩ := h'.cases_succ
    rw [List.countP_append, countP_statusEvents] at hlen
    obtain ⟨rfl, rfl⟩ := hl.unique hl₁ hc hc' (by omega)
    have cx := consistent_rest hc
    have cx' := consistent_rest hc'
    rw [countP_statusEvents] at cx cx'
    rcases g with ⟨rfl, rfl, rfl⟩ | ⟨rfl, rfl, rfl⟩ | ⟨rfl, ws, l₂, y, hw, hs, ht, rfl⟩ <;>
      rcases g' with ⟨ho, rfl, rfl⟩ | ⟨ho, rfl, rfl⟩ | ⟨ho, ws₁, l₃, y₁, hw₁, hs₁, ht₁, rfl⟩ <;>
      first | exact ⟨rfl, rfl⟩ | (cases ho; done) | skip
    rw [List.countP_append, countP_readWordEvents, List.countP_append, countP_statusEvents] at hlen
    obtain rfl := readWordEvents_unique (hw.trans hw₁.symm) cx cx' (by rw [List.length_drop]; omega)
    have cy := consistent_rest cx
    have cy' := consistent_rest cx'
    rw [countP_readWordEvents] at cy cy'
    obtain rfl := settle_unique hs hs₁ cy cy' (by simp only [List.length_drop]; omega)
    have cz := consistent_rest cy
    have cz' := consistent_rest cy'
    rw [countP_statusEvents] at cz cz'
    obtain ⟨rfl, rfl⟩ := ih ht ht₁ cz cz' (by simp only [List.length_drop]; omega)
    exact ⟨rfl, rfl⟩

/-! ### WRITE_SECTORS (R174) -/

/-- A write with sectors left begins with the poll of step W5a, whose outcome says what follows. -/
theorem WriteTrace.cases_succ {p : Params} {ch : Channel} {size data k m : Nat} {mem : Memory} {evs : List Event}
    {res : Result} (h : WriteTrace p ch size data mem k (m + 1) evs res) :
    ∃ l o x, PollReads 0x80#8 0x08#8 0x21#8 p.pollBudget l o ∧ evs = statusEvents p ch l ++ x ∧
      ((o = .errorFlagged ∧ x = [] ∧ res = .err .protocolError k) ∨
        (o = .timedOut ∧ x = [] ∧ res = .err .timeout k) ∨
        (o = .ready ∧ ∃ l' o' y, PollReads 0x80#8 0#8 0#8 p.flushBudget l' o' ∧
          x = (writeWordEvents (p.port ch .data) (data + k * size) mem 0 (size / 2) ++ [.w8 (p.port ch .command) 0xE7#8]) ++
            (statusEvents p ch l' ++ y) ∧
          ((o' = .timedOut ∧ y = [] ∧ res = .err .timeout k) ∨
            (o' = .ready ∧ WriteTrace p ch size data mem (k + 1) m y res)))) := by
  cases h with
  | pollError _ _ l hl => exact ⟨l, _, [], hl, by simp, .inl ⟨rfl, rfl, rfl⟩⟩
  | pollTimeout _ _ l hl => exact ⟨l, _, [], hl, by simp, .inr (.inl ⟨rfl, rfl, rfl⟩)⟩
  | flushTimeout _ _ l l' hl hl' =>
    exact ⟨l, _, (writeWordEvents (p.port ch .data) (data + k * size) mem 0 (size / 2) ++ [.w8 (p.port ch .command) 0xE7#8]) ++
      (statusEvents p ch l' ++ []), hl, by simp, .inr (.inr ⟨rfl, l', _, [], hl', rfl, .inl ⟨rfl, rfl, rfl⟩⟩)⟩
  | sector _ _ l l' y _ hl hl' ht =>
    exact ⟨l, _, (writeWordEvents (p.port ch .data) (data + k * size) mem 0 (size / 2) ++ [.w8 (p.port ch .command) 0xE7#8]) ++
      (statusEvents p ch l' ++ y), hl, by simp, .inr (.inr ⟨rfl, l', _, y, hl', rfl, .inr ⟨rfl, ht⟩⟩)⟩

/-- The answers fix a write. -/
theorem WriteTrace.unique {p : Params} {ch : Channel} {size data k m : Nat} {buf : Memory} {e e' : List Event}
    {res res' : Result} {as : List Word} {mem : Memory} (h : WriteTrace p ch size data buf k m e res)
    (h' : WriteTrace p ch size data buf k m e' res')
    (hc : consistent e as mem = true) (hc' : consistent e' as mem = true)
    (hlen : e.countP Event.isPortRead ≤ as.length) : e = e' ∧ res = res' := by
  induction m generalizing k e e' as mem with
  | zero => cases h; cases h'; exact ⟨rfl, rfl⟩
  | succ m ih =>
    obtain ⟨l, o, x, hl, rfl, g⟩ := h.cases_succ
    obtain ⟨l₁, o₁, x₁, hl₁, rfl, g'⟩ := h'.cases_succ
    rw [List.countP_append, countP_statusEvents] at hlen
    obtain ⟨rfl, rfl⟩ := hl.unique hl₁ hc hc' (by omega)
    have cx := consistent_rest hc
    have cx' := consistent_rest hc'
    rw [countP_statusEvents] at cx cx'
    rcases g with ⟨rfl, rfl, rfl⟩ | ⟨rfl, rfl, rfl⟩ | ⟨rfl, l₂, o₂, y, hs, rfl, f⟩ <;>
      rcases g' with ⟨ho, rfl, rfl⟩ | ⟨ho, rfl, rfl⟩ | ⟨ho, l₃, o₃, y₁, hs₁, rfl, f'⟩ <;>
      first | exact ⟨rfl, rfl⟩ | (cases ho; done) | skip
    have cy := consistent_rest cx
    have cy' := consistent_rest cx'
    simp only [List.countP_append, countP_statusEvents] at hlen
    obtain ⟨rfl, rfl⟩ := hs.unique hs₁ cy cy' (by simp only [List.length_drop, List.countP_append]; omega)
    have cz := consistent_rest cy
    have cz' := consistent_rest cy'
    rw [countP_statusEvents] at cz cz'
    rcases f with ⟨rfl, rfl, rfl⟩ | ⟨rfl, ht⟩ <;> rcases f' with ⟨ho, rfl, rfl⟩ | ⟨ho, ht₁⟩ <;>
      first | exact ⟨rfl, rfl⟩ | (cases ho; done) | skip
    obtain ⟨rfl, rfl⟩ := ih ht ht₁ cz cz' (by simp only [List.length_drop, List.countP_append]; omega)
    exact ⟨rfl, rfl⟩

/-! ### IDENTIFY (R130) -/

/-- IDENTIFY from step I7 on: the poll for DATA-REQUEST, then the words. -/
def IdentifyTail (p : Params) (ch : Channel) (evs : List Event) (found : Option (Vector Word 256)) : Prop :=
  ∃ l o x, PollReads 0#8 0x08#8 0x01#8 p.pollBudget l o ∧ evs = statusEvents p ch l ++ x ∧
    ((o ≠ .ready ∧ x = [] ∧ found = none) ∨
      (o = .ready ∧ ∃ w : Vector Word 256, x = (w.toList.map fun v => .r16 (p.port ch .data) v) ∧ found = some w))

/-- IDENTIFY, one step after another. -/
theorem IdentifyTrace.steps {p : Params} {ch : Channel} {m : Bool} {evs : List Event}
    {found : Option (Vector Word 256)} (h : IdentifyTrace p ch m evs found) :
    ∃ vs s4 x, vs.length = 4 ∧ evs = identifyHeadEvents p ch m vs s4 ++ x ∧
      ((s4 = 0#8 ∧ x = [] ∧ found = none) ∨
        (s4 ≠ 0#8 ∧ ∃ l o y, PollReads 0x80#8 0#8 0x01#8 p.pollBudget l o ∧ x = statusEvents p ch l ++ y ∧
          ((o ≠ .ready ∧ y = [] ∧ found = none) ∨
            (o = .ready ∧ ∃ mid hi z, y = signatureEvents p ch mid hi ++ z ∧
              (((mid ≠ 0#8 ∨ hi ≠ 0#8) ∧ z = [] ∧ found = none) ∨
                (¬(mid ≠ 0#8 ∨ hi ≠ 0#8) ∧ IdentifyTail p ch z found)))))) := by
  cases h with
  | absent vs hv => exact ⟨vs, _, [], hv, by simp, .inl ⟨rfl, rfl, rfl⟩⟩
  | busy vs l s4 o hv h₁ h₂ h₃ =>
    exact ⟨vs, s4, _, hv, rfl, .inr ⟨h₁, l, o, [], h₃, by simp, .inl ⟨h₂, rfl, rfl⟩⟩⟩
  | otherKind vs l s4 mid hi hv h₁ h₂ h₃ =>
    exact ⟨vs, s4, statusEvents p ch l ++ (signatureEvents p ch mid hi ++ []), hv, by simp,
      .inr ⟨h₁, l, _, _, h₂, rfl, .inr ⟨rfl, mid, hi, [], rfl, .inl ⟨h₃, rfl, rfl⟩⟩⟩⟩
  | noData vs l l' s4 o hv h₁ h₂ h₃ h₄ =>
    exact ⟨vs, s4, statusEvents p ch l ++ (signatureEvents p ch 0#8 0#8 ++ (statusEvents p ch l' ++ [])), hv, by simp,
      .inr ⟨h₁, l, _, _, h₃, rfl, .inr ⟨rfl, 0, 0, _, rfl, .inr ⟨by simp, l', o, [], h₄, rfl, .inl ⟨h₂, rfl, rfl⟩⟩⟩⟩⟩
  | found vs l l' s4 w hv h₁ h₂ h₃ =>
    exact ⟨vs, s4, statusEvents p ch l ++ (signatureEvents p ch 0#8 0#8 ++ (statusEvents p ch l' ++
        w.toList.map fun v => .r16 (p.port ch .data) v)), hv, by simp,
      .inr ⟨h₁, l, _, _, h₂, rfl, .inr ⟨rfl, 0, 0, _, rfl, .inr ⟨by simp, l', _, _, h₃, rfl, .inr ⟨rfl, w, rfl, rfl⟩⟩⟩⟩⟩

/-- The settle reads and the status byte of the first eleven events can be read off them. -/
theorem identifyHeadEvents_shape (p : Params) (ch : Channel) (m : Bool) {vs vs' : List Byte} (s4 s4' : Byte)
    (h : vs.length = vs'.length) :
    (identifyHeadEvents p ch m vs s4).map Event.shape = (identifyHeadEvents p ch m vs' s4').map Event.shape := by
  have hm : ∀ vs : List Byte, (vs.map fun v => (Event.r8 (p.port ch .altStatus) v)).map Event.shape =
      List.replicate vs.length (Event.r8 (p.port ch .altStatus) 0#8) := by
    intro vs
    induction vs with
    | nil => rfl
    | cons v vs ih => simp only [List.map_cons, ih, List.length_cons, List.replicate_succ]; rfl
  simp only [identifyHeadEvents, selectEvents, List.map_append, List.map_cons, hm, h, List.map_nil]
  rfl

theorem identifyHeadEvents_last {p : Params} {ch : Channel} {m : Bool} {vs vs' : List Byte} {s4 s4' : Byte}
    (h : identifyHeadEvents p ch m vs s4 = identifyHeadEvents p ch m vs' s4') : s4 = s4' := by
  have := congrArg List.getLast? h
  simpa [identifyHeadEvents, List.getLast?_append] using this

/-- The answers fix IDENTIFY. -/
theorem IdentifyTrace.unique {p : Params} {ch : Channel} {m : Bool} {e e' : List Event}
    {f f' : Option (Vector Word 256)} {as : List Word} {mem : Memory} (h : IdentifyTrace p ch m e f)
    (h' : IdentifyTrace p ch m e' f') (hc : consistent e as mem = true) (hc' : consistent e' as mem = true)
    (hlen : e.countP Event.isPortRead ≤ as.length) : e = e' ∧ f = f' := by
  obtain ⟨vs, s4, x, hv, rfl, g₀⟩ := h.steps
  obtain ⟨vs₁, s4₁, x₁, hv₁, rfl, g₀'⟩ := h'.steps
  rw [List.countP_append] at hlen
  have hh := shape_unique (identifyHeadEvents_shape p ch m s4 s4₁ (hv.trans hv₁.symm)) hc hc' (by omega)
  obtain rfl := identifyHeadEvents_last hh
  rw [← hh] at hc' ⊢
  have cx := consistent_rest hc
  have cx' := consistent_rest hc'
  rcases g₀ with ⟨h0, rfl, rfl⟩ | ⟨h0, l, o, y, hl, rfl, g₁⟩ <;>
    rcases g₀' with ⟨h0', rfl, rfl⟩ | ⟨h0', l₁, o₁, y₁, hl₁, rfl, g₁'⟩ <;>
    first | exact ⟨rfl, rfl⟩ | exact absurd h0 h0' | exact absurd h0' h0 | skip
  rw [List.countP_append, countP_statusEvents] at hlen
  obtain ⟨rfl, rfl⟩ := hl.unique hl₁ cx cx' (by rw [List.length_drop]; omega)
  have cy := consistent_rest cx
  have cy' := consistent_rest cx'
  rw [countP_statusEvents] at cy cy'
  rcases g₁ with ⟨ho, rfl, rfl⟩ | ⟨ho, mid, hi, z, rfl, g₂⟩ <;>
    rcases g₁' with ⟨ho', rfl, rfl⟩ | ⟨ho', mid₁, hi₁, z₁, rfl, g₂'⟩ <;>
    first | exact ⟨rfl, rfl⟩ | exact absurd ho ho' | exact absurd ho' ho | skip
  rw [List.countP_append] at hlen
  have hs := shape_unique (e := signatureEvents p ch mid hi) (e' := signatureEvents p ch mid₁ hi₁) rfl cy cy'
    (by simp only [List.length_drop]; omega)
  simp only [signatureEvents, List.cons.injEq, Event.r8.injEq, true_and, and_true] at hs
  obtain ⟨rfl, rfl⟩ := hs
  have cz := consistent_rest cy
  have cz' := consistent_rest cy'
  rcases g₂ with ⟨hm, rfl, rfl⟩ | ⟨hm, l₂, o₂, u, hl₂, rfl, g₃⟩ <;>
    rcases g₂' with ⟨hm', rfl, rfl⟩ | ⟨hm', l₃, o₃, u₁, hl₃, rfl, g₃'⟩ <;>
    first | exact ⟨rfl, rfl⟩ | exact absurd hm hm' | exact absurd hm' hm | skip
  rw [List.countP_append, countP_statusEvents] at hlen
  obtain ⟨rfl, rfl⟩ := hl₂.unique hl₃ cz cz' (by simp only [List.length_drop]; omega)
  have cu := consistent_rest cz
  have cu' := consistent_rest cz'
  rw [countP_statusEvents] at cu cu'
  rcases g₃ with ⟨ho₂, rfl, rfl⟩ | ⟨ho₂, w, rfl, rfl⟩ <;> rcases g₃' with ⟨ho₃, rfl, rfl⟩ | ⟨ho₃, w₁, rfl, rfl⟩ <;>
    first | exact ⟨rfl, rfl⟩ | exact absurd ho₂ ho₃ | exact absurd ho₃ ho₂ | skip
  have hw : w.toList = w₁.toList := by
    have hsh : ∀ vs : List Word, (vs.map fun v => (Event.r16 (p.port ch .data) v)).map Event.shape =
        List.replicate vs.length (Event.r16 (p.port ch .data) 0#16) := by
      intro vs
      induction vs with
      | nil => rfl
      | cons v vs ih => simp only [List.map_cons, ih, List.length_cons, List.replicate_succ]; rfl
    have := shape_unique (x := []) (x' := []) (e := w.toList.map fun v => Event.r16 (p.port ch .data) v)
      (e' := w₁.toList.map fun v => Event.r16 (p.port ch .data) v) (by rw [hsh, hsh]; simp)
      (by simpa using cu) (by simpa using cu') (by simp only [List.length_drop]; omega)
    exact List.map_injective_iff.2 (fun a b hab => by simpa using hab) this
  obtain rfl : w = w₁ := Vector.toList_inj.1 hw
  exact ⟨rfl, rfl⟩

end Sys2Proof.Machine
end

