-- ==== Sys2Proof/Laws/Allowed.lean ====
section
/-! SUPPORT. Every trace of a rule makes only the accesses that 10_state R20 and 20_memory R43 allow, and which bytes
of the buffer it writes. -/
namespace Sys2Proof.Machine

variable {p : Params} {ch : Channel}

/-! ### Allowed accesses -/

theorem statusEvents_allowed {l : List Byte} : ∀ e ∈ statusEvents p ch l, e.allowedOn p ch = true := by
  simp [statusEvents, Event.allowedOn]

theorem selectEvents_allowed {m : Bool} {vs : List Byte} : ∀ e ∈ selectEvents p ch m vs, e.allowedOn p ch = true := by
  cases m <;> simp [selectEvents, Event.allowedOn, isSelectByte]

theorem transferSelect_isSelectByte (m : Bool) (n : Nat) :
    isSelectByte ((if m then 0xE0#8 else 0xF0#8) ||| BitVec.ofNat 8 (n % 16)) = true := by
  have h : ∀ (m : Bool) (x : Fin 16),
      isSelectByte ((if m then 0xE0#8 else 0xF0#8) ||| BitVec.ofNat 8 x.val) = true := by decide
  exact h m ⟨n % 16, Nat.mod_lt _ (by decide)⟩

theorem setupEvents_allowed {m : Bool} {c : Command} {lba : BitVec 32} {cnt : Byte} :
    ∀ e ∈ setupEvents p ch m c.byte lba cnt, e.allowedOn p ch = true := by
  have hs := transferSelect_isSelectByte m (lba.toNat / 2 ^ 24)
  have hc : (Command.ofByte c.byte).isSome = true := by cases c <;> decide
  simp only [setupEvents, List.forall_mem_cons, Event.allowedOn, hs, hc]
  simp

theorem readWordEvents_allowed {base j : Nat} {ws : List Word} :
    ∀ e ∈ readWordEvents (p.port ch .data) base j ws, e.allowedOn p ch = true := by
  induction ws generalizing j with
  | nil => simp [readWordEvents]
  | cons v ws ih =>
    simp only [readWordEvents, List.forall_mem_cons]
    exact ⟨by simp [Event.allowedOn], rfl, ih⟩

theorem writeWordEvents_allowed {base j n : Nat} {mem : Memory} :
    ∀ e ∈ writeWordEvents (p.port ch .data) base mem j n, e.allowedOn p ch = true := by
  induction n generalizing j with
  | zero => simp [writeWordEvents]
  | succ n ih =>
    simp only [writeWordEvents, List.forall_mem_cons]
    exact ⟨rfl, by simp [Event.allowedOn], ih⟩

theorem identifyHeadEvents_allowed {m : Bool} {vs : List Byte} {s4 : Byte} :
    ∀ e ∈ identifyHeadEvents p ch m vs s4, e.allowedOn p ch = true := by
  simp only [identifyHeadEvents, List.forall_mem_append]
  refine ⟨selectEvents_allowed, ?_⟩
  have hc : (Command.ofByte 0xEC#8).isSome = true := by decide
  simp [Event.allowedOn, hc]

theorem signatureEvents_allowed {mid hi : Byte} :
    ∀ e ∈ signatureEvents p ch mid hi, e.allowedOn p ch = true := by
  simp [signatureEvents, Event.allowedOn]

theorem IdentifyTrace.allowed {m : Bool} {evs : List Event} {f : Option (Vector Word 256)}
    (h : IdentifyTrace p ch m evs f) : ∀ e ∈ evs, e.allowedOn p ch = true := by
  have hw : ∀ w : Vector Word 256,
      ∀ e ∈ w.toList.map (fun v => Event.r16 (p.port ch .data) v), e.allowedOn p ch = true := by
    intro w e he
    obtain ⟨v, -, rfl⟩ := List.mem_map.1 he
    simp [Event.allowedOn]
  cases h with
  | absent => exact identifyHeadEvents_allowed
  | busy =>
    simp only [List.forall_mem_append]
    exact ⟨identifyHeadEvents_allowed, statusEvents_allowed⟩
  | otherKind =>
    simp only [List.forall_mem_append]
    exact ⟨⟨identifyHeadEvents_allowed, statusEvents_allowed⟩, signatureEvents_allowed⟩
  | noData =>
    simp only [List.forall_mem_append]
    exact ⟨⟨⟨identifyHeadEvents_allowed, statusEvents_allowed⟩, signatureEvents_allowed⟩, statusEvents_allowed⟩
  | found =>
    simp only [List.forall_mem_append]
    exact ⟨⟨⟨⟨identifyHeadEvents_allowed, statusEvents_allowed⟩, signatureEvents_allowed⟩, statusEvents_allowed⟩,
      hw _⟩

theorem ReadTrace.allowed {size out k m : Nat} {evs : List Event} {res : Result}
    (h : ReadTrace p ch size out k m evs res) : ∀ e ∈ evs, e.allowedOn p ch = true := by
  induction h with
  | done => simp
  | pollError => exact statusEvents_allowed
  | pollTimeout => exact statusEvents_allowed
  | sector _ _ _ _ _ _ _ _ _ _ _ ih =>
    simp only [List.forall_mem_append]
    exact ⟨⟨⟨statusEvents_allowed, readWordEvents_allowed⟩, statusEvents_allowed⟩, ih⟩

theorem WriteTrace.allowed {size data k m : Nat} {mem : Memory} {evs : List Event} {res : Result}
    (h : WriteTrace p ch size data mem k m evs res) : ∀ e ∈ evs, e.allowedOn p ch = true := by
  have hf : ∀ e ∈ [Event.w8 (p.port ch .command) 0xE7#8], e.allowedOn p ch = true := by
    have hc : (Command.ofByte 0xE7#8).isSome = true := by decide
    simp [Event.allowedOn, hc]
  induction h with
  | done => simp
  | pollError => exact statusEvents_allowed
  | pollTimeout => exact statusEvents_allowed
  | flushTimeout =>
    simp only [List.forall_mem_append]
    exact ⟨⟨⟨statusEvents_allowed, writeWordEvents_allowed⟩, hf⟩, statusEvents_allowed⟩
  | sector _ _ _ _ _ _ _ _ _ ih =>
    simp only [List.forall_mem_append]
    exact ⟨⟨⟨⟨statusEvents_allowed, writeWordEvents_allowed⟩, hf⟩, statusEvents_allowed⟩, ih⟩

/-! ### The buffer -/

/-- A trace without a buffer write. -/
def noBufferWrite (evs : List Event) : Prop := ∀ a v, Event.mw a v ∉ evs

theorem replay_noBufferWrite {evs : List Event} (h : noBufferWrite evs) (m : Memory) : replay evs m = m := by
  induction evs with
  | nil => rfl
  | cons e evs ih =>
    have ih := ih fun a v hm => h a v (List.mem_cons_of_mem _ hm)
    cases e with
    | mw a v => exact absurd List.mem_cons_self (h a v)
    | r8 | r16 | w8 | w16 | mr => exact ih

theorem noBufferWrite_append {e f : List Event} : noBufferWrite (e ++ f) ↔ noBufferWrite e ∧ noBufferWrite f := by
  simp only [noBufferWrite, List.mem_append, not_or]
  exact ⟨fun h => ⟨fun a v => (h a v).1, fun a v => (h a v).2⟩, fun h a v => ⟨h.1 a v, h.2 a v⟩⟩

theorem noBufferWrite_status {l : List Byte} : noBufferWrite (statusEvents p ch l) := by
  simp [noBufferWrite, statusEvents]

theorem noBufferWrite_select {m : Bool} {vs : List Byte} : noBufferWrite (selectEvents p ch m vs) := by
  simp [noBufferWrite, selectEvents]

theorem noBufferWrite_setup {m : Bool} {op : Byte} {lba : BitVec 32} {cnt : Byte} :
    noBufferWrite (setupEvents p ch m op lba cnt) := by
  simp [noBufferWrite, setupEvents]

theorem noBufferWrite_writeWords {port base j n : Nat} {mem : Memory} :
    noBufferWrite (writeWordEvents port base mem j n) := by
  induction n generalizing j with
  | zero => simp [noBufferWrite, writeWordEvents]
  | succ n ih => simpa [noBufferWrite, writeWordEvents] using fun a v => ih a v

/-- IDENTIFY does not write the buffer. -/
theorem IdentifyTrace.noBufferWrite {m : Bool} {evs : List Event} {f : Option (Vector Word 256)}
    (h : IdentifyTrace p ch m evs f) : noBufferWrite evs := by
  have hh : ∀ vs s4, Machine.noBufferWrite (identifyHeadEvents p ch m vs s4) := by
    intro vs s4
    rw [identifyHeadEvents, noBufferWrite_append]
    exact ⟨noBufferWrite_select, by simp [Machine.noBufferWrite]⟩
  have hs : ∀ mid hi, Machine.noBufferWrite (signatureEvents p ch mid hi) := by
    simp [Machine.noBufferWrite, signatureEvents]
  have hw : ∀ w : Vector Word 256,
      Machine.noBufferWrite (w.toList.map fun v => Event.r16 (p.port ch .data) v) := by
    simp [Machine.noBufferWrite]
  cases h with
  | absent => exact hh _ _
  | busy => exact noBufferWrite_append.2 ⟨hh _ _, noBufferWrite_status⟩
  | otherKind => exact noBufferWrite_append.2 ⟨noBufferWrite_append.2 ⟨hh _ _, noBufferWrite_status⟩, hs _ _⟩
  | noData =>
    simp only [noBufferWrite_append]
    exact ⟨⟨⟨hh _ _, noBufferWrite_status⟩, hs _ _⟩, noBufferWrite_status⟩
  | found =>
    simp only [noBufferWrite_append]
    exact ⟨⟨⟨⟨hh _ _, noBufferWrite_status⟩, hs _ _⟩, noBufferWrite_status⟩, hw _⟩

/-- WRITE_SECTORS does not write the buffer (R174). -/
theorem WriteTrace.noBufferWrite {size data k m : Nat} {mem : Memory} {evs : List Event} {res : Result}
    (h : WriteTrace p ch size data mem k m evs res) : noBufferWrite evs := by
  have hf : Machine.noBufferWrite [Event.w8 (p.port ch .command) 0xE7#8] := by simp [Machine.noBufferWrite]
  induction h with
  | done => simp [Machine.noBufferWrite]
  | pollError => exact noBufferWrite_status
  | pollTimeout => exact noBufferWrite_status
  | flushTimeout =>
    simp only [noBufferWrite_append]
    exact ⟨⟨⟨noBufferWrite_status, noBufferWrite_writeWords⟩, hf⟩, noBufferWrite_status⟩
  | sector _ _ _ _ _ _ _ _ _ ih =>
    simp only [noBufferWrite_append]
    exact ⟨⟨⟨⟨noBufferWrite_status, noBufferWrite_writeWords⟩, hf⟩, noBufferWrite_status⟩, ih⟩

/-- The words of a sector go to the sector's own bytes. -/
theorem readWordEvents_mem {port base j a : Nat} {v : Word} {ws : List Word}
    (h : Event.mw a v ∈ readWordEvents port base j ws) : base + 2 * j ≤ a ∧ a + 1 < base + 2 * (j + ws.length) := by
  induction ws generalizing j with
  | nil => simp [readWordEvents] at h
  | cons w ws ih =>
    simp only [readWordEvents, List.mem_cons, reduceCtorEq, Event.mw.injEq, false_or] at h
    simp only [List.length_cons]
    rcases h with ⟨rfl, -⟩ | h
    · omega
    · have := ih h
      omega

/-- A byte that no buffer write of a trace touches reads as before. -/
theorem read_replay_other {evs : List Event} {b : Nat} (h : ∀ a v, Event.mw a v ∈ evs → b ≠ a ∧ b ≠ a + 1)
    (m : Memory) : Memory.read (replay evs m) b = Memory.read m b := by
  induction evs generalizing m with
  | nil => rfl
  | cons e evs ih =>
    have ih := ih fun a v hm => h a v (List.mem_cons_of_mem _ hm)
    cases e with
    | mw a v =>
      obtain ⟨h₁, h₂⟩ := h a v List.mem_cons_self
      exact (ih _).trans (Memory.read_writeWord_other h₁ h₂ v)
    | r8 | r16 | w8 | w16 | mr => exact ih _

end Sys2Proof.Machine
end

