-- ==== Sys2Proof/Laws/Bodies.lean ====
section
/-! SUPPORT. Every meaning is a request performed with a body; what the bodies do, all of them. -/
namespace Sys2Proof.Machine

/-- What an instruction does between acceptance and delivery. -/
def body : Instr → State → Result × State
  | .identifyCmd ch => fun t => t.runWith fun r => (.nothing, writeCommand .order t.params ch .identify r)
  | .readSectorsCmd ch => fun t => t.runWith fun r => (.nothing, writeCommand .order t.params ch .readSectors r)
  | .writeSectorsCmd ch => fun t => t.runWith fun r => (.nothing, writeCommand .order t.params ch .writeSectors r)
  | .flushCacheCmd ch => fun t => t.runWith fun r => (.nothing, writeCommand .order t.params ch .flushCache r)
  | .selMaster ch => fun t => t.runWith fun r => (.nothing, writeSelect .order t.params ch (selectByte true) r)
  | .selSlave ch => fun t => t.runWith fun r => (.nothing, writeSelect .order t.params ch (selectByte false) r)
  | .xferSelMaster ch l =>
    fun t => t.runWith fun r => (.nothing, writeSelect .order t.params ch (transferSelectByte true l) r)
  | .xferSelSlave ch l =>
    fun t => t.runWith fun r => (.nothing, writeSelect .order t.params ch (transferSelectByte false l) r)
  | .init => initialise
  | .read d b off size => readBytes d b off size
  | .write d b off size => writeBytes d b off size
  | .probeAll => fun t => (.registry, probeAll t)
  | .select id => selectDevice id
  | .selectPosition ch m => fun t => t.runWith fun r => (.nothing, selectPosition t.params ch m r)
  | .ensureSelected id => ensureSelected id
  | .poll ch c st e n => fun t => t.runWith fun r =>
    (.polled (poll t.params ch c st e n r).1, (poll t.params ch c st e n r).2)
  | .identify ch m => fun t => t.runWith fun r =>
    (identifyResult (identify t.params ch m r).1, (identify t.params ch m r).2)
  | .decode w => fun t => (.record (decodeBuffer w), t)
  | .readSectors d lba n b => readSectors d lba n b
  | .writeSectors d lba n b => writeSectors d lba n b
  | .readSectors48 _ _ _ _ => raiseError .unimplemented 0
  | .writeSectors48 _ _ _ _ => raiseError .unimplemented 0

theorem exec_eq_perform (i : Instr) (s : State) : exec i s = perform i (body i) s := by
  cases i <;> rfl

/-- A ready engine runs an instruction's body and delivers. -/
theorem exec_ready {s : State} (h : s.Ready) (i : Instr) :
    exec i s = .next ((body i (s.accept i)).2.deliver (body i (s.accept i)).1) := by
  rw [exec_eq_perform, perform_ready h]

/-- A next state is what the body delivered. -/
theorem exec_next {i : Instr} {s t : State} (h : exec i s = .next t) :
    s.refusal = none ∧ t = (body i (s.accept i)).2.deliver (body i (s.accept i)).1 := by
  rw [exec_eq_perform] at h
  exact perform_next h

/-- The next state of a ready engine, when the result, the accesses and the engine state after them are known. -/
theorem exec_acts {s : State} {i : Instr} {evs : List Event} {res : Result} {dev : List Device} {sel : Selected}
    {ini : Bool} (h : s.Ready) (hres : (body i (s.accept i)).1 = res) (ha : (s.accept i).Acts evs (body i (s.accept i)).2)
    (hdev : (body i (s.accept i)).2.dev = dev) (hsel : (body i (s.accept i)).2.selected = sel)
    (hini : (body i (s.accept i)).2.initDone = ini) :
    exec i s = .next { s.afterEvents evs res with dev := dev, selected := sel, initDone := ini } := by
  rw [exec_ready h, hres, ha.deliver h.idle res, hdev, hsel, hini]

/-- A body that does nothing but answer. -/
theorem exec_quiet {s : State} {i : Instr} {res : Result} (h : s.Ready) (hb : body i (s.accept i) = (res, s.accept i)) :
    exec i s = .next (s.afterEvents [] res) :=
  exec_acts h (by rw [hb]) (by rw [hb]; exact State.Acts.refl _) (by rw [hb]) (by rw [hb]) (by rw [hb])

/-! ### PROBE_ALL and INIT (R133, R134) -/

/-- PROBE_ALL: the four positions, then the default selection. -/
theorem probeAll_acts (s : State) :
    ∃ e₀ e₁ e₂ e₃ f₀ f₁ f₂ f₃ e₄ sel,
      IdentifyTrace s.params .primary true e₀ f₀ ∧ IdentifyTrace s.params .primary false e₁ f₁ ∧
      IdentifyTrace s.params .secondary true e₂ f₂ ∧ IdentifyTrace s.params .secondary false e₃ f₃ ∧
      s.Acts (e₀ ++ e₁ ++ e₂ ++ e₃ ++ e₄) (probeAll s) ∧
      (probeAll s).dev =
        appendFound s.params .secondary false f₃ (appendFound s.params .secondary true f₂
          (appendFound s.params .primary false f₁ (appendFound s.params .primary true f₀ []))) ∧
      (probeAll s).selected = sel ∧ (probeAll s).initDone = s.initDone ∧
      (((probeAll s).dev = [] ∧ e₄ = [] ∧ sel = s.selected) ∨
        ∃ d vs, (probeAll s).dev.head? = some d ∧ vs.length = 4 ∧ sel = .device 0 ∧
          e₄ = selectEvents s.params (s.params.channelOf d) d.isMaster vs) := by
  obtain ⟨e₀, e₁, e₂, e₃, f₀, f₁, f₂, f₃, h₀, h₁, h₂, h₃, ha, hdev, hsel, hini⟩ := probePositions_acts s
  by_cases hc : (probePositions s).count = 0
  · have he : probeAll s = probePositions s := by rw [probeAll, if_pos hc]
    refine ⟨e₀, e₁, e₂, e₃, f₀, f₁, f₂, f₃, [], s.selected, h₀, h₁, h₂, h₃, ?_, ?_, ?_, ?_, .inl ⟨?_, rfl, rfl⟩⟩
    · rw [he, List.append_nil]; exact ha
    · rw [he, hdev]
    · rw [he, hsel]
    · rw [he, hini]
    · rw [he]; exact List.eq_nil_of_length_eq_zero hc
  · have he : probeAll s = (selectDevice 0 (probePositions s)).2 := by rw [probeAll, if_neg hc]
    obtain ⟨d, hd⟩ : ∃ d, (probePositions s).dev[0]? = some d := by
      rw [State.count] at hc
      exact ⟨_, List.getElem?_eq_getElem (by omega)⟩
    obtain ⟨vs, hlen, -, ha', hdev', hsel', hini'⟩ := selectDevice_some hd
    rw [ha.params] at ha'
    refine ⟨e₀, e₁, e₂, e₃, f₀, f₁, f₂, f₃, _, .device 0, h₀, h₁, h₂, h₃, ha.trans (he ▸ ha'), ?_, ?_, ?_,
      .inr ⟨d, vs, ?_, hlen, rfl, rfl⟩⟩
    · rw [he, hdev', hdev]
    · rw [he, hsel']
    · rw [he, hini', hini]
    · rw [he, hdev', List.head?_eq_getElem?, hd]

/-! ### All bodies: the accesses -/

theorem allowed_of {p : Params} {ch : Channel} {evs : List Event} (h : ∀ e ∈ evs, e.allowedOn p ch = true) :
    ∀ e ∈ evs, e.allowed p = true := by
  intro e he
  cases ch <;> simp [Event.allowed, h e he]

/-- The accesses of a transfer past READ and WRITE's checks. -/
theorem entry_record {s : State} {id : Nat} {off size : BitVec 64} {lc : BitVec 32 × Byte}
    (h : entryChecks s.dev id off size = .ok lc) :
    ∃ d, s.dev[id]? = some d ∧ transferChecks s.dev id lc.1 lc.2 = .ok d := by
  obtain ⟨d, hd, hc, -⟩ := entryChecks_ok (lba := lc.1) (cnt := lc.2) h
  exact ⟨d, hd, hc⟩

theorem did_commandOrder {p : Params} {ch : Channel} {c : Command} {r : Run} :
    Did r [.w8 (p.port ch .command) c.byte] (writeCommand .order p ch c r) := portWrite8_did _ _ _ _

theorem did_selectOrder {p : Params} {ch : Channel} {v : Byte} {r : Run} :
    Did r [.w8 (p.port ch .deviceSelect) v] (writeSelect .order p ch v r) := portWrite8_did _ _ _ _

theorem commandOrder_allowed {p : Params} {ch : Channel} {c : Command} :
    ∀ e ∈ [Event.w8 (p.port ch .command) c.byte], e.allowedOn p ch = true := by
  have hc : (Command.ofByte c.byte).isSome = true := by cases c <;> decide
  simp [Event.allowedOn, hc]

theorem selectOrder_allowed {p : Params} {ch : Channel} {v : Byte} (h : isSelectByte v = true) :
    ∀ e ∈ [Event.w8 (p.port ch .deviceSelect) v], e.allowedOn p ch = true := by
  simp [Event.allowedOn, h]

/-- Every body makes allowed accesses only, and beside them changes only engine state and working registers. -/
theorem body_acts (i : Instr) (s : State) :
    ∃ evs, s.Acts evs (body i s).2 ∧ ∀ e ∈ evs, e.allowed s.params = true := by
  have sel : ∀ (m : Bool) (l : BitVec 4), isSelectByte (transferSelectByte m l) = true := by decide
  have nothing : ∃ evs, s.Acts evs s ∧ ∀ e ∈ evs, e.allowed s.params = true := ⟨[], State.Acts.refl s, by simp⟩
  have select : ∀ id, ∃ evs, s.Acts evs (selectDevice id s).2 ∧ ∀ e ∈ evs, e.allowed s.params = true := by
    intro id
    rcases hd : s.dev[id]? with _ | d
    · rw [selectDevice_none hd]; exact nothing
    · obtain ⟨vs, -, -, h, -⟩ := selectDevice_some hd
      exact ⟨_, h, allowed_of selectEvents_allowed⟩
  have ensure : ∀ id, ∃ evs, s.Acts evs (ensureSelected id s).2 ∧ ∀ e ∈ evs, e.allowed s.params = true := by
    intro id
    rw [ensureSelected]
    split
    · exact nothing
    · exact select id
  have reads : ∀ (t : State) (d : Nat) (lba : BitVec 32) (n : Byte) (b : Nat), t.params = s.params →
      ∃ evs, t.Acts evs (readSectors d lba n b t).2 ∧ ∀ e ∈ evs, e.allowed s.params = true := by
    intro t d lba n b ht
    rcases hc : transferChecks t.dev d lba n with k | r
    · exact ⟨[], by simp only [readSectors, hc]; exact State.Acts.refl t, by simp⟩
    · obtain ⟨evs, h, ha, -⟩ := readSectors_acts hc b
      refine ⟨_, ha, ?_⟩
      rw [← ht]
      exact allowed_of (List.forall_mem_append.2 ⟨setupEvents_allowed (c := .readSectors), h.allowed⟩)
  have writes : ∀ (t : State) (d : Nat) (lba : BitVec 32) (n : Byte) (b : Nat), t.params = s.params →
      ∃ evs, t.Acts evs (writeSectors d lba n b t).2 ∧ ∀ e ∈ evs, e.allowed s.params = true := by
    intro t d lba n b ht
    rcases hc : transferChecks t.dev d lba n with k | r
    · exact ⟨[], by simp only [writeSectors, hc]; exact State.Acts.refl t, by simp⟩
    · obtain ⟨evs, h, ha, -⟩ := writeSectors_acts hc b
      refine ⟨_, ha, ?_⟩
      rw [← ht]
      exact allowed_of (List.forall_mem_append.2 ⟨setupEvents_allowed (c := .writeSectors), h.allowed⟩)
  have probe : ∃ evs, s.Acts evs (probeAll s) ∧ ∀ e ∈ evs, e.allowed s.params = true := by
    obtain ⟨e₀, e₁, e₂, e₃, f₀, f₁, f₂, f₃, e₄, sel, h₀, h₁, h₂, h₃, ha, -, -, -, h₄⟩ := probeAll_acts s
    refine ⟨_, ha, ?_⟩
    simp only [List.forall_mem_append]
    refine ⟨⟨⟨⟨allowed_of h₀.allowed, allowed_of h₁.allowed⟩, allowed_of h₂.allowed⟩, allowed_of h₃.allowed⟩, ?_⟩
    rcases h₄ with ⟨-, rfl, -⟩ | ⟨d, vs, -, -, -, rfl⟩
    · simp
    · exact allowed_of selectEvents_allowed
  cases i with
  | identifyCmd | readSectorsCmd | writeSectorsCmd | flushCacheCmd =>
    exact ⟨_, State.acts_withRun did_commandOrder, allowed_of commandOrder_allowed⟩
  | selMaster | selSlave =>
    exact ⟨_, State.acts_withRun did_selectOrder, allowed_of (selectOrder_allowed (by decide))⟩
  | xferSelMaster | xferSelSlave =>
    exact ⟨_, State.acts_withRun did_selectOrder, allowed_of (selectOrder_allowed (sel _ _))⟩
  | init =>
    simp only [body, initialise]
    split
    · exact nothing
    · obtain ⟨evs, h, ha⟩ := probe
      exact ⟨evs, h.set _ _ _ _, ha⟩
  | probeAll => exact probe
  | select id => exact select id
  | ensureSelected id => exact ensure id
  | selectPosition ch m =>
    obtain ⟨vs, q, -, h, -⟩ := selectPosition_spec s.params ch m s.run
    exact ⟨_, State.acts_withRun h, allowed_of selectEvents_allowed⟩
  | poll ch c t e n =>
    obtain ⟨l, q, b, k, -, h, -⟩ := poll_spec s.params ch c t e n s.run
    exact ⟨_, State.acts_withRun h, allowed_of statusEvents_allowed⟩
  | identify ch m =>
    obtain ⟨evs, ht, h, -⟩ := identify_spec s.params ch m s.run
    exact ⟨_, State.acts_withRun h, allowed_of ht.allowed⟩
  | decode | readSectors48 | writeSectors48 => exact nothing
  | readSectors d lba n b => exact reads s d lba n b rfl
  | writeSectors d lba n b => exact writes s d lba n b rfl
  | read d b off size =>
    simp only [body, readBytes]
    split
    · exact nothing
    · obtain ⟨e, he, hp⟩ := ensure d
      obtain ⟨f, hf, hq⟩ := reads (ensureSelected d s).2 d _ _ b he.params
      exact ⟨_, he.trans hf, List.forall_mem_append.2 ⟨hp, hq⟩⟩
  | write d b off size =>
    simp only [body, writeBytes]
    split
    · exact nothing
    · obtain ⟨e, he, hp⟩ := ensure d
      obtain ⟨f, hf, hq⟩ := writes (ensureSelected d s).2 d _ _ b he.params
      exact ⟨_, he.trans hf, List.forall_mem_append.2 ⟨hp, hq⟩⟩

/-! ### All bodies: what they do not look at -/

/-- A state with another phase, another stalling access and another result delivered last. -/
def State.masked (ph : Phase) (st : Option Nat) (res : Option Result) (s : State) : State :=
  { s with phase := ph, stall := st, result := res }

/-- No body looks at the phase, the stalling access or the last result, and none writes them. -/
theorem body_masked (i : Instr) (ph : Phase) (st : Option Nat) (res : Option Result) (s : State) :
    body i (s.masked ph st res) = ((body i s).1, (body i s).2.masked ph st res) := by
  have select : ∀ id (s : State),
      selectDevice id (s.masked ph st res) = ((selectDevice id s).1, (selectDevice id s).2.masked ph st res) := by
    intro id s
    rcases hd : s.dev[id]? with _ | d
    · rw [selectDevice_none hd, selectDevice_none (s := s.masked ph st res) hd]
    · simp only [selectDevice, hd, show (s.masked ph st res).dev = s.dev from rfl]
      rfl
  have ensure : ∀ id, ensureSelected id (s.masked ph st res) =
      ((ensureSelected id s).1, (ensureSelected id s).2.masked ph st res) := by
    intro id
    simp only [ensureSelected, show (s.masked ph st res).selected = s.selected from rfl, select]
    split <;> rfl
  have reads : ∀ (t : State) (d : Nat) (lba : BitVec 32) (n : Byte) (b : Nat),
      readSectors d lba n b (t.masked ph st res) =
        ((readSectors d lba n b t).1, (readSectors d lba n b t).2.masked ph st res) := by
    intro t d lba n b
    simp only [readSectors, show (t.masked ph st res).dev = t.dev from rfl]
    split <;> rfl
  have writes : ∀ (t : State) (d : Nat) (lba : BitVec 32) (n : Byte) (b : Nat),
      writeSectors d lba n b (t.masked ph st res) =
        ((writeSectors d lba n b t).1, (writeSectors d lba n b t).2.masked ph st res) := by
    intro t d lba n b
    simp only [writeSectors, show (t.masked ph st res).dev = t.dev from rfl]
    split <;> rfl
  have probe : probeAll (s.masked ph st res) = (probeAll s).masked ph st res := by
    have hp : probePositions (s.masked ph st res) = (probePositions s).masked ph st res := rfl
    simp only [probeAll, hp, select, show ((probePositions s).masked ph st res).count = (probePositions s).count from rfl]
    split <;> rfl
  cases i with
  | init =>
    simp only [body, initialise, probe, show (s.masked ph st res).initDone = s.initDone from rfl]
    split <;> rfl
  | probeAll => simp only [body, probe]
  | select id => exact select id s
  | ensureSelected id => exact ensure id
  | readSectors d lba n b => exact reads s d lba n b
  | writeSectors d lba n b => exact writes s d lba n b
  | read d b off size =>
    simp only [body, readBytes, show (s.masked ph st res).dev = s.dev from rfl, ensure, reads]
    split <;> rfl
  | write d b off size =>
    simp only [body, writeBytes, show (s.masked ph st res).dev = s.dev from rfl, ensure, writes]
    split <;> rfl
  | identifyCmd | readSectorsCmd | writeSectorsCmd | flushCacheCmd | selMaster | selSlave | xferSelMaster | xferSelSlave
  | selectPosition | poll | identify | decode | readSectors48 | writeSectors48 => rfl

end Sys2Proof.Machine
end

