-- ==== Sys2Proof/Laws/Cases.lean ====
section
/-! SUPPORT. Case lemmas: each request either is refused by its checks, and then nothing happens, or goes through its
rule's trace; and what the next state of an instruction holds, given the accesses of its body. -/
namespace Sys2Proof.Machine

/-! ### The next state of an instruction -/

section next
variable {i : Instr} {s t : State} {evs : List Event} (h : exec i s = .next t)
include h

theorem exec_result : t.result = some (body i (s.accept i)).1 := by rw [(exec_next h).2]; rfl

variable (ha : (s.accept i).Acts evs (body i (s.accept i)).2)
include ha

theorem exec_newEvents : newEvents s t = evs := by
  have hl : t.log = evs.reverse ++ s.log := by
    rw [(exec_next h).2]
    show (body i (s.accept i)).2.log = _
    rw [ha.result]
    rfl
  simp [newEvents, hl]

theorem exec_mem : t.mem = replay evs s.mem := by rw [(exec_next h).2]; exact ha.mem

theorem exec_accesses : t.accesses = s.accesses + evs.countP Event.isPort := by
  rw [(exec_next h).2]
  exact ha.accesses

end next

/-- A body that does nothing makes no event. -/
theorem exec_newEvents_quiet {i : Instr} {s t : State} {res : Result} (h : exec i s = .next t)
    (hb : body i (s.accept i) = (res, s.accept i)) : newEvents s t = [] :=
  exec_newEvents h (by rw [hb]; exact State.Acts.refl _)

/-! ### The checks (44_sector_transfer R171, 45_byte_entry R202) -/

theorem badSectorSize_eq_false {x : BitVec 64} : badSectorSize x = false ↔ x ≠ 0#64 ∧ x.toNat % 2 = 0 := by
  have hx : x = 0#64 ↔ x.toNat = 0 := by rw [← BitVec.toNat_inj]; rfl
  simp [badSectorSize, hx]

theorem badSectorSize_eq_true {x : BitVec 64} : badSectorSize x = true ↔ x = 0#64 ∨ x.toNat % 2 = 1 := by
  have hx : x = 0#64 ↔ x.toNat = 0 := by rw [← BitVec.toNat_inj]; rfl
  simp [badSectorSize, hx]

theorem lbaTopNibble_eq_zero {lba : BitVec 32} : lbaTopNibble lba = 0#4 ↔ lba.toNat < 2 ^ 28 := by
  rw [← BitVec.toNat_inj]
  simp only [lbaTopNibble, BitVec.extractLsb'_toNat, Nat.shiftRight_eq_div_pow, BitVec.toNat_ofNat]
  have := lba.isLt
  omega

theorem transferChecks_error {dev : List Device} {device : Nat} {lba : BitVec 32} {cnt : Byte} {kind : ErrorKind}
    (h : transferChecks dev device lba cnt = .error kind) : kind = .unsupportedAddress ∨ kind = .invalidArgument := by
  simp only [transferChecks] at h
  split at h
  · cases h; exact .inl rfl
  · split at h
    · cases h; exact .inr rfl
    · split at h
      · cases h; exact .inr rfl
      · split at h <;> cases h
        exact .inr rfl

theorem entryChecks_error {dev : List Device} {id : Nat} {off size : BitVec 64} {kind : ErrorKind}
    (h : entryChecks dev id off size = .error kind) : kind = .unsupportedAddress ∨ kind = .invalidArgument := by
  simp only [entryChecks] at h
  split at h
  · cases h; exact .inr rfl
  · split at h
    · cases h; exact .inr rfl
    · split at h
      · cases h; exact .inr rfl
      · split at h
        · cases h; exact .inl rfl
        · split at h <;> cases h
          exact .inr rfl

/-! ### Selection (41_selection R121, R122) -/

/-- SELECT leaves the registry and `init_done`; it sets `selected` to its operand or leaves it. -/
theorem selectDevice_engine (id : Nat) (s : State) :
    (selectDevice id s).2.dev = s.dev ∧ (selectDevice id s).2.initDone = s.initDone ∧
      ((selectDevice id s).2.selected = s.selected ∨
        ((selectDevice id s).2.selected = .device id ∧ id < s.count)) := by
  rcases hd : s.dev[id]? with _ | d
  · rw [selectDevice_none hd]
    exact ⟨rfl, rfl, .inl rfl⟩
  · obtain ⟨-, -, -, -, h₁, h₂, h₃⟩ := selectDevice_some hd
    exact ⟨h₁, h₃, .inr ⟨h₂, (List.getElem?_eq_some_iff.1 hd).1⟩⟩

/-- ENSURE_SELECTED likewise. -/
theorem ensureSelected_engine (id : Nat) (s : State) :
    (ensureSelected id s).2.dev = s.dev ∧ (ensureSelected id s).2.initDone = s.initDone ∧
      ((ensureSelected id s).2.selected = s.selected ∨
        ((ensureSelected id s).2.selected = .device id ∧ id < s.count)) := by
  simp only [ensureSelected]
  split
  · exact ⟨rfl, rfl, .inl rfl⟩
  · exact selectDevice_engine id s

theorem ensureSelected_mem (id : Nat) (s : State) : (ensureSelected id s).2.mem = s.mem := by
  simp only [ensureSelected]
  split
  · rfl
  · rcases hd : s.dev[id]? with _ | d
    · rw [selectDevice_none hd]
    · obtain ⟨vs, -, -, h, -⟩ := selectDevice_some hd
      rw [h.mem]
      exact replay_noBufferWrite noBufferWrite_select _

/-- SELECT succeeds, or does nothing but return the error. -/
theorem selectDevice_result (id : Nat) (s : State) :
    (selectDevice id s).1 = .nothing ∨ selectDevice id s = (.err .invalidArgument 0, s) := by
  rcases hd : s.dev[id]? with _ | d
  · exact .inr (selectDevice_none hd)
  · obtain ⟨-, -, h, -⟩ := selectDevice_some hd
    exact .inl h

theorem ensureSelected_result (id : Nat) (s : State) :
    (ensureSelected id s).1 = .nothing ∨ ensureSelected id s = (.err .invalidArgument 0, s) := by
  simp only [ensureSelected]
  split
  · exact .inl rfl
  · exact selectDevice_result id s

/-! ### Transfers (44_sector_transfer R173, R174) -/

/-- A read trace ends with every sector, or in a sector it did not complete. -/
theorem ReadTrace.result {p : Params} {ch : Channel} {size out k m : Nat} {evs : List Event} {res : Result}
    (h : ReadTrace p ch size out k m evs res) :
    res = .ok (k + m) ∨ ∃ j, k ≤ j ∧ j < k + m ∧ (res = .err .protocolError j ∨ res = .err .timeout j) := by
  induction h with
  | done k => exact .inl rfl
  | pollError k m => exact .inr ⟨k, le_rfl, by omega, .inl rfl⟩
  | pollTimeout k m => exact .inr ⟨k, le_rfl, by omega, .inr rfl⟩
  | sector k m _ _ _ _ _ _ _ _ _ ih =>
    rcases ih with rfl | ⟨j, h₁, h₂, h₃⟩
    · exact .inl (congrArg _ (by omega))
    · exact .inr ⟨j, by omega, by omega, h₃⟩

/-- A write trace likewise. -/
theorem WriteTrace.result {p : Params} {ch : Channel} {size data k m : Nat} {mem : Memory} {evs : List Event}
    {res : Result} (h : WriteTrace p ch size data mem k m evs res) :
    res = .ok (k + m) ∨ ∃ j, k ≤ j ∧ j < k + m ∧ (res = .err .protocolError j ∨ res = .err .timeout j) := by
  induction h with
  | done k => exact .inl rfl
  | pollError k m => exact .inr ⟨k, le_rfl, by omega, .inl rfl⟩
  | pollTimeout k m => exact .inr ⟨k, le_rfl, by omega, .inr rfl⟩
  | flushTimeout k m => exact .inr ⟨k, le_rfl, by omega, .inr rfl⟩
  | sector k m _ _ _ _ _ _ _ ih =>
    rcases ih with rfl | ⟨j, h₁, h₂, h₃⟩
    · exact .inl (congrArg _ (by omega))
    · exact .inr ⟨j, by omega, by omega, h₃⟩

/-- READ_SECTORS: refused, or run. -/
theorem readSectors_cases (device : Nat) (lba : BitVec 32) (cnt : Byte) (out : Nat) (s : State) :
    (∃ kind, (kind = .unsupportedAddress ∨ kind = .invalidArgument) ∧
      readSectors device lba cnt out s = (.err kind 0, s)) ∨
    ∃ d evs, transferChecks s.dev device lba cnt = .ok d ∧
      ReadTrace s.params (s.params.channelOf d) d.logicalSectorSize.toNat out 0 cnt.toNat evs
        (readSectors device lba cnt out s).1 ∧
      s.Acts (setupEvents s.params (s.params.channelOf d) d.isMaster 0x20#8 lba cnt ++ evs)
        (readSectors device lba cnt out s).2 := by
  rcases hc : transferChecks s.dev device lba cnt with kind | d
  · exact .inl ⟨kind, transferChecks_error hc, by simp only [readSectors, hc]; rfl⟩
  · obtain ⟨evs, ht, ha, -⟩ := readSectors_acts hc out
    exact .inr ⟨d, evs, rfl, ht, ha⟩

/-- WRITE_SECTORS: refused, or run. -/
theorem writeSectors_cases (device : Nat) (lba : BitVec 32) (cnt : Byte) (data : Nat) (s : State) :
    (∃ kind, (kind = .unsupportedAddress ∨ kind = .invalidArgument) ∧
      writeSectors device lba cnt data s = (.err kind 0, s)) ∨
    ∃ d evs, transferChecks s.dev device lba cnt = .ok d ∧
      WriteTrace s.params (s.params.channelOf d) d.logicalSectorSize.toNat data s.mem 0 cnt.toNat evs
        (writeSectors device lba cnt data s).1 ∧
      s.Acts (setupEvents s.params (s.params.channelOf d) d.isMaster 0x30#8 lba cnt ++ evs)
        (writeSectors device lba cnt data s).2 := by
  rcases hc : transferChecks s.dev device lba cnt with kind | d
  · exact .inl ⟨kind, transferChecks_error hc, by simp only [writeSectors, hc]; rfl⟩
  · obtain ⟨evs, ht, ha, -⟩ := writeSectors_acts hc data
    exact .inr ⟨d, evs, rfl, ht, ha⟩

/-! ### READ and WRITE (45_byte_entry R200, R201) -/

/-- READ: refused, or run. -/
theorem readBytes_cases (id buffer : Nat) (off size : BitVec 64) (s : State) :
    (∃ kind, (kind = .unsupportedAddress ∨ kind = .invalidArgument) ∧
      readBytes id buffer off size s = (.err kind 0, s)) ∨
    ∃ d lba cnt vs evs, entryChecks s.dev id off size = .ok (lba, cnt) ∧ transferChecks s.dev id lba cnt = .ok d ∧
      vs.length = 4 ∧ off.toNat = lba.toNat * d.logicalSectorSize.toNat ∧
      size.toNat = cnt.toNat * d.logicalSectorSize.toNat ∧
      ReadTrace s.params (s.params.channelOf d) d.logicalSectorSize.toNat buffer 0 cnt.toNat evs
        (readBytes id buffer off size s).1 ∧
      s.Acts ((if s.selected = .device id then [] else selectEvents s.params (s.params.channelOf d) d.isMaster vs) ++
          (setupEvents s.params (s.params.channelOf d) d.isMaster 0x20#8 lba cnt ++ evs))
        (readBytes id buffer off size s).2 := by
  rcases hc : entryChecks s.dev id off size with kind | ⟨lba, cnt⟩
  · exact .inl ⟨kind, entryChecks_error hc, by simp only [readBytes, hc]; rfl⟩
  · obtain ⟨d, hd, ht, ho, hs⟩ := entryChecks_ok hc
    obtain ⟨vs, hlen, ha, hdev, -, -⟩ := ensureSelected_some hd
    obtain ⟨evs, h₁, h₂, -⟩ := readSectors_acts (s := (ensureSelected id s).2) (by rw [hdev]; exact ht) buffer
    rw [ha.params] at h₁ h₂
    refine .inr ⟨d, lba, cnt, vs, evs, rfl, ht, hlen, ho, hs, ?_, ?_⟩ <;> simp only [readBytes, hc]
    · exact h₁
    · exact ha.trans h₂

/-- WRITE: refused, or run. -/
theorem writeBytes_cases (id buffer : Nat) (off size : BitVec 64) (s : State) :
    (∃ kind, (kind = .unsupportedAddress ∨ kind = .invalidArgument) ∧
      writeBytes id buffer off size s = (.err kind 0, s)) ∨
    ∃ d lba cnt vs evs, entryChecks s.dev id off size = .ok (lba, cnt) ∧ transferChecks s.dev id lba cnt = .ok d ∧
      vs.length = 4 ∧ off.toNat = lba.toNat * d.logicalSectorSize.toNat ∧
      size.toNat = cnt.toNat * d.logicalSectorSize.toNat ∧
      WriteTrace s.params (s.params.channelOf d) d.logicalSectorSize.toNat buffer s.mem 0 cnt.toNat evs
        (writeBytes id buffer off size s).1 ∧
      s.Acts ((if s.selected = .device id then [] else selectEvents s.params (s.params.channelOf d) d.isMaster vs) ++
          (setupEvents s.params (s.params.channelOf d) d.isMaster 0x30#8 lba cnt ++ evs))
        (writeBytes id buffer off size s).2 := by
  rcases hc : entryChecks s.dev id off size with kind | ⟨lba, cnt⟩
  · exact .inl ⟨kind, entryChecks_error hc, by simp only [writeBytes, hc]; rfl⟩
  · obtain ⟨d, hd, ht, ho, hs⟩ := entryChecks_ok hc
    obtain ⟨vs, hlen, ha, hdev, -, -⟩ := ensureSelected_some hd
    obtain ⟨evs, h₁, h₂, -⟩ := writeSectors_acts (s := (ensureSelected id s).2) (by rw [hdev]; exact ht) buffer
    rw [ha.params] at h₁ h₂
    rw [ensureSelected_mem] at h₁
    refine .inr ⟨d, lba, cnt, vs, evs, rfl, ht, hlen, ho, hs, ?_, ?_⟩ <;> simp only [writeBytes, hc]
    · exact h₁
    · exact ha.trans h₂

/-! ### Probing (42_identification_and_probe R133) -/

theorem appendFound_eq (p : Params) (ch : Channel) (m : Bool) (found : Option (Vector Word 256)) (dev : List Device) :
    appendFound p ch m found dev = dev ++ (found.map (makeRecord p ch m)).toList := by
  cases found <;> simp [appendFound]

/-- The registry after probing: what answered, in probe order. -/
theorem probeAll_dev (s : State) :
    ∃ f₀ f₁ f₂ f₃ : Option (Vector Word 256), (probeAll s).dev =
      (f₀.map (makeRecord s.params .primary true)).toList ++ (f₁.map (makeRecord s.params .primary false)).toList ++
        (f₂.map (makeRecord s.params .secondary true)).toList ++
        (f₃.map (makeRecord s.params .secondary false)).toList := by
  obtain ⟨-, -, -, -, f₀, f₁, f₂, f₃, -, -, -, -, -, -, -, hd, -⟩ := probeAll_acts s
  exact ⟨f₀, f₁, f₂, f₃, by rw [hd]; simp [appendFound_eq]⟩

end Sys2Proof.Machine
end

