-- ==== Sys2Proof/Laws/PerInstr.lean ====
section
/-! SUPPORT. Statements made instruction by instruction. -/
namespace Sys2Proof.Laws

/-- The mnemonics of the rows that a byte matches. -/
def TableRow.rowNames (rows : List Row) (code : Byte) : List String :=
  (rows.filter fun r => code &&& r.mask == r.pattern).map Row.mnemonic

/-- The byte an instruction is encoded as matches exactly one row of its name space in the opcode table, and that row is
the instruction's own (30_encoding R70). -/
def TableRow.Statement (i : Instr) : Prop :=
  rowNames (rowsOf (encode i).dest) (encode i).code = [i.mnemonic]

namespace TableRow

/-- The command and select bytes that have no field. -/
theorem fixed_bytes :
    rowNames commandRows Command.identify.byte = ["IDENTIFY_CMD"] ∧
      rowNames commandRows Command.readSectors.byte = ["READ_SECTORS_CMD"] ∧
      rowNames commandRows Command.writeSectors.byte = ["WRITE_SECTORS_CMD"] ∧
      rowNames commandRows Command.flushCache.byte = ["FLUSH_CACHE_CMD"] ∧
      rowNames selectRows (selectByte true) = ["SEL_MASTER"] ∧
      rowNames selectRows (selectByte false) = ["SEL_SLAVE"] := by
  decide

/-- The request codes. -/
theorem request_codes :
    rowNames requestRows ReqOp.init.code = ["INIT"] ∧
      rowNames requestRows ReqOp.read.code = ["READ"] ∧
      rowNames requestRows ReqOp.write.code = ["WRITE"] ∧
      rowNames requestRows ReqOp.probeAll.code = ["PROBE_ALL"] ∧
      rowNames requestRows ReqOp.select.code = ["SELECT"] ∧
      rowNames requestRows ReqOp.selectPosition.code = ["SELECT_POSITION"] ∧
      rowNames requestRows ReqOp.ensureSelected.code = ["ENSURE_SELECTED"] ∧
      rowNames requestRows ReqOp.poll.code = ["POLL"] ∧
      rowNames requestRows ReqOp.identify.code = ["IDENTIFY"] ∧
      rowNames requestRows ReqOp.decode.code = ["DECODE"] ∧
      rowNames requestRows ReqOp.readSectors.code = ["READ_SECTORS"] ∧
      rowNames requestRows ReqOp.writeSectors.code = ["WRITE_SECTORS"] ∧
      rowNames requestRows ReqOp.readSectors48.code = ["READ_SECTORS48"] ∧
      rowNames requestRows ReqOp.writeSectors48.code = ["WRITE_SECTORS48"] := by
  decide

theorem identifyCmd (ch : Channel) : Statement (.identifyCmd ch) := fixed_bytes.1
theorem readSectorsCmd (ch : Channel) : Statement (.readSectorsCmd ch) := fixed_bytes.2.1
theorem writeSectorsCmd (ch : Channel) : Statement (.writeSectorsCmd ch) := fixed_bytes.2.2.1
theorem flushCacheCmd (ch : Channel) : Statement (.flushCacheCmd ch) := fixed_bytes.2.2.2.1
theorem selMaster (ch : Channel) : Statement (.selMaster ch) := fixed_bytes.2.2.2.2.1
theorem selSlave (ch : Channel) : Statement (.selSlave ch) := fixed_bytes.2.2.2.2.2
theorem xferSelMaster (ch : Channel) (l : BitVec 4) : Statement (.xferSelMaster ch l) := by
  simp only [Statement, encode, rowsOf, Instr.mnemonic]
  decide +revert
theorem xferSelSlave (ch : Channel) (l : BitVec 4) : Statement (.xferSelSlave ch l) := by
  simp only [Statement, encode, rowsOf, Instr.mnemonic]
  decide +revert
theorem init : Statement .init := request_codes.1
theorem read (d b : Nat) (off size : BitVec 64) : Statement (.read d b off size) := request_codes.2.1
theorem write (d b : Nat) (off size : BitVec 64) : Statement (.write d b off size) := request_codes.2.2.1
theorem probeAll : Statement .probeAll := request_codes.2.2.2.1
theorem select (i : Nat) : Statement (.select i) := request_codes.2.2.2.2.1
theorem selectPosition (ch : Channel) (m : Bool) : Statement (.selectPosition ch m) := request_codes.2.2.2.2.2.1
theorem ensureSelected (i : Nat) : Statement (.ensureSelected i) := request_codes.2.2.2.2.2.2.1
theorem poll (ch : Channel) (c s e : Byte) (n : Nat) : Statement (.poll ch c s e n) := request_codes.2.2.2.2.2.2.2.1
theorem identify (ch : Channel) (m : Bool) : Statement (.identify ch m) := request_codes.2.2.2.2.2.2.2.2.1
theorem decode (w : Vector Word 256) : Statement (.decode w) := request_codes.2.2.2.2.2.2.2.2.2.1
theorem readSectors (d : Nat) (lba : BitVec 32) (n : Byte) (b : Nat) : Statement (.readSectors d lba n b) :=
  request_codes.2.2.2.2.2.2.2.2.2.2.1
theorem writeSectors (d : Nat) (lba : BitVec 32) (n : Byte) (b : Nat) : Statement (.writeSectors d lba n b) :=
  request_codes.2.2.2.2.2.2.2.2.2.2.2.1
theorem readSectors48 (d : Nat) (lba : BitVec 64) (n : Byte) (b : Nat) : Statement (.readSectors48 d lba n b) :=
  request_codes.2.2.2.2.2.2.2.2.2.2.2.2.1
theorem writeSectors48 (d : Nat) (lba : BitVec 64) (n : Byte) (b : Nat) : Statement (.writeSectors48 d lba n b) :=
  request_codes.2.2.2.2.2.2.2.2.2.2.2.2.2

end TableRow

end Sys2Proof.Laws
end

