-- ==== Sys2Proof/Laws/Words.lean ====
section
/-! SUPPORT. The data words of a trace: what the traces of the rules receive and send, and where it lies in the
buffer. -/
namespace Sys2Proof.Machine

@[simp] theorem receivedWords_append (e f : List Event) :
    receivedWords (e ++ f) = receivedWords e ++ receivedWords f := by simp [receivedWords]
@[simp] theorem sentWords_append (e f : List Event) : sentWords (e ++ f) = sentWords e ++ sentWords f := by
  simp [sentWords]
@[simp] theorem receivedWords_status (p : Params) (ch : Channel) (l : List Byte) :
    receivedWords (statusEvents p ch l) = [] := by simp [receivedWords, statusEvents]
@[simp] theorem sentWords_status (p : Params) (ch : Channel) (l : List Byte) :
    sentWords (statusEvents p ch l) = [] := by simp [sentWords, statusEvents]
@[simp] theorem receivedWords_setup (p : Params) (ch : Channel) (m : Bool) (op : Byte) (lba : BitVec 32) (cnt : Byte) :
    receivedWords (setupEvents p ch m op lba cnt) = [] := rfl
@[simp] theorem sentWords_setup (p : Params) (ch : Channel) (m : Bool) (op : Byte) (lba : BitVec 32) (cnt : Byte) :
    sentWords (setupEvents p ch m op lba cnt) = [] := rfl
@[simp] theorem receivedWords_select (p : Params) (ch : Channel) (m : Bool) (vs : List Byte) :
    receivedWords (selectEvents p ch m vs) = [] := by simp [receivedWords, selectEvents]
@[simp] theorem sentWords_select (p : Params) (ch : Channel) (m : Bool) (vs : List Byte) :
    sentWords (selectEvents p ch m vs) = [] := by simp [sentWords, selectEvents]

@[simp] theorem receivedWords_readWords (port base j : Nat) (ws : List Word) :
    receivedWords (readWordEvents port base j ws) = ws := by
  induction ws generalizing j with
  | nil => rfl
  | cons v ws ih => exact congrArg (v :: ·) (ih (j + 1))

@[simp] theorem sentWords_writeWords_length (port base : Nat) (mem : Memory) (j n : Nat) :
    (sentWords (writeWordEvents port base mem j n)).length = n := by
  induction n generalizing j with
  | zero => rfl
  | succ n ih => exact congrArg (· + 1) (ih (j + 1))

/-- Word `n` of a sector sent is the buffer's word at `base + 2 * (j + n)`. -/
theorem sentWords_writeWords (port base : Nat) (mem : Memory) (j m n : Nat) :
    (sentWords (writeWordEvents port base mem j m))[n]? =
      if n < m then some (Memory.readWord mem (base + 2 * (j + n))) else none := by
  induction m generalizing j n with
  | zero => simp [sentWords, writeWordEvents]
  | succ m ih =>
    show (_ :: sentWords (writeWordEvents port base mem (j + 1) m))[n]? = _
    cases n with
    | zero => simp
    | succ n =>
      rw [List.getElem?_cons_succ, ih]
      simp only [Nat.add_lt_add_iff_right]
      congr 4
      omega

/-- Word `n` of a sector received stands at `base + 2 * (j + n)`. -/
theorem replay_readWords {mem : Memory} (hm : Memory.wf mem) (port base j : Nat) (ws : List Word) (n : Nat) (v : Word)
    (h : ws[n]? = some v) :
    Memory.read (replay (readWordEvents port base j ws) mem) (base + 2 * (j + n)) = v.extractLsb' 0 8 ∧
    Memory.read (replay (readWordEvents port base j ws) mem) (base + 2 * (j + n) + 1) = v.extractLsb' 8 8 := by
  induction ws generalizing j mem n with
  | nil => simp at h
  | cons w ws ih =>
    have hm' := Memory.writeWord_wf hm (base + 2 * j) w
    cases n with
    | zero =>
      cases h
      have hr : ∀ c, c < base + 2 * (j + 1) →
          Memory.read (replay (readWordEvents port base j (v :: ws)) mem) c =
            Memory.read (Memory.writeWord mem (base + 2 * j) v) c := by
        intro c hc
        refine read_replay_other (evs := readWordEvents port base (j + 1) ws) ?_ _
        intro a u ha
        have := readWordEvents_mem ha
        omega
      rw [hr _ (by omega), hr _ (by omega)]
      exact ⟨Memory.read_writeWord_low hm _ _, Memory.read_writeWord_high hm _ _⟩
    | succ n =>
      have hi := ih hm' (j + 1) n h
      rwa [show base + 2 * (j + 1 + n) = base + 2 * (j + (n + 1)) by omega] at hi

/-- A word read from the buffer, as a number. -/
theorem Memory.readWord_toNat (mem : Memory) (a : Nat) :
    (Memory.readWord mem a).toNat = (Memory.read mem a).toNat + (Memory.read mem (a + 1)).toNat * 256 := by
  simp only [Memory.readWord, BitVec.toNat_append]
  have := (Memory.read mem a).isLt
  rw [← Nat.shiftLeft_add_eq_or_of_lt (by omega), Nat.shiftLeft_eq]
  omega

/-- The buffer writes of a read trace lie in the sectors it completed. -/
theorem ReadTrace.bufferWrites {p : Params} {ch : Channel} {size out k m : Nat} {evs : List Event} {res : Result}
    (h : ReadTrace p ch size out k m evs res) (hs : size % 2 = 0) (a : Nat) (v : Word) (ha : Event.mw a v ∈ evs) :
    out + k * size ≤ a ∧ a + 1 < out + res.sectors * size := by
  induction h with
  | done => simp at ha
  | pollError k m l => exact absurd ha (noBufferWrite_status a v)
  | pollTimeout k m l => exact absurd ha (noBufferWrite_status a v)
  | sector k m l l' ws evs res hl hw hl' ht ih =>
    have hk : k + 1 ≤ res.sectors := by
      rcases ReadTrace.result ht with rfl | ⟨j, h₁, h₂, rfl | rfl⟩ <;> simp only [Result.sectors] <;> omega
    have hk' : (k + 1) * size ≤ res.sectors * size := Nat.mul_le_mul_right _ hk
    rw [Nat.add_mul, Nat.one_mul] at hk' ih
    simp only [List.mem_append] at ha
    rcases ha with ((ha | ha) | ha) | ha
    · exact absurd ha (noBufferWrite_status a v)
    · have := readWordEvents_mem ha
      rw [hw] at this
      constructor <;> omega
    · exact absurd ha (noBufferWrite_status a v)
    · have := ih ha
      constructor <;> omega

end Sys2Proof.Machine
end

