-- ==== Sys2Proof/Tests/Slice0.lean ====
section
/-! SUPPORT. The model's own tests: smoke tests of well-formedness and decoding, a few vectors of 95_test_vectors with
the results written there, and for every statement with hypotheses a state and operands that meet them. -/
namespace Sys2Proof.Tests
open Sys2Proof.Machine

/-! ### Well-formedness and decoding -/

/-- 30_encoding R79: `budget` is at least 1. -/
theorem test_wellFormed_refuses_zero_budget :
    Instr.wellFormed (.poll .primary 0x80#8 0#8 1#8 0) = false ∧ Instr.wellFormed (.poll .primary 0x80#8 0#8 1#8 1) = true := by
  decide

/-- 30_encoding R79, R81: a malformed raw instruction is rejected under its own name. -/
theorem test_decode_rejects :
    decodeRaw ⟨.request, 0x7F#8, []⟩ = .error .unknownRequestCode ∧
    decodeRaw ⟨.command .primary, 0x24#8, []⟩ = .error .notACommandByte ∧
    decodeRaw ⟨.deviceSelect .primary, 0xC0#8, []⟩ = .error .notASelectByte ∧
    decodeRaw ⟨.request, 0x11#8, []⟩ = .error .wrongArgumentCount ∧
    decodeRaw ⟨.request, 0x12#8, [2, 0]⟩ = .error .argumentTooWide ∧
    decodeRaw ⟨.request, 0x17#8, [0, 2 ^ 32, 1, 0]⟩ = .error .argumentTooWide := by
  decide

/-- 30_encoding R71, R73, R74: command and select bytes written out bit by bit. -/
theorem test_decode_command_and_select_bytes :
    decodeRaw ⟨.command .secondary, 0b11101100#8, []⟩ = .ok (.identifyCmd .secondary) ∧
    decodeRaw ⟨.command .primary, 0b00100000#8, []⟩ = .ok (.readSectorsCmd .primary) ∧
    decodeRaw ⟨.command .primary, 0b00110000#8, []⟩ = .ok (.writeSectorsCmd .primary) ∧
    decodeRaw ⟨.command .primary, 0b11100111#8, []⟩ = .ok (.flushCacheCmd .primary) ∧
    decodeRaw ⟨.deviceSelect .primary, 0b10100000#8, []⟩ = .ok (.selMaster .primary) ∧
    decodeRaw ⟨.deviceSelect .primary, 0b10110000#8, []⟩ = .ok (.selSlave .primary) ∧
    decodeRaw ⟨.deviceSelect .primary, 0b11101101#8, []⟩ = .ok (.xferSelMaster .primary 0b1101#4) ∧
    decodeRaw ⟨.deviceSelect .primary, 0b11110001#8, []⟩ = .ok (.xferSelSlave .primary 0b0001#4) := by
  decide

/-- 30_encoding R79: every request code, with arguments in the order of the table. -/
theorem test_decode_requests :
    decodeRaw ⟨.request, 0x00#8, []⟩ = .ok .init ∧
    decodeRaw ⟨.request, 0x01#8, [1, 2, 3, 4]⟩ = .ok (.read 1 2 3#64 4#64) ∧
    decodeRaw ⟨.request, 0x02#8, [1, 2, 3, 4]⟩ = .ok (.write 1 2 3#64 4#64) ∧
    decodeRaw ⟨.request, 0x10#8, []⟩ = .ok .probeAll ∧
    decodeRaw ⟨.request, 0x11#8, [3]⟩ = .ok (.select 3) ∧
    decodeRaw ⟨.request, 0x12#8, [0, 1]⟩ = .ok (.selectPosition .primary true) ∧
    decodeRaw ⟨.request, 0x13#8, [3]⟩ = .ok (.ensureSelected 3) ∧
    decodeRaw ⟨.request, 0x14#8, [1, 2, 3, 4, 5]⟩ = .ok (.poll .secondary 2#8 3#8 4#8 5) ∧
    decodeRaw ⟨.request, 0x15#8, [1, 0]⟩ = .ok (.identify .secondary false) ∧
    decodeRaw ⟨.request, 0x17#8, [1, 2, 3, 4]⟩ = .ok (.readSectors 1 2#32 3#8 4) ∧
    decodeRaw ⟨.request, 0x18#8, [1, 2, 3, 4]⟩ = .ok (.writeSectors 1 2#32 3#8 4) ∧
    decodeRaw ⟨.request, 0x19#8, [1, 2 ^ 32, 3, 4]⟩ = .ok (.readSectors48 1 0x100000000#64 3#8 4) ∧
    decodeRaw ⟨.request, 0x1A#8, [1, 2, 3, 4]⟩ = .ok (.writeSectors48 1 2#64 3#8 4) := by
  decide

set_option maxRecDepth 20000 in
/-- 30_encoding R79: DECODE takes 256 words, and no other number. -/
theorem test_decode_buffer :
    decodeRaw ⟨.request, 0x16#8, List.replicate 256 7⟩ = .ok (.decode (Vector.replicate 256 7#16)) ∧
    decodeRaw ⟨.request, 0x16#8, List.replicate 255 7⟩ = .error .wrongArgumentCount := by
  decide

/-- opcode_table.json: the bytes of the 22 rows. -/
def tableBytes : List Nat :=
  [0xEC, 0x20, 0x30, 0xE7, 0xA0, 0xB0, 0xE0, 0xF0] ++
    [0x00, 0x01, 0x02, 0x10, 0x11, 0x12, 0x13, 0x14, 0x15, 0x16, 0x17, 0x18, 0x19, 0x1A]

/-- The mnemonics of the 22 rows, in the same order. -/
def tableNames : List String :=
  ["IDENTIFY_CMD", "READ_SECTORS_CMD", "WRITE_SECTORS_CMD", "FLUSH_CACHE_CMD", "SEL_MASTER", "SEL_SLAVE",
    "XFER_SEL_MASTER", "XFER_SEL_SLAVE"] ++
    ["INIT", "READ", "WRITE", "PROBE_ALL", "SELECT", "SELECT_POSITION", "ENSURE_SELECTED", "POLL", "IDENTIFY",
      "DECODE", "READ_SECTORS", "WRITE_SECTORS", "READ_SECTORS48", "WRITE_SECTORS48"]

set_option maxRecDepth 20000 in
/-- Each row's byte decodes to the row's instruction. -/
theorem test_table_rows_decode :
    (tableBytes.map fun w => (decodeTableWord 8 w).map Instr.mnemonic) = tableNames.map some := by
  decide

set_option maxRecDepth 20000 in
/-- Each row's byte, issued after reset, is the next thing the machine runs, and it runs to a next state (POLL with a
budget of zero among them, log 16). -/
theorem test_table_rows_run :
    tableBytes.all (fun w =>
      match step (State.reset.withFetchWord 8 w) with
      | .next _ => true
      | .fault _ => false
      | .refused _ => false) = true := by
  decide

/-! ### Fixtures -/

/-- The default map, with budgets of three reads (95_test_vectors uses 3). -/
def params : Params := { Params.default with pollBudget := 3, flushBudget := 3 }

/-- A drive with sectors of `size` bytes. -/
def drive (ch : Channel) (m : Bool) (size : BitVec 64) : Device :=
  { logicalSectorSize := size, physicalSectorSize := size, logicalSectorAlignment := 0#64, lba28SectorCount := 100#32,
    lba48SectorCount := 0#64, supportedUdmaMask := 0#8, activeUdmaMode := 0#8, channelBase := params.base ch,
    isMaster := m }

/-- An engine fresh from reset whose backend will answer `answers`. -/
def fresh (answers : List Word) : State := { State.reset with params := params, answers := answers }

/-- An engine after INIT, with two drives, the second one selected. -/
def booted (answers : List Word) : State :=
  { fresh answers with
    dev := [drive .primary true 2#64, drive .secondary false 512#64], selected := .device 1, initDone := true }

/-- The same engine with one drive of 16-byte sectors. -/
def small (ch : Channel) (m : Bool) (answers : List Word) : State :=
  { booted answers with dev := [drive ch m 16#64], selected := .unselected }

/-- The state after an instruction, or the state before it if it stops. -/
def after (i : Instr) (s : State) : State :=
  match exec i s with
  | .next t => t
  | .fault _ => s
  | .refused _ => s

theorem exec_after {s : State} (h : s.Ready) (i : Instr) : exec i s = .next (after i s) := by
  rw [after, exec_ready h]

theorem fresh_ready (answers : List Word) : (fresh answers).Ready := ⟨rfl, rfl, rfl, rfl⟩
theorem booted_ready (answers : List Word) : (booted answers).Ready := ⟨rfl, rfl, rfl, rfl⟩
theorem small_ready (ch : Channel) (m : Bool) (answers : List Word) : (small ch m answers).Ready :=
  ⟨rfl, rfl, by cases ch <;> rfl, rfl⟩

/-- What the statements ask of the state, for every state the witnesses below use. -/
theorem booted_with_ready (answers : List Word) (sel : Selected) (m : Memory) :
    ({ booted answers with selected := sel, mem := m } : State).Ready := ⟨rfl, rfl, rfl, rfl⟩

/-- Drives whose sectors no transfer can use. -/
def misfits : State := { booted [] with dev := [drive .primary true 0#64, drive .primary false 513#64] }

theorem misfits_ready : misfits.Ready := ⟨rfl, rfl, rfl, rfl⟩

/-! ### Vectors of 95_test_vectors -/

/-- 30_encoding R71, R73, R74 and 20_memory R42: a byte alone is one port write. -/
theorem test_bytes_alone :
    (after (.flushCacheCmd .secondary) (fresh [])).trace = [.w8 0x177 0xE7#8] ∧
    (after (.readSectorsCmd .primary) (fresh [])).trace = [.w8 0x1F7 0x20#8] ∧
    (after (.writeSectorsCmd .primary) (fresh [])).trace = [.w8 0x1F7 0x30#8] ∧
    (after (.identifyCmd .primary) (fresh [])).trace = [.w8 0x1F7 0xEC#8] ∧
    (after (.selMaster .secondary) (fresh [])).trace = [.w8 0x176 0xA0#8] ∧
    (after (.selSlave .primary) (fresh [])).trace = [.w8 0x1F6 0xB0#8] ∧
    (after (.xferSelMaster .primary 0xD#4) (fresh [])).trace = [.w8 0x1F6 0xED#8] ∧
    (after (.xferSelSlave .primary 1#4) (fresh [])).trace = [.w8 0x1F6 0xF1#8] := by
  decide

/-- V3, V6, V15, V17: ready on the last read, error before readiness, an empty error mask, the smallest budget. -/
theorem test_poll :
    (after (.poll .primary 0x80#8 0#8 1#8 3) (fresh [0x80, 0x80, 0x50])).result = some (.polled .ready) ∧
    (after (.poll .primary 0x80#8 0#8 1#8 3) (fresh [0x51])).result = some (.polled .errorFlagged) ∧
    (after (.poll .primary 0x80#8 0#8 0#8 2) (fresh [0x81, 0])).result = some (.polled .ready) ∧
    (after (.poll .primary 0x80#8 0#8 1#8 1) (fresh [0x80])).result = some (.polled .timedOut) ∧
    (after (.poll .primary 0x80#8 0x08#8 0x21#8 3) (fresh [0x5E, 0x4A])).trace = [.r8 0x1F7 0x5E#8] := by
  decide

/-- V21, V24, V25, V26. -/
theorem test_selection :
    (after (.selectPosition .secondary false) (fresh [1, 2, 3, 0xFF])).trace =
      [.w8 0x176 0xB0#8, .r8 0x376 1#8, .r8 0x376 2#8, .r8 0x376 3#8, .r8 0x376 0xFF#8] ∧
    (after (.select 1) (booted [0, 0, 0, 0])).trace.head? = some (.w8 0x176 0xB0#8) ∧
    (after (.select 2) (booted [])).result = some (.err .invalidArgument 0) ∧
    (after (.ensureSelected 1) (booted [])).trace = [] := by
  decide

/-- V31, V35: an empty channel; LBA_HI is read even though LBA_MID was not zero. -/
theorem test_identify :
    (after (.identify .primary true) (fresh [0, 0, 0, 0, 0xFF, 0xFF])).result = some .notPresent ∧
    (after (.identify .primary true) (fresh [0, 0, 0, 0, 0xFF, 0xFF])).trace.length = 12 ∧
    (after (.identify .primary true) (fresh [0, 0, 0, 0, 0x50, 0x50, 1, 0])).trace.drop 5 =
      [.w8 0x1F2 0#8, .w8 0x1F3 0#8, .w8 0x1F4 0#8, .w8 0x1F5 0#8, .w8 0x1F7 0xEC#8, .r8 0x1F7 0x50#8,
        .r8 0x1F7 0x50#8, .r8 0x1F4 1#8, .r8 0x1F5 0#8] := by
  decide

/-- An identify buffer with the given words, all others zero. -/
def buffer (ws : List (Nat × Word)) : Vector Word 256 :=
  ws.foldl (fun w c => w.setIfInBounds c.1 c.2) (Vector.replicate 256 0#16)

set_option maxRecDepth 20000 in
/-- V51 and V54, V58, V59c, V59m. -/
theorem test_decoder :
    (decodeBuffer (buffer [(60, 0x5678), (61, 0x1234)])).lba28SectorCount = 0x12345678#32 ∧
    (decodeBuffer (buffer [(83, 0x0400), (100, 0x1111), (101, 0x2222), (102, 0x3333), (103, 0x4444)])).lba48SectorCount =
      0x4444333322221111#64 ∧
    (decodeBuffer (buffer [(106, 0x7003), (117, 8)])).physicalSectorSize = 128#64 ∧
    (decodeBuffer (buffer [(106, 0x6003), (209, 0x400C)])).logicalSectorAlignment = 12#64 ∧
    (decodeBuffer (buffer [(106, 0x700F), (117, 0xFFFF), (118, 0xFFFF)])).physicalSectorSize = 281474976645120#64 := by
  decide

/-- V70: one sector read, master, `lba` = 0x01234567. -/
theorem test_readSectors :
    (after (.readSectors 0 0x01234567#32 1#8 0x1000) (small .primary true
      [0x58, 0x1100, 0x3322, 0x5544, 0x7766, 0x9988, 0xBBAA, 0xDDCC, 0xFFEE, 0x50])).result = some (.ok 1) ∧
    (after (.readSectors 0 0x01234567#32 1#8 0x1000) (small .primary true
      [0x58, 0x1100, 0x3322, 0x5544, 0x7766, 0x9988, 0xBBAA, 0xDDCC, 0xFFEE, 0x50])).trace.take 9 =
      [.w8 0x1F6 0xE1#8, .w8 0x1F2 1#8, .w8 0x1F3 0x67#8, .w8 0x1F4 0x45#8, .w8 0x1F5 0x23#8, .w8 0x1F7 0x20#8,
        .r8 0x1F7 0x58#8, .r16 0x1F0 0x1100#16, .mw 0x1000 0x1100#16] := by
  decide

/-- V70 and V74: the buffer after a read, and a read that fails on its second sector. -/
theorem test_readSectors_buffer :
    ((List.range 16).map fun i => (after (.readSectors 0 0x01234567#32 1#8 0x1000) (small .primary true
      [0x58, 0x1100, 0x3322, 0x5544, 0x7766, 0x9988, 0xBBAA, 0xDDCC, 0xFFEE, 0x50])).byte (0x1000 + i)) =
      [0x00, 0x11, 0x22, 0x33, 0x44, 0x55, 0x66, 0x77, 0x88, 0x99, 0xAA, 0xBB, 0xCC, 0xDD, 0xEE, 0xFF] ∧
    (after (.readSectors 0 5#32 2#8 0x2000) (small .secondary true
      [0x58, 1, 2, 3, 4, 5, 6, 7, 8, 0x50, 0x51])).result = some (.err .protocolError 1) ∧
    (after (.readSectors 0 5#32 2#8 0x2000) (small .secondary true
      [0x58, 1, 2, 3, 4, 5, 6, 7, 8, 0x50, 0x51])).trace.length = 25 := by
  decide

/-- The buffer of V78's first sector. -/
def v78 : Memory :=
  [(0x3001, 0x11), (0x3002, 0x22), (0x3003, 0x33), (0x3004, 0x44), (0x3005, 0x55), (0x3006, 0x66), (0x3007, 0x77),
    (0x3008, 0x88), (0x3009, 0x99), (0x300A, 0xAA), (0x300B, 0xBB), (0x300C, 0xCC), (0x300D, 0xDD), (0x300E, 0xEE),
    (0x300F, 0xFF)]

/-- V84 and V82: one sector written by a slave; an error flag during the flush wait goes unseen. -/
theorem test_writeSectors :
    (after (.writeSectors 0 0x0ABCDEF1#32 1#8 0x3000) { small .primary false [0x58, 0x50] with mem := v78 }).trace =
      [.w8 0x1F6 0xFA#8, .w8 0x1F2 1#8, .w8 0x1F3 0xF1#8, .w8 0x1F4 0xDE#8, .w8 0x1F5 0xBC#8, .w8 0x1F7 0x30#8,
        .r8 0x1F7 0x58#8, .mr 0x3000 0x1100#16, .w16 0x1F0 0x1100#16, .mr 0x3002 0x3322#16, .w16 0x1F0 0x3322#16,
        .mr 0x3004 0x5544#16, .w16 0x1F0 0x5544#16, .mr 0x3006 0x7766#16, .w16 0x1F0 0x7766#16] ++
        [.mr 0x3008 0x9988#16, .w16 0x1F0 0x9988#16, .mr 0x300A 0xBBAA#16, .w16 0x1F0 0xBBAA#16, .mr 0x300C 0xDDCC#16,
          .w16 0x1F0 0xDDCC#16, .mr 0x300E 0xFFEE#16, .w16 0x1F0 0xFFEE#16, .w8 0x1F7 0xE7#8, .r8 0x1F7 0x50#8] ∧
    (after (.writeSectors 0 0x102#32 1#8 0x3000) { small .primary true [0x58, 0x51] with mem := v78 }).result =
      some (.ok 1) ∧
    (after (.writeSectors 0 0x102#32 2#8 0x3000) { small .primary true [0x58, 0x51, 0x51] with mem := v78 }).result =
      some (.err .protocolError 1) := by
  decide

/-- V69, V97, V99, V100, V106 on a drive with 512-byte sectors, and V104 before INIT. -/
theorem test_refusals :
    (after (.writeSectors48 9 0xFFFFFFFFFFFFFFFF#64 0#8 0) (booted [])).result = some (.err .unimplemented 0) ∧
    (after (.read 1 0 0#64 131072#64) (booted [])).result = some (.err .invalidArgument 0) ∧
    (after (.read 1 0 137438953472#64 512#64) (booted [])).result = some (.err .unsupportedAddress 0) ∧
    (after (.write 1 0 18446744073709551104#64 512#64) (booted [])).result = some (.err .unsupportedAddress 0) ∧
    (after (.write 1 0 137438953472#64 1#64) (booted [])).result = some (.err .invalidArgument 0) ∧
    (after (.read 0 0 0#64 512#64) (fresh [])).result = some (.err .invalidArgument 0) := by
  decide

set_option maxRecDepth 20000 in
/-- V110: an engine fresh from reset on an empty platform; V112: a second INIT. -/
theorem test_init :
    (after .init (fresh (List.replicate 20 0))).result = some (.deviceCount 0) ∧
    (after .init (fresh (List.replicate 20 0))).trace.length = 44 ∧
    (after .init (fresh (List.replicate 20 0))).selected = .unselected ∧
    (after .init (after .init (fresh (List.replicate 20 0)))).trace.length = 44 ∧
    (after .init (booted [])).result = some (.deviceCount 2) := by
  decide

/-! ### Witnesses: for each statement with hypotheses, a state and operands that meet them all

Every state below is `fresh`, `booted` (with another selection or buffer) or `misfits`, and ready by the lemmas above. The
transfers go to slot 0 of `booted`, whose channel, size and parameters are written out as the next theorem gives them. -/

theorem slot_zero (answers : List Word) :
    (booted answers).params = params ∧ (booted answers).dev[0]? = some (drive .primary true 2#64) ∧
    params.channelOf (drive .primary true 2#64) = .primary ∧ (drive .primary true 2#64).isMaster = true ∧
    (drive .primary true 2#64).logicalSectorSize.toNat = 2 :=
  ⟨rfl, rfl, rfl, rfl, rfl⟩

theorem poll_ready {c t e b : Byte} {n : Nat} (hn : 1 ≤ n) (he : b &&& e = 0#8) (hc : b &&& c = 0#8)
    (ht : b &&& t = t) : PollReads c t e n [b] .ready := ⟨[], b, rfl, hn, by simp, he, hc, ht⟩
theorem poll_error {c t e b : Byte} {n : Nat} (hn : 1 ≤ n) (he : b &&& e ≠ 0#8) :
    PollReads c t e n [b] .errorFlagged := ⟨[], b, rfl, hn, by simp, he⟩
theorem settle_one {b : Byte} (h : flagDrq b = false) : SettleReads [b] := .inl ⟨[], b, rfl, by simp, by simp, h⟩

theorem ready58 : PollReads 0x80#8 0x08#8 0x21#8 3 [0x58#8] .ready :=
  poll_ready (by decide) (by decide) (by decide) (by decide)
theorem idle50 : PollReads 0x80#8 0#8 0#8 3 [0x50#8] .ready :=
  poll_ready (by decide) (by decide) (by decide) (by decide)
theorem error51 : PollReads 0x80#8 0x08#8 0x21#8 3 [0x51#8] .errorFlagged := poll_error (by decide) (by decide)
theorem busy80 {t e : Byte} (he : 0x80#8 &&& e = 0#8) : PollReads 0x80#8 t e 3 [0x80#8, 0x80#8, 0x80#8] .timedOut :=
  ⟨rfl, by simp [he]⟩

theorem witness_EncodeOfDecode : decodeRaw ⟨.request, 0x13#8, [2]⟩ = .ok (.ensureSelected 2) := by decide

/-- Each clause at the bytes next to the ones that decode. -/
theorem witness_UnlistedBytesRejected :
    (∀ b ∈ [0x1F#8, 0x21#8, 0x2F#8, 0x31#8, 0xE6#8, 0xE8#8, 0xEB#8, 0xED#8],
      b ≠ 0x20#8 ∧ b ≠ 0x30#8 ∧ b ≠ 0xE7#8 ∧ b ≠ 0xEC#8) ∧
    (∀ b ∈ [0x00#8, 0x9F#8, 0xA1#8, 0xAF#8, 0xB1#8, 0xDF#8], b ≠ 0xA0#8 ∧ b ≠ 0xB0#8 ∧ b.toNat < 0xE0) ∧
    ∀ b ∈ [0x03#8, 0x0F#8, 0x1B#8, 0xFF#8], ¬b.toNat ≤ 0x02 ∧ ¬(0x10 ≤ b.toNat ∧ b.toNat ≤ 0x1A) := by
  decide

theorem witness_LbaSplitRecombines : lbaTopNibble 0x0FFFFFFF#32 = 0#4 ∧ lbaTopNibble 0#32 = 0#4 := by decide

theorem witness_PortMap :
    params.base .primary ≠ params.base .secondary ∧ params.knows (drive .primary true 2#64) = true ∧
      params.knows (drive .secondary false 512#64) = true := by
  decide

theorem witness_StepRunsDecodedRequest :
    ({ fresh [] with requests := [⟨.request, 0x14#8, [0, 0x80, 0, 1, 1]⟩] } : State).requests =
      ⟨.request, 0x14#8, [0, 0x80, 0, 1, 1]⟩ :: [] ∧
    decodeRaw ⟨.request, 0x14#8, [0, 0x80, 0, 1, 1]⟩ = .ok (.poll .primary 0x80#8 0#8 1#8 1) ∧
    Instr.wellFormed (.poll .primary 0x80#8 0#8 1#8 1) = true := by
  decide

theorem witness_StepWaitsWithoutRequest : (booted []).requests = [] := rfl

theorem witness_UnknownRequestCodeAnswered :
    ({ booted [] with requests := [⟨.request, 0x03#8, [7]⟩, ⟨.request, 0x1B#8, []⟩] } : State).Ready ∧
    ¬(0x03#8).toNat ≤ 0x02 ∧ ¬(0x10 ≤ (0x03#8).toNat ∧ (0x03#8).toNat ≤ 0x1A) ∧
    ¬(0x1B#8).toNat ≤ 0x02 ∧ ¬(0x10 ≤ (0x1B#8).toNat ∧ (0x1B#8).toNat ≤ 0x1A) :=
  ⟨⟨rfl, rfl, rfl, rfl⟩, by decide⟩

theorem witness_RequestRefusals :
    ({ booted [] with phase := .busy .init } : State).phase ≠ .idle ∧
    ((booted []).phase = .idle ∧ ({ booted [] with params := { params with pollBudget := 0 } } : State).params.wf = false ∧
      ({ booted [] with params := { params with baseSecondary := 0x1F0 } } : State).params.wf = false) ∧
    ((booted []).params.wf = true ∧
      ({ booted [] with dev := [{ drive .primary true 2#64 with channelBase := 0x1F1 }] } : State).registryKnown = false) := by
  decide

/-- Both outcomes: the access that never completes is the instruction's own, or a later one. -/
theorem witness_StalledAccessFaults :
    (fresh []).stall = none ∧ exec (.selMaster .primary) (fresh []) = .next (after (.selMaster .primary) (fresh [])) ∧
    ((fresh []).accesses ≤ 0 ∧ 0 < (after (.selMaster .primary) (fresh [])).accesses) ∧
    ¬1 < (after (.selMaster .primary) (fresh [])).accesses :=
  ⟨rfl, exec_after (fresh_ready _) _, by decide⟩

theorem fresh_inv (answers : List Word) : (fresh answers).Inv where
  params := rfl
  idle := rfl
  noWork := rfl
  capacity := by simp [fresh, State.reset, State.count]
  known := rfl
  decodable := by simp [fresh, State.reset]
  selected := trivial
  memory := ⟨List.Pairwise.nil, by simp [fresh, State.reset]⟩
  allowed := by simp [fresh, State.reset]
  counted := rfl

theorem booted_inv : (booted []).Inv where
  params := rfl
  idle := rfl
  noWork := rfl
  capacity := by decide
  known := rfl
  decodable := by simp [booted, drive, Device.decodable]
  selected := .inl (by decide)
  memory := ⟨List.Pairwise.nil, by simp [booted, fresh, State.reset]⟩
  allowed := by simp [booted, fresh, State.reset]
  counted := rfl

theorem witness_StepKeepsInvariant :
    (booted []).Inv ∧ step (booted []) = .next (booted []) ∧
    ({ fresh [] with requests := [⟨.request, 0x00#8, []⟩] } : State).Inv ∧
    step { fresh [] with requests := [⟨.request, 0x00#8, []⟩] } = .next (after .init (fresh [])) :=
  ⟨booted_inv, rfl, ⟨rfl, rfl, rfl, (fresh_inv []).4, rfl, (fresh_inv []).6, trivial, (fresh_inv []).8, (fresh_inv []).9, rfl⟩,
    rfl⟩

theorem witness_WordIsLittleEndian : Memory.wf v78 ∧ Memory.wf ([] : Memory) := by decide

/-- The statements whose only hypotheses are that the engine is ready and whether INIT has run. -/
theorem witness_ready :
    (fresh []).Ready ∧ (booted []).Ready ∧ (fresh []).initDone = false ∧ (booted []).initDone = true :=
  ⟨fresh_ready _, booted_ready _, rfl, rfl⟩

/-- The three outcomes of a poll. -/
theorem witness_PollDeterminedByAnswers :
    (PollReads 0x80#8 0x08#8 0x21#8 3 [0x58#8] .ready ∧
      (fresh [0x58]).Scripted (statusEvents (fresh [0x58]).params .primary [0x58#8])) ∧
    (PollReads 0x80#8 0x08#8 0x21#8 3 [0x51#8] .errorFlagged ∧
      (fresh [0x51]).Scripted (statusEvents (fresh [0x51]).params .primary [0x51#8])) ∧
    (PollReads 0x80#8 0x08#8 0x21#8 3 [0x80#8, 0x80#8, 0x80#8] .timedOut ∧
      (fresh [0x80, 0x80, 0x80]).Scripted
        (statusEvents (fresh [0x80, 0x80, 0x80]).params .primary [0x80#8, 0x80#8, 0x80#8])) :=
  ⟨⟨ready58, by decide, rfl⟩, ⟨error51, by decide, rfl⟩, ⟨busy80 rfl, by decide, rfl⟩⟩

theorem witness_SelectValidHandle :
    (booted []).Ready ∧ (booted []).dev[0]? = some (drive .primary true 2#64) ∧
      (booted []).dev[1]? = some (drive .secondary false 512#64) :=
  ⟨booted_ready _, rfl, rfl⟩

/-- The first handle that is not valid. -/
theorem witness_SelectInvalidHandle :
    (booted []).Ready ∧ (booted []).count ≤ 2 ∧ (booted []).selected ≠ .device 2 := ⟨booted_ready _, by decide⟩

theorem witness_EnsureSelectedPolicy :
    (booted []).Ready ∧ (booted []).selected = .device 1 ∧ (booted []).selected ≠ .device 0 ∧ 0 < (booted []).count :=
  ⟨booted_ready _, by decide⟩

/-- Each way IDENTIFY can end. -/
theorem witness_IdentifyDeterminedByAnswers :
    (∃ evs, IdentifyTrace params .primary true evs none ∧ (fresh [1, 2, 3, 4, 0]).Scripted evs) ∧
    (∃ evs, IdentifyTrace params .primary true evs none ∧ (fresh [1, 2, 3, 4, 0xFF, 0xFF]).Scripted evs) ∧
    (∃ evs, IdentifyTrace params .primary true evs none ∧ (fresh [1, 2, 3, 4, 0x50, 0x50, 0x14, 0xEB]).Scripted evs) ∧
    (∃ evs, IdentifyTrace params .primary true evs none ∧ (fresh [1, 2, 3, 4, 0x50, 0x50, 0, 0, 0x51]).Scripted evs) :=
  ⟨⟨_, .absent [1, 2, 3, 4] rfl, by decide, rfl⟩,
    ⟨_, .busy [1, 2, 3, 4] [0xFF#8] 0xFF#8 .errorFlagged rfl (by decide) (by decide) (poll_error (by decide) (by decide)),
      by decide, rfl⟩,
    ⟨_, .otherKind [1, 2, 3, 4] [0x50#8] 0x50#8 0x14#8 0xEB#8 rfl (by decide)
      (poll_ready (by decide) (by decide) (by decide) (by decide)) (.inl (by decide)), by decide, rfl⟩,
    ⟨_, .noData [1, 2, 3, 4] [0x50#8] [0x51#8] 0x50#8 .errorFlagged rfl (by decide) (by decide)
      (poll_ready (by decide) (by decide) (by decide) (by decide)) (poll_error (by decide) (by decide)), by decide, rfl⟩⟩

set_option maxRecDepth 20000 in
/-- A drive that answers. -/
theorem witness_IdentifyDeterminedByAnswers_found :
    ∃ evs, IdentifyTrace params .primary true evs (some (Vector.replicate 256 7#16)) ∧
      (fresh ([1, 2, 3, 4, 0x58, 0x58, 0, 0, 0x58] ++ List.replicate 256 7)).Scripted evs :=
  ⟨_, .found [1, 2, 3, 4] [0x58#8] [0x58#8] 0x58#8 (Vector.replicate 256 7#16) rfl (by decide)
    (poll_ready (by decide) (by decide) (by decide) (by decide))
    (poll_ready (by decide) (by decide) (by decide) (by decide)), by decide, by decide⟩

theorem witness_ProbedRecordFields : params.wf = true := rfl

/-- The default map tells the DEVICE_SELECT ports apart from the other ports written. -/
theorem witness_AfterFirstInit :
    (fresh []).Ready ∧ (fresh []).initDone = false ∧ (fresh []).selected = .unselected ∧
    (∀ ch ch' r, r ∈ [Reg.sectorCount, .lbaLow, .lbaMid, .lbaHi, .command] →
      (fresh []).params.port ch .deviceSelect ≠ (fresh []).params.port ch' r) ∧
    (fresh []).params.port .primary .deviceSelect ≠ (fresh []).params.port .secondary .deviceSelect ∧
    exec .init (fresh []) = .next (after .init (fresh [])) := by
  refine ⟨fresh_ready _, rfl, rfl, ?_, by decide, exec_after (fresh_ready _) _⟩
  intro ch ch' r hr
  simp only [List.mem_cons, List.not_mem_nil, or_false] at hr
  rcases hr with rfl | rfl | rfl | rfl | rfl <;> cases ch <;> cases ch' <;> decide

set_option maxRecDepth 20000 in
/-- Two buffers that differ in a word the decoder does not read. -/
theorem witness_DecodeIsPure :
    buffer [(59, 1), (62, 9), (208, 5)] ≠ buffer [] ∧
    ([60, 61, 83, 88, 100, 101, 102, 103, 106, 117, 118, 209].all fun j =>
      (buffer [(59, 1), (62, 9), (208, 5)])[j]? == (buffer [])[j]?) = true := by
  decide

set_option maxRecDepth 20000 in
/-- Words 106 on both sides of the validity test (30_encoding R77). -/
theorem witness_DecodeGeometry :
    (buffer [(106, 0xF003)])[106] &&& 0xC000#16 ≠ 0x4000#16 ∧ (buffer [(106, 0x3003)])[106] &&& 0xC000#16 ≠ 0x4000#16 ∧
    (buffer [])[106] &&& 0xC000#16 ≠ 0x4000#16 ∧ (buffer [(106, 0x7FFF)])[106] &&& 0xC000#16 = 0x4000#16 ∧
    (buffer [(106, 0x4000)])[106] &&& 0xC000#16 = 0x4000#16 := by
  decide

/-- Each check at its boundary: `lba` = 2^28; the first invalid handle; a count of 0; sizes 0 and 513. -/
theorem witness_TransferChecksRefuse :
    2 ^ 28 ≤ (0x10000000#32).toNat ∧ (0x0FFFFFFF#32).toNat < 2 ^ 28 ∧ (booted []).count ≤ 2 ∧
    misfits.dev[0]? =
      some (drive .primary true 0#64) ∧
    misfits.dev[1]? =
      some (drive .primary false 513#64) ∧
    (513#64).toNat % 2 = 1 := by
  decide

/-- The largest transfer, and the hypotheses shared by the statements about transfers. -/
theorem witness_transfer :
    (booted []).dev[1]? = some (drive .secondary false 512#64) ∧ (0x0FFFFFFF#32).toNat < 2 ^ 28 ∧ 255#8 ≠ 0#8 ∧
    (drive .secondary false 512#64).logicalSectorSize ≠ 0#64 ∧
    (drive .secondary false 512#64).logicalSectorSize.toNat % 2 = 0 := by
  decide

/-- Each way READ_SECTORS can end, on a drive with one word a sector. -/
theorem witness_ReadSectorsDeterminedByAnswers :
    (∃ evs, ReadTrace params .primary 2 0x100 0 1 evs (.ok 1) ∧
      (booted [0x58, 0xBEEF, 0x50]).Scripted (setupEvents params .primary true 0x20#8 7#32 1#8 ++ evs)) ∧
    (∃ evs, ReadTrace params .primary 2 0x100 0 2 evs (.err .protocolError 1) ∧
      (booted [0x58, 0xBEEF, 0x50, 0x51]).Scripted (setupEvents params .primary true 0x20#8 7#32 2#8 ++ evs)) ∧
    (∃ evs, ReadTrace params .primary 2 0x100 0 1 evs (.err .timeout 0) ∧
      (booted [0x80, 0x80, 0x80]).Scripted (setupEvents params .primary true 0x20#8 7#32 1#8 ++ evs)) :=
  ⟨⟨_, .sector 0 0 [0x58#8] [0x50#8] [0xBEEF#16] [] _ ready58 rfl (settle_one rfl) (.done 1), by decide, rfl⟩,
    ⟨_, .sector 0 1 [0x58#8] [0x50#8] [0xBEEF#16] _ _ ready58 rfl (settle_one rfl) (.pollError 1 0 [0x51#8] error51),
      by decide, rfl⟩,
    ⟨_, .pollTimeout 0 0 [0x80#8, 0x80#8, 0x80#8] (busy80 rfl), by decide, rfl⟩⟩

/-- The longest settle: 400 reads with DATA-REQUEST set (V73). -/
theorem witness_SettleReads_cap : SettleReads (List.replicate 400 0x58#8) :=
  .inr ⟨List.length_replicate, fun _ h => by rw [(List.mem_replicate.1 h).2]; rfl⟩

/-- Each way WRITE_SECTORS can end, on a drive with one word a sector. -/
theorem witness_WriteSectorsDeterminedByAnswers :
    (∃ evs, WriteTrace params .primary 2 0x3001 v78 0 1 evs (.ok 1) ∧
      ({ booted [0x58, 0x50] with mem := v78 } : State).Scripted
        (setupEvents params .primary true 0x30#8 7#32 1#8 ++ evs)) ∧
    (∃ evs, WriteTrace params .primary 2 0x3001 v78 0 2 evs (.err .protocolError 1) ∧
      ({ booted [0x58, 0x50, 0x51] with mem := v78 } : State).Scripted
        (setupEvents params .primary true 0x30#8 7#32 2#8 ++ evs)) ∧
    (∃ evs, WriteTrace params .primary 2 0x3001 v78 0 1 evs (.err .timeout 0) ∧
      ({ booted [0x80, 0x80, 0x80] with mem := v78 } : State).Scripted
        (setupEvents params .primary true 0x30#8 7#32 1#8 ++ evs)) ∧
    (∃ evs, WriteTrace params .primary 2 0x3001 v78 0 1 evs (.err .timeout 0) ∧
      ({ booted [0x58, 0x80, 0x80, 0x80] with mem := v78 } : State).Scripted
        (setupEvents params .primary true 0x30#8 7#32 1#8 ++ evs)) :=
  ⟨⟨_, .sector 0 0 [0x58#8] [0x50#8] [] _ ready58 idle50 (.done 1), by decide, rfl⟩,
    ⟨_, .sector 0 1 [0x58#8] [0x50#8] _ _ ready58 idle50 (.pollError 1 0 [0x51#8] error51), by decide, rfl⟩,
    ⟨_, .pollTimeout 0 0 [0x80#8, 0x80#8, 0x80#8] (busy80 rfl), by decide, rfl⟩,
    ⟨_, .flushTimeout 0 0 [0x58#8] [0x80#8, 0x80#8, 0x80#8] ready58 (busy80 rfl), by decide, rfl⟩⟩

theorem witness_CommandSetupWrites :
    exec (.readSectors 1 0x0FFFFFFF#32 255#8 0) (booted []) =
      .next (after (.readSectors 1 0x0FFFFFFF#32 255#8 0) (booted [])) ∧
    exec (.writeSectors 1 0x0FFFFFFF#32 255#8 0) (booted []) =
      .next (after (.writeSectors 1 0x0FFFFFFF#32 255#8 0) (booted [])) :=
  ⟨exec_after (booted_ready _) _, exec_after (booted_ready _) _⟩

/-- Each check of READ and WRITE at its boundary, on a drive with 512-byte sectors (45_byte_entry R203). -/
theorem witness_ByteRangeChecksRefuse :
    (booted []).count ≤ 2 ∧ (booted []).dev[1]? = some (drive .secondary false 512#64) ∧
    (drive .secondary false 512#64).logicalSectorSize = 512#64 ∧
    ((1#64).toNat % 512 ≠ 0 ∧ (513#64).toNat % 512 ≠ 0) ∧
    ((137438953472#64).toNat % 512 = 0 ∧ 2 ^ 28 ≤ (137438953472#64).toNat / 512) ∧
    ((137438952960#64).toNat / 512 < 2 ^ 28 ∧ (131072#64).toNat % 512 = 0 ∧ 255 < (131072#64).toNat / 512 ∧
      (0#64).toNat % 512 = 0) := by
  decide

/-- The largest request: offset (2^28 - 1) * L and size 255 * L (45_byte_entry R203). -/
theorem witness_ReadFollowsItsRule :
    (137438952960#64).toNat = (0x0FFFFFFF#32).toNat * (512#64).toNat ∧ (130560#64).toNat = (255#8).toNat * (512#64).toNat := by
  decide

/-- A READ of the device that is selected, and one of the other device. -/
theorem witness_ReadDeterminedByAnswers :
    (14#64).toNat = (7#32).toNat * 2 ∧ (2#64).toNat = (1#8).toNat * 2 ∧
    (∃ evs, ReadTrace params .primary 2 0x100 0 1 evs (.ok 1) ∧
      ({ booted [0x58, 0xBEEF, 0x50] with selected := .device 0 } : State).Scripted
        ([] ++ setupEvents params .primary true 0x20#8 7#32 1#8 ++ evs)) ∧
    (∃ evs, ReadTrace params .primary 2 0x100 0 1 evs (.ok 1) ∧ (booted [1, 2, 3, 4, 0x58, 0xBEEF, 0x50]).Scripted
      (selectEvents params .primary true [1, 2, 3, 4] ++ setupEvents params .primary true 0x20#8 7#32 1#8 ++ evs)) :=
  ⟨rfl, rfl,
    ⟨_, .sector 0 0 [0x58#8] [0x50#8] [0xBEEF#16] [] _ ready58 rfl (settle_one rfl) (.done 1), by decide, rfl⟩,
    ⟨_, .sector 0 0 [0x58#8] [0x50#8] [0xBEEF#16] [] _ ready58 rfl (settle_one rfl) (.done 1), by decide, rfl⟩⟩

/-- A WRITE of the device that is selected, and one of the other device. -/
theorem witness_WriteDeterminedByAnswers :
    (∃ evs, WriteTrace params .primary 2 0x3001 v78 0 1 evs (.ok 1) ∧
      ({ booted [0x58, 0x50] with selected := .device 0, mem := v78 } : State).Scripted
        ([] ++ setupEvents params .primary true 0x30#8 7#32 1#8 ++ evs)) ∧
    (∃ evs, WriteTrace params .primary 2 0x3001 v78 0 1 evs (.ok 1) ∧
      ({ booted [1, 2, 3, 4, 0x58, 0x50] with mem := v78 } : State).Scripted
        (selectEvents params .primary true [1, 2, 3, 4] ++ setupEvents params .primary true 0x30#8 7#32 1#8 ++ evs)) :=
  ⟨⟨_, .sector 0 0 [0x58#8] [0x50#8] [] _ ready58 idle50 (.done 1), by decide, rfl⟩,
    ⟨_, .sector 0 0 [0x58#8] [0x50#8] [] _ ready58 idle50 (.done 1), by decide, rfl⟩⟩

/-- Every instruction, on a populated slot: also for the bounds of the transfers. -/
theorem witness_DeviceChannelOnly (i : Instr) (answers : List Word) :
    (booted answers).dev[0]? = some (drive .primary true 2#64) ∧
      exec i (booted answers) = .next (after i (booted answers)) :=
  ⟨rfl, exec_after (booted_ready _) i⟩

/-- The premises of the bounds, INIT and PROBE_ALL on an engine fresh from reset. -/
theorem witness_EventBounds :
    exec .init (fresh []) = .next (after .init (fresh [])) ∧ exec .probeAll (fresh []) = .next (after .probeAll (fresh [])) ∧
    exec (.poll .primary 0#8 0#8 0#8 1) (fresh []) = .next (after (.poll .primary 0#8 0#8 0#8 1) (fresh [])) ∧
    exec (.identify .primary true) (fresh []) = .next (after (.identify .primary true) (fresh [])) :=
  ⟨exec_after (fresh_ready _) _, exec_after (fresh_ready _) _, exec_after (fresh_ready _) _, exec_after (fresh_ready _) _⟩

/-- The hypothesis of the statements about every next state. -/
theorem witness_next (i : Instr) (answers : List Word) : exec i (booted answers) = .next (after i (booted answers)) :=
  exec_after (booted_ready _) i

set_option maxRecDepth 20000 in
/-- Each clause: the registry, `init_done` and `selected` change, by INIT and by a request that names a device. -/
theorem witness_EngineStateWriters :
    (after .init (fresh ([0, 0, 0, 0, 0x58, 0x58, 0, 0, 0x58] ++ List.replicate 276 0))).count = 1 ∧
    (after .init (fresh ([0, 0, 0, 0, 0x58, 0x58, 0, 0, 0x58] ++ List.replicate 276 0))).initDone = true ∧
    (after .init (fresh ([0, 0, 0, 0, 0x58, 0x58, 0, 0, 0x58] ++ List.replicate 276 0))).selected = .device 0 ∧
    (after (.read 0 0 0#64 2#64) (booted [0, 0, 0, 0, 0x51])).selected = .device 0 := by
  decide

/-- A failure with accesses made, which has selected the device, and a refusal with none. -/
theorem witness_FailureLeavesEngineState :
    (after (.read 0 0 0#64 2#64) (booted [0, 0, 0, 0, 0x51])).result = some (.err .protocolError 0) ∧
    (after (.read 0 0 0#64 2#64) (booted [0, 0, 0, 0, 0x51])).accesses = 12 ∧
    (after (.read 0 0 0#64 3#64) (booted [])).result = some (.err .invalidArgument 0) ∧
    (after (.read 0 0 0#64 3#64) (booted [])).accesses = 0 := by
  decide

theorem witness_ResultsFit : (booted []).count ≤ 4 := by decide

/-- A byte that a READ changes. -/
theorem witness_BufferWrittenOnlyByCompletedReads :
    (after (.read 0 0x100 14#64 2#64) (booted [0, 0, 0, 0, 0x58, 0xBEEF, 0x50])).result = some (.ok 1) ∧
    (after (.read 0 0x100 14#64 2#64) (booted [0, 0, 0, 0, 0x58, 0xBEEF, 0x50])).byte 0x101 ≠ (booted []).byte 0x101 := by
  decide

/-- Words received, and words sent; the flush that times out has sent a sector more than it counts. -/
theorem witness_WordsInOrder :
    Memory.wf (booted []).mem ∧
    receivedWords (newEvents (booted [0x58, 0xBEEF, 0x50])
      (after (.readSectors 0 7#32 1#8 0x100) (booted [0x58, 0xBEEF, 0x50]))) = [0xBEEF#16] ∧
    sentWords (newEvents { booted [0x58, 0x50] with mem := v78 }
      (after (.writeSectors 0 7#32 1#8 0x3001) { booted [0x58, 0x50] with mem := v78 })) = [0x2211#16] ∧
    (after (.writeSectors 0 7#32 1#8 0x3001) { booted [0x58, 0x80, 0x80, 0x80] with mem := v78 }).result =
      some (.err .timeout 0) ∧
    sentWords (newEvents { booted [0x58, 0x80, 0x80, 0x80] with mem := v78 }
      (after (.writeSectors 0 7#32 1#8 0x3001) { booted [0x58, 0x80, 0x80, 0x80] with mem := v78 })) = [0x2211#16] := by
  decide

/-- A sector written from 0x3001 and read back to 0x100. -/
theorem witness_WriteThenReadReturnsBytes :
    (after (.write 0 0x3001 14#64 2#64) { booted [0, 0, 0, 0, 0x58, 0x50] with mem := v78 }).result = some (.ok 1) ∧
    (after (.read 0 0x100 14#64 2#64) (booted [0, 0, 0, 0, 0x58, 0x2211, 0x50])).result = some (.ok 1) ∧
    (booted [0, 0, 0, 0, 0x58, 0x2211, 0x50]).dev = ({ booted [0, 0, 0, 0, 0x58, 0x50] with mem := v78 } : State).dev ∧
    receivedWords (newEvents (booted [0, 0, 0, 0, 0x58, 0x2211, 0x50])
        (after (.read 0 0x100 14#64 2#64) (booted [0, 0, 0, 0, 0x58, 0x2211, 0x50]))) =
      sentWords (newEvents { booted [0, 0, 0, 0, 0x58, 0x50] with mem := v78 }
        (after (.write 0 0x3001 14#64 2#64) { booted [0, 0, 0, 0, 0x58, 0x50] with mem := v78 })) := by
  decide

end Sys2Proof.Tests
end

section
/-! SUPPORT. The port map (20_memory R41): the channel bases tell the channels apart, and a record's channel is the one
whose base it holds. -/
namespace Sys2Proof.Machine

/-- Two different bases: no base belongs to both channels (R41). -/
theorem Params.base_injective {p : Params} (hne : p.base .primary ≠ p.base .secondary) :
    Function.Injective p.base
  | .primary, .primary, _ => rfl
  | .primary, .secondary, h => absurd h hne
  | .secondary, .primary, h => absurd h.symm hne
  | .secondary, .secondary, _ => rfl

/-- A record that R11 allows names its own channel's base. -/
theorem Params.base_channelOf {p : Params} {d : Device} (hk : p.knows d = true) :
    p.base (p.channelOf d) = d.channelBase := by
  have hbase : d.channelBase = p.basePrimary ∨ d.channelBase = p.baseSecondary := by
    simpa [Params.knows] using hk
  by_cases hp : d.channelBase = p.basePrimary
  · rw [Params.channelOf, if_pos hp]
    exact hp.symm
  · rw [Params.channelOf, if_neg hp]
    exact (hbase.resolve_left hp).symm

/-- `channelOf` is the only channel whose base is the record's `channelBase` (R41). -/
theorem Params.base_eq_channelBase_iff {p : Params} {d : Device} (hne : p.base .primary ≠ p.base .secondary)
    (hk : p.knows d = true) (ch : Channel) : p.base ch = d.channelBase ↔ ch = p.channelOf d := by
  rw [← Params.base_channelOf hk]
  exact (Params.base_injective hne).eq_iff

/-- Settles O6: the ports are the lookup of R41, register by register; the channel of a record is the one with its base
because that channel has it and the bases differ. -/
theorem portMap : Obligations.PortMap := by
  intro p
  constructor
  case left => exact fun ch => ⟨rfl, rfl, rfl, rfl, rfl, rfl, rfl, rfl, rfl⟩
  case right => exact fun _ hne hk => Params.base_eq_channelBase_iff hne hk

end Sys2Proof.Machine
end

section
/-! SUPPORT. The decoder (43_decoder): composed words as numbers (30_encoding R78), the twelve words of an identify
buffer that `decodeBuffer` reads, and the validity test of a word (R77). -/
namespace Sys2Proof.Machine

/-! ### Composed words (R78) -/

/-- A word shifted past all the bits of `x` adds its place value. -/
theorem toNat_or_shiftLeft_word {m k : Nat} {x : BitVec m} (v : Word) (hx : x.toNat < 2 ^ k) (hk : k + 16 ≤ m) :
    (x ||| (v.setWidth m <<< k)).toNat = x.toNat + v.toNat * 2 ^ k := by
  have hv : v.toNat * 2 ^ k < 2 ^ m :=
    calc v.toNat * 2 ^ k < 2 ^ 16 * 2 ^ k := Nat.mul_lt_mul_of_pos_right v.isLt (Nat.two_pow_pos k)
      _ = 2 ^ (k + 16) := by rw [← Nat.pow_add, Nat.add_comm]
      _ ≤ 2 ^ m := Nat.pow_le_pow_right Nat.two_pos hk
  have hw : (v.setWidth m).toNat = v.toNat := BitVec.toNat_setWidth_of_le (by omega)
  have hs : (v.setWidth m <<< k).toNat = v.toNat <<< k := by
    rw [BitVec.toNat_shiftLeft, hw, Nat.mod_eq_of_lt (by rwa [Nat.shiftLeft_eq])]
  rw [BitVec.toNat_or, hs, Nat.or_comm, ← Nat.shiftLeft_add_eq_or_of_lt hx, Nat.shiftLeft_eq, Nat.add_comm]

theorem compose32_toNat (lo hi : Word) : (compose32 lo hi).toNat = lo.toNat + hi.toNat * 2 ^ 16 := by
  have hlo : (lo.setWidth 32).toNat = lo.toNat := BitVec.toNat_setWidth_of_le (by decide)
  rw [compose32, toNat_or_shiftLeft_word hi (by rw [hlo]; exact lo.isLt) (by decide), hlo]

/-- From the lowest word up, each word stands above the ones before it. -/
theorem compose64_toNat (a b c d : Word) :
    (compose64 a b c d).toNat = a.toNat + b.toNat * 2 ^ 16 + c.toNat * 2 ^ 32 + d.toNat * 2 ^ 48 := by
  have ha := a.isLt
  have hb := b.isLt
  have hc := c.isLt
  have h₁ : (a.setWidth 64).toNat = a.toNat := BitVec.toNat_setWidth_of_le (by decide)
  have h₂ : (a.setWidth 64 ||| b.setWidth 64 <<< 16).toNat = a.toNat + b.toNat * 2 ^ 16 := by
    rw [toNat_or_shiftLeft_word b (by omega) (by decide), h₁]
  have h₃ : (a.setWidth 64 ||| b.setWidth 64 <<< 16 ||| c.setWidth 64 <<< 32).toNat =
      a.toNat + b.toNat * 2 ^ 16 + c.toNat * 2 ^ 32 := by
    rw [toNat_or_shiftLeft_word c (by omega) (by decide), h₂]
  rw [compose64, toNat_or_shiftLeft_word d (by omega) (by decide), h₃]

/-- Settles O34: the counts are composed words, the UDMA fields are the two halves of word 88. -/
theorem decodeCountsAndUdma : Obligations.DecodeCountsAndUdma := by
  intro w
  refine ⟨compose32_toNat _ _, ?lba48, ?mask, ?mode⟩
  case lba48 =>
    simp only [decodeBuffer]
    split
    · exact compose64_toNat _ _ _ _
    · rfl
  case mask => simp [decodeBuffer]
  case mode =>
    have := w[88].isLt
    simp only [decodeBuffer, BitVec.extractLsb'_toNat, Nat.shiftRight_eq_div_pow]
    omega

/-! ### The words DECODE reads (R159) -/

/-- The record depends on the twelve words of R159 only. -/
theorem decodeBuffer_congr {w v : Vector Word 256} (h60 : w[60] = v[60]) (h61 : w[61] = v[61]) (h83 : w[83] = v[83])
    (h88 : w[88] = v[88]) (h100 : w[100] = v[100]) (h101 : w[101] = v[101]) (h102 : w[102] = v[102])
    (h103 : w[103] = v[103]) (h106 : w[106] = v[106]) (h117 : w[117] = v[117]) (h118 : w[118] = v[118])
    (h209 : w[209] = v[209]) : decodeBuffer w = decodeBuffer v := by
  have hlogical : logicalSize w = logicalSize v := by simp only [logicalSize, h106, h117, h118]
  have hphysical : physicalSize w = physicalSize v := by simp only [physicalSize, hlogical, h106]
  have halignment : sectorAlignment w = sectorAlignment v := by simp only [sectorAlignment, h106, h209]
  simp only [decodeBuffer, hlogical, hphysical, halignment, h60, h61, h83, h88, h100, h101, h102, h103]

/-- DECODE only answers, with the record of its buffer. -/
theorem exec_decode {s : State} (h : s.Ready) (w : Vector Word 256) :
    exec (.decode w) s = .next (s.afterEvents [] (.record (decodeBuffer w))) :=
  exec_quiet h rfl

/-- Settles O33: DECODE only answers, and the two buffers have one record. -/
theorem decodeIsPure : Obligations.DecodeIsPure := by
  intro s w v h h60 h61 h83 h88 h100 h101 h102 h103 h106 h117 h118 h209
  have hrecord := decodeBuffer_congr h60 h61 h83 h88 h100 h101 h102 h103 h106 h117 h118 h209
  rw [exec_decode h, exec_decode h, hrecord]
  exact ⟨rfl, rfl⟩

/-! ### The validity test (R77, R154) -/

/-- Bits 15:14 are 01: the mask keeps these two bits and no others. -/
theorem validityBits_iff (v : Word) : validityBits v = true ↔ v &&& 0xC000#16 = 0x4000#16 := by
  have hbits : validityBits v = true ↔ v[15] = false ∧ v[14] = true := by simp [validityBits]
  rw [hbits]
  constructor
  case mp =>
    rintro ⟨h15, h14⟩
    ext i hi
    interval_cases i <;> simp [h15, h14]
  case mpr =>
    intro h
    exact ⟨by simpa using congrArg (·[15]) h, by simpa using congrArg (·[14]) h⟩

section invalid
variable {w : Vector Word 256} (h : validityBits w[106] = false)
include h

theorem logicalSize_invalid : logicalSize w = 512#64 := by simp [logicalSize, h]

theorem physicalSize_invalid : physicalSize w = 512#64 := by simp [physicalSize, logicalSize_invalid h, h]

theorem sectorAlignment_invalid : sectorAlignment w = 0#64 := by simp [sectorAlignment, h]

end invalid

/-- Settles O35: word 106 fails the validity test that each of the three fields makes first. -/
theorem decodeInvalidGeometry : Obligations.DecodeInvalidGeometry := by
  intro w hw
  have h : validityBits w[106] = false := Bool.eq_false_iff.2 fun h => hw ((validityBits_iff _).1 h)
  exact ⟨logicalSize_invalid h, physicalSize_invalid h, sectorAlignment_invalid h⟩

end Sys2Proof.Machine
end

section
/-! SUPPORT. The start of a sector transfer (44_sector_transfer R172, R173, R174): the six writes of the command setup,
then the first status read of step 5a, which takes place because the poll budget is at least 1 and a sector is left. -/
namespace Sys2Proof.Machine

/-! ### The first status read (R173 step R5a, R174 step W5a) -/

/-- A poll with a budget of at least 1 reads STATUS. -/
theorem PollReads.statusEvents_eq_cons {c t e : Byte} {budget : Nat} {l : List Byte} {o : PollOutcome}
    (h : PollReads c t e budget l o) (hb : budget ≠ 0) (p : Params) (ch : Channel) :
    ∃ v rest, statusEvents p ch l = .r8 (p.port ch .status) v :: rest := by
  cases l with
  | nil => exact absurd (PollReads.nil_iff.1 h).1 hb
  | cons b l => exact ⟨b, statusEvents p ch l, rfl⟩

/-- A read of at least one sector begins with a status read. -/
theorem ReadTrace.eq_cons_status {p : Params} {ch : Channel} {size out k n : Nat} {evs : List Event} {res : Result}
    (h : ReadTrace p ch size out k n evs res) (hn : n ≠ 0) (hb : p.pollBudget ≠ 0) :
    ∃ v rest, evs = .r8 (p.port ch .status) v :: rest := by
  obtain ⟨m, rfl⟩ := Nat.exists_eq_succ_of_ne_zero hn
  obtain ⟨l, o, x, hl, rfl, -⟩ := h.cases_succ
  obtain ⟨v, rest, hv⟩ := hl.statusEvents_eq_cons hb p ch
  exact ⟨v, rest ++ x, by rw [hv, List.cons_append]⟩

/-- A write of at least one sector likewise. -/
theorem WriteTrace.eq_cons_status {p : Params} {ch : Channel} {size data k n : Nat} {mem : Memory} {evs : List Event}
    {res : Result} (h : WriteTrace p ch size data mem k n evs res) (hn : n ≠ 0) (hb : p.pollBudget ≠ 0) :
    ∃ v rest, evs = .r8 (p.port ch .status) v :: rest := by
  obtain ⟨m, rfl⟩ := Nat.exists_eq_succ_of_ne_zero hn
  obtain ⟨l, o, x, hl, rfl, -⟩ := h.cases_succ
  obtain ⟨v, rest, hv⟩ := hl.statusEvents_eq_cons hb p ch
  exact ⟨v, rest ++ x, by rw [hv, List.cons_append]⟩

/-- An engine that answers a request has a poll budget of at least 1 (R6). -/
theorem exec_next_pollBudget {i : Instr} {s t : State} (h : exec i s = .next t) : s.params.pollBudget ≠ 0 := by
  obtain ⟨-, hwf, -⟩ := State.refusal_none.1 (exec_next h).1
  simp only [Params.wf, Bool.and_eq_true, bne_iff_ne] at hwf
  obtain ⟨⟨hpoll, -⟩, -⟩ := hwf
  exact hpoll

/-! ### A transfer's events (R172) -/

section events
variable {s t : State} {device : Nat} {lba : BitVec 32} {cnt : Byte} {buf : Nat} {d : Device}
  (hc : transferChecks s.dev device lba cnt = .ok d)
include hc

/-- The checks leave a sector to transfer (R171 X3). -/
theorem transferChecks_ok_count : cnt.toNat ≠ 0 := by
  obtain ⟨-, -, hcnt, -⟩ := transferChecks_ok.1 hc
  exact fun h => hcnt (BitVec.eq_of_toNat_eq h)

/-- READ_SECTORS past its checks: the setup with command 0x20, then a status read. -/
theorem newEvents_readSectors (h : exec (.readSectors device lba cnt buf) s = .next t) :
    ∃ v rest, newEvents s t = setupEvents s.params (s.params.channelOf d) d.isMaster 0x20#8 lba cnt ++
      .r8 (s.params.port (s.params.channelOf d) .status) v :: rest := by
  have hbudget : s.params.pollBudget ≠ 0 := exec_next_pollBudget h
  obtain ⟨evs, htrace, hacts, -⟩ := readSectors_acts (s := s.accept (.readSectors device lba cnt buf)) hc buf
  obtain ⟨v, rest, rfl⟩ := htrace.eq_cons_status (transferChecks_ok_count hc) hbudget
  exact ⟨v, rest, exec_newEvents h hacts⟩

/-- WRITE_SECTORS past its checks: the setup with command 0x30, then a status read. -/
theorem newEvents_writeSectors (h : exec (.writeSectors device lba cnt buf) s = .next t) :
    ∃ v rest, newEvents s t = setupEvents s.params (s.params.channelOf d) d.isMaster 0x30#8 lba cnt ++
      .r8 (s.params.port (s.params.channelOf d) .status) v :: rest := by
  have hbudget : s.params.pollBudget ≠ 0 := exec_next_pollBudget h
  obtain ⟨evs, htrace, hacts, -⟩ := writeSectors_acts (s := s.accept (.writeSectors device lba cnt buf)) hc buf
  obtain ⟨v, rest, rfl⟩ := htrace.eq_cons_status (transferChecks_ok_count hc) hbudget
  exact ⟨v, rest, exec_newEvents h hacts⟩

end events

/-! ### The select byte (R75) -/

/-- Under the high nibble of a transfer-form select byte a nibble is added without a carry. -/
theorem transferSelect_or_nibble (m : Bool) (l : Fin 16) :
    (if m then 0xE0#8 else 0xF0#8) ||| BitVec.ofNat 8 l = BitVec.ofNat 8 ((if m then 0xE0 else 0xF0) + l) := by
  revert m l
  decide

/-- Of an LBA below 2^28 the select byte carries everything above the three LBA bytes. -/
theorem transferSelect_or_lba (m : Bool) {lba : BitVec 32} (h : lba.toNat < 2 ^ 28) :
    (if m then 0xE0#8 else 0xF0#8) ||| BitVec.ofNat 8 (lba.toNat / 2 ^ 24 % 16) =
      BitVec.ofNat 8 ((if m then 0xE0 else 0xF0) + lba.toNat / 2 ^ 24) := by
  have hl : lba.toNat / 2 ^ 24 < 16 := by omega
  rw [Nat.mod_eq_of_lt hl]
  exact transferSelect_or_nibble m ⟨lba.toNat / 2 ^ 24, hl⟩

/-- Settles O42: both traces are the setup writes followed by a status read, and the two setups differ in the command
byte only; the select byte is a sum because the LBA has no bits above 27. -/
theorem commandSetupWrites : Obligations.CommandSetupWrites := by
  rintro s t u device lba cnt buf d _ hlba hd hcnt hsize heven rfl hread hwrite
  have hc : transferChecks s.dev device lba cnt = .ok d :=
    transferChecks_ok.2 ⟨lbaTopNibble_eq_zero.2 hlba, hd, hcnt, badSectorSize_eq_false.2 ⟨hsize, heven⟩⟩
  obtain ⟨v, restRead, hread⟩ := newEvents_readSectors hc hread
  obtain ⟨w, restWrite, hwrite⟩ := newEvents_writeSectors hc hwrite
  rw [hread, hwrite, ← transferSelect_or_lba d.isMaster hlba]
  exact ⟨rfl, rfl, rfl, v, w, rfl, rfl⟩

end Sys2Proof.Machine
end

section
/-! SUPPORT. The two round trips of 30_encoding: a raw form decodes to an instruction exactly when it is that
instruction's encoding. Each argument reader of R79 accepts a number exactly when it is the number of the value it
answers. -/
namespace Sys2Proof

/-! ### Arguments (R79) -/

theorem narrow_eq_ok {w n : Nat} {v : BitVec w} : narrow w n = .ok v ↔ n = v.toNat := by
  unfold narrow
  split
  case isTrue h => rw [Except.ok.injEq, ← BitVec.toNat_inj, BitVec.toNat_ofNat, Nat.mod_eq_of_lt h]
  case isFalse h =>
    have hv := v.isLt
    simp only [reduceCtorEq, false_iff]
    omega

theorem narrowBit_eq_ok {n : Nat} {b : Bool} : narrowBit n = .ok b ↔ n = bitArg b := by
  match n with
  | 0 => cases b <;> simp [narrowBit, bitArg]
  | 1 => cases b <;> simp [narrowBit, bitArg]
  | n + 2 => cases b <;> simp [narrowBit, bitArg]

theorem narrowChannel_eq_ok {n : Nat} {ch : Channel} : narrowChannel n = .ok ch ↔ n = channelArg ch := by
  match n with
  | 0 => cases ch <;> simp [narrowChannel, channelArg]
  | 1 => cases ch <;> simp [narrowChannel, channelArg]
  | n + 2 => cases ch <;> simp [narrowChannel, channelArg]

/-- Words are told apart by their numbers. -/
theorem map_toNat_injective : Function.Injective (List.map (BitVec.toNat : Word → Nat)) :=
  List.map_injective_iff.2 fun _ _ => BitVec.eq_of_toNat_eq

theorem narrowWords_eq_ok {ns : List Nat} {vs : List Word} : narrowWords ns = .ok vs ↔ ns = vs.map BitVec.toNat := by
  induction ns generalizing vs with
  | nil => cases vs <;> simp [narrowWords]
  | cons n ns ih =>
    rw [narrowWords]
    split
    case h_1 e hn =>
      have hne : ∀ v : Word, n ≠ v.toNat := fun v h => by simp [narrow_eq_ok.2 h] at hn
      cases vs <;> simp [hne]
    case h_2 v hn =>
      obtain rfl := narrow_eq_ok.1 hn
      split
      case h_1 e hns =>
        have hne : ∀ vs : List Word, ns ≠ vs.map BitVec.toNat := fun vs h => by simp [ih.2 h] at hns
        cases vs <;> simp [hne]
      case h_2 us hns =>
        obtain rfl := ih.1 hns
        rw [Except.ok.injEq]
        exact (map_toNat_injective.eq_iff (a := v :: us)).symm

theorem narrowBuffer_eq_ok {ns : List Nat} {w : Vector Word 256} :
    narrowBuffer ns = .ok w ↔ ns = w.toList.map BitVec.toNat := by
  rw [← narrowWords_eq_ok, narrowBuffer]
  split
  case h_1 e hns => simp [hns]
  case h_2 vs hns =>
    rw [hns, Except.ok.injEq]
    split
    case isTrue h => rw [Except.ok.injEq, ← Vector.toList_inj]; rfl
    case isFalse h =>
      simp only [reduceCtorEq, false_iff]
      rintro rfl
      exact h (by simp)

/-- A reader followed by the rest of a decoding answers when both do. -/
theorem Except.bind_eq_ok {ε α β : Type} {x : Except ε α} {f : α → Except ε β} {b : β} :
    (x >>= f) = .ok b ↔ ∃ a, x = .ok a ∧ f a = .ok b := by
  cases x <;> simp [bind, Except.bind]

/-! ### Bytes (R71, R73, R74, R79) -/

theorem Command.ofByte_eq_some {b : Byte} {c : Command} : Command.ofByte b = some c ↔ b = c.byte := by
  constructor
  case mp =>
    intro h
    rw [Command.ofByte] at h
    have hc := List.find?_some h
    exact (beq_iff_eq.1 hc).symm
  case mpr =>
    rintro rfl
    cases c <;> decide

theorem ReqOp.ofCode_eq_some {b : Byte} {o : ReqOp} : ReqOp.ofCode b = some o ↔ b = o.code := by
  constructor
  case mp =>
    intro h
    rw [ReqOp.ofCode] at h
    have hc := List.find?_some h
    exact (beq_iff_eq.1 hc).symm
  case mpr =>
    rintro rfl
    cases o <;> decide

/-- A byte with the high nibble of a transfer form is that form of its low nibble (R74). -/
theorem transferSelectByte_low_nibble {m : Bool} {b : Byte} (h : b &&& 0xF0#8 = if m then 0xE0#8 else 0xF0#8) :
    transferSelectByte m (b.setWidth 4) = b := by
  revert m b
  decide

/-- The transfer forms are no selection forms (R74). -/
theorem decodeSelect_transferSelectByte (ch : Channel) (m : Bool) (l : BitVec 4) :
    decodeSelect ch (transferSelectByte m l) = .ok (if m then .xferSelMaster ch l else .xferSelSlave ch l) := by
  revert m l
  cases ch <;> decide

/-! ### Decoding what was encoded -/

theorem decodeRaw_request (o : ReqOp) (args : List Nat) :
    decodeRaw ⟨.request, o.code, args⟩ = decodeRequest o args := by
  simp only [decodeRaw, ReqOp.ofCode_eq_some.2 rfl]

/-- Every argument is read back as what it was written from. -/
theorem decodeRaw_encode (i : Instr) : decodeRaw (encode i) = .ok i := by
  cases i with
  | identifyCmd | readSectorsCmd | writeSectorsCmd | flushCacheCmd =>
    simp only [encode, decodeRaw, if_true, decodeCommand, Command.ofByte_eq_some.2 rfl]
  | selMaster | selSlave => rfl
  | xferSelMaster ch l => exact decodeSelect_transferSelectByte ch true l
  | xferSelSlave ch l => exact decodeSelect_transferSelectByte ch false l
  | init | probeAll | select | ensureSelected => rfl
  | selectPosition | identify =>
    rw [encode, decodeRaw_request, decodeRequest, narrowChannel_eq_ok.2 rfl, narrowBit_eq_ok.2 rfl]
    rfl
  | read | write | readSectors | writeSectors | readSectors48 | writeSectors48 =>
    rw [encode, decodeRaw_request, decodeRequest, narrow_eq_ok.2 rfl, narrow_eq_ok.2 rfl]
    rfl
  | poll =>
    rw [encode, decodeRaw_request, decodeRequest, narrowChannel_eq_ok.2 rfl, narrow_eq_ok.2 rfl, narrow_eq_ok.2 rfl,
      narrow_eq_ok.2 rfl]
    rfl
  | decode =>
    rw [encode, decodeRaw_request, decodeRequest, narrowBuffer_eq_ok.2 rfl]
    rfl

/-! ### Encoding what was decoded -/

theorem encode_of_decodeCommand {ch : Channel} {b : Byte} {i : Instr} (h : decodeCommand ch b = .ok i) :
    encode i = ⟨.command ch, b, []⟩ := by
  rw [decodeCommand] at h
  split at h
  case h_5 => cases h
  all_goals
    rename_i hb
    obtain rfl := Command.ofByte_eq_some.1 hb
    cases h
    rfl

theorem encode_of_decodeSelect {ch : Channel} {b : Byte} {i : Instr} (h : decodeSelect ch b = .ok i) :
    encode i = ⟨.deviceSelect ch, b, []⟩ := by
  rw [decodeSelect] at h
  split_ifs at h with hmaster hslave hxferMaster hxferSlave <;> cases h
  · rw [hmaster]; rfl
  · rw [hslave]; rfl
  · rw [encode, transferSelectByte_low_nibble hxferMaster]
  · rw [encode, transferSelectByte_low_nibble hxferSlave]

theorem encode_of_decodeRequest {o : ReqOp} {args : List Nat} {i : Instr} (h : decodeRequest o args = .ok i) :
    encode i = ⟨.request, o.code, args⟩ := by
  rw [decodeRequest.eq_def] at h
  split at h
  case h_15 => cases h
  case h_1 | h_4 | h_5 | h_7 =>
    cases h
    rfl
  all_goals simp only [Except.bind_eq_ok, narrow_eq_ok, narrowBit_eq_ok, narrowChannel_eq_ok, narrowBuffer_eq_ok] at h
  case h_8 =>
    obtain ⟨_, rfl, _, rfl, _, rfl, _, rfl, h⟩ := h
    cases h
    rfl
  case h_10 =>
    obtain ⟨_, rfl, h⟩ := h
    cases h
    rfl
  all_goals
    obtain ⟨_, rfl, _, rfl, h⟩ := h
    cases h
    rfl

theorem encode_of_decodeRaw {raw : Raw} {i : Instr} (h : decodeRaw raw = .ok i) : encode i = raw := by
  obtain ⟨dest, code, args⟩ := raw
  cases dest with
  | request =>
    rcases ho : ReqOp.ofCode code with _ | o
    · simp [decodeRaw, ho] at h
    · obtain rfl := ReqOp.ofCode_eq_some.1 ho
      rw [decodeRaw_request] at h
      exact encode_of_decodeRequest h
  | command ch =>
    simp only [decodeRaw] at h
    split at h
    case isTrue ha => rw [ha]; exact encode_of_decodeCommand h
    case isFalse => cases h
  | deviceSelect ch =>
    simp only [decodeRaw] at h
    split at h
    case isTrue ha => rw [ha]; exact encode_of_decodeSelect h
    case isFalse => cases h

/-! ### The statements -/

/-- Settles O2: each argument reader accepts the number it is given. -/
theorem decodeOfEncode : Obligations.DecodeOfEncode :=
  decodeRaw_encode

/-- Settles O3: each decoder answers only what is encoded as the byte and the arguments it read. -/
theorem encodeOfDecode : Obligations.EncodeOfDecode := fun _ _ => encode_of_decodeRaw

/-- Settles O1: each raw form written out is the encoding of its instruction. -/
theorem specBytesDecode : Obligations.SpecBytesDecode :=
  ⟨fun ch => decodeRaw_encode (.identifyCmd ch), fun ch => decodeRaw_encode (.readSectorsCmd ch),
    fun ch => decodeRaw_encode (.writeSectorsCmd ch), fun ch => decodeRaw_encode (.flushCacheCmd ch),
    fun ch => decodeRaw_encode (.selMaster ch), fun ch => decodeRaw_encode (.selSlave ch),
    fun ch => decodeRaw_encode (.xferSelMaster ch 0b0101#4), fun ch => decodeRaw_encode (.xferSelSlave ch 0b1010#4),
    decodeRaw_encode .init, decodeRaw_encode (.select 3), decodeRaw_encode (.selectPosition .secondary false),
    decodeRaw_encode (.poll .primary 0x80#8 0x08#8 0x21#8 7), decodeRaw_encode (.read 2 0x1000 1024#64 512#64),
    decodeRaw_encode (.readSectors 1 0x0FFFFFFF#32 255#8 0x2000)⟩

/-- No operation has a code outside 0x00 to 0x02 and 0x10 to 0x1A. -/
theorem ReqOp.ofCode_unlisted {b : Byte} (hlow : ¬b.toNat ≤ 0x02) (hhigh : ¬(0x10 ≤ b.toNat ∧ b.toNat ≤ 0x1A)) :
    ReqOp.ofCode b = none := by
  rcases ho : ReqOp.ofCode b with _ | o
  · rfl
  · obtain rfl := ReqOp.ofCode_eq_some.1 ho
    have hlisted : o.code.toNat ≤ 0x02 ∨ 0x10 ≤ o.code.toNat ∧ o.code.toNat ≤ 0x1A := by cases o <;> decide
    exact absurd hlisted (not_or.2 ⟨hlow, hhigh⟩)

theorem decodeRaw_unlisted_code {b : Byte} (hlow : ¬b.toNat ≤ 0x02) (hhigh : ¬(0x10 ≤ b.toNat ∧ b.toNat ≤ 0x1A))
    (args : List Nat) : decodeRaw ⟨.request, b, args⟩ = .error .unknownRequestCode := by
  simp only [decodeRaw, ReqOp.ofCode_unlisted hlow hhigh]

/-- Settles O4: what decodes is an encoding, and the encodings of a command or of a select byte have listed bytes. -/
theorem unlistedBytesRejected : Obligations.UnlistedBytesRejected := by
  refine ⟨fun ch b i h20 h30 hE7 hEC h => ?command, fun ch b i hA0 hB0 hlow h => ?select,
    fun b args hlow hhigh => decodeRaw_unlisted_code hlow hhigh args⟩
  case command =>
    have he := encode_of_decodeRaw h
    cases i <;> simp only [encode, Raw.mk.injEq, reduceCtorEq, false_and] at he
    case readSectorsCmd => exact h20 he.2.1.symm
    case writeSectorsCmd => exact h30 he.2.1.symm
    case flushCacheCmd => exact hE7 he.2.1.symm
    case identifyCmd => exact hEC he.2.1.symm
  case select =>
    have hxfer : ∀ m l, ¬(transferSelectByte m l).toNat < 0xE0 := by decide
    have he := encode_of_decodeRaw h
    cases i <;> simp only [encode, Raw.mk.injEq, reduceCtorEq, false_and] at he
    case selMaster => exact hA0 he.2.1.symm
    case selSlave => exact hB0 he.2.1.symm
    case xferSelMaster l => exact hxfer true l (he.2.1 ▸ hlow)
    case xferSelSlave l => exact hxfer false l (he.2.1 ▸ hlow)

end Sys2Proof
end

section
/-! SUPPORT. What the decoder computes as numbers (43_decoder R155 to R157), and what is known of a record it makes. -/
namespace Sys2Proof.Machine

theorem wordCount_toNat (lo hi : Word) :
    (lo.setWidth 64 ||| hi.setWidth 64 <<< 16).toNat = lo.toNat + hi.toNat * 2 ^ 16 := by
  have hlo : (lo.setWidth 64).toNat = lo.toNat := BitVec.toNat_setWidth_of_le (by decide)
  rw [toNat_or_shiftLeft_word hi (by rw [hlo]; exact lo.isLt) (by decide), hlo]

/-- The doubled word count fits in 64 bits (92 D13). -/
theorem logicalSize_toNat (w : Vector Word 256) :
    (logicalSize w).toNat =
      if validityBits w[106] && w[106].getLsbD 12 then 2 * (w[117].toNat + w[118].toNat * 2 ^ 16) else 512 := by
  unfold logicalSize
  split
  case isTrue =>
    have hlo := w[117].isLt
    have hhi := w[118].isLt
    rw [BitVec.toNat_mul, wordCount_toNat, show (2 : BitVec 64).toNat = 2 from rfl]
    omega
  case isFalse => rfl

theorem logicalSize_even_le (w : Vector Word 256) :
    (logicalSize w).toNat % 2 = 0 ∧ (logicalSize w).toNat ≤ 2 ^ 33 - 2 := by
  have hlo := w[117].isLt
  have hhi := w[118].isLt
  rw [logicalSize_toNat]
  split <;> omega

/-- At most fifteen places of shift keep the physical size below 2^64. -/
theorem physicalSize_toNat (w : Vector Word 256) :
    (physicalSize w).toNat =
      (logicalSize w).toNat * if validityBits w[106] && w[106].getLsbD 13 then 2 ^ (w[106].toNat % 16) else 1 := by
  unfold physicalSize
  split
  case isTrue =>
    obtain ⟨-, hsize⟩ := logicalSize_even_le w
    have hshift : (w[106].extractLsb' 0 4).toNat = w[106].toNat % 16 := by simp
    have hpow : 2 ^ (w[106].toNat % 16) ≤ 2 ^ 15 := Nat.pow_le_pow_right (by decide) (by omega)
    have hfits : (logicalSize w).toNat * 2 ^ (w[106].toNat % 16) < 2 ^ 64 :=
      lt_of_le_of_lt (Nat.mul_le_mul hsize hpow) (by decide)
    rw [BitVec.toNat_shiftLeft, hshift, Nat.shiftLeft_eq, Nat.mod_eq_of_lt hfits]
  case isFalse => rw [Nat.mul_one]

/-- Bits 3:2 of a word, left in place. -/
theorem alignmentBits_toNat (v : Word) : ((v &&& 0x000C#16).setWidth 64).toNat = v.toNat / 4 % 4 * 4 := by
  have hbits : v &&& 0x000C#16 = (v.extractLsb' 2 2).setWidth 16 <<< 2 := by
    ext i hi
    interval_cases i <;> simp
  have hlt := Nat.mod_lt (v.toNat / 4) (show 4 > 0 by decide)
  rw [BitVec.toNat_setWidth_of_le (by decide), hbits, BitVec.toNat_shiftLeft, BitVec.toNat_setWidth_of_le (by decide),
    BitVec.extractLsb'_toNat, Nat.shiftRight_eq_div_pow, Nat.shiftLeft_eq]
  omega

theorem sectorAlignment_toNat (w : Vector Word 256) :
    (sectorAlignment w).toNat =
      if (validityBits w[106] && w[106].getLsbD 13 && validityBits w[209]) then w[209].toNat / 4 % 4 * 4 else 0 := by
  unfold sectorAlignment
  split
  case isTrue => exact alignmentBits_toNat _
  case isFalse => rfl

/-- Settles O36: the sizes and the alignment as numbers, in the case that word 106 passes the validity test. -/
theorem decodeValidGeometry : Obligations.DecodeValidGeometry := by
  intro w hw
  have hvalid : validityBits w[106] = true := (validityBits_iff _).2 hw
  refine ⟨?logical, ?physical, ?alignment⟩
  case logical => exact (logicalSize_toNat w).trans (by rw [hvalid, Bool.true_and])
  case physical => exact (physicalSize_toNat w).trans (by rw [hvalid, Bool.true_and]; rfl)
  case alignment =>
    exact (sectorAlignment_toNat w).trans (by simp only [hvalid, Bool.true_and, Bool.and_eq_true, validityBits_iff])

/-- A record the decoder made (R155). -/
theorem makeRecord_decodable (p : Params) (ch : Channel) (m : Bool) (w : Vector Word 256) :
    (makeRecord p ch m w).decodable :=
  logicalSize_even_le w

/-- A record is put on the channel the drive answered on (R133). -/
theorem knows_makeRecord (p : Params) (ch : Channel) (m : Bool) (w : Vector Word 256) :
    p.knows (makeRecord p ch m w) = true := by
  cases ch <;> simp [Params.knows, makeRecord, Params.base]

end Sys2Proof.Machine
end

section
/-! SUPPORT. The engine state (10_state R12 to R15): which instruction writes what of it, and the records a registry can
hold. -/
namespace Sys2Proof.Machine

/-! ### The registry after probing (R133) -/

/-- Each of the four positions gives at most one record. -/
theorem probeAll_count_le (s : State) : (probeAll s).count ≤ 4 := by
  obtain ⟨f₀, f₁, f₂, f₃, hdev⟩ := probeAll_dev s
  have hone : ∀ o : Option Device, o.toList.length ≤ 1 := fun o => by cases o <;> simp
  have h₀ := hone (f₀.map (makeRecord s.params .primary true))
  have h₁ := hone (f₁.map (makeRecord s.params .primary false))
  have h₂ := hone (f₂.map (makeRecord s.params .secondary true))
  have h₃ := hone (f₃.map (makeRecord s.params .secondary false))
  simp only [State.count, hdev, List.length_append]
  omega

theorem mem_probeAll_dev {s : State} {d : Device} (h : d ∈ (probeAll s).dev) :
    ∃ ch m w, d = makeRecord s.params ch m w := by
  obtain ⟨f₀, f₁, f₂, f₃, hdev⟩ := probeAll_dev s
  have hone : ∀ ch m (f : Option (Vector Word 256)), d ∈ (f.map (makeRecord s.params ch m)).toList →
      ∃ ch m w, d = makeRecord s.params ch m w := by
    intro ch m f hd
    obtain ⟨w, -, rfl⟩ : ∃ w, f = some w ∧ makeRecord s.params ch m w = d := by simpa using hd
    exact ⟨ch, m, w, rfl⟩
  rw [hdev] at h
  simp only [List.mem_append] at h
  rcases h with ((h | h) | h) | h <;> exact hone _ _ _ h

/-- Probing writes the registry, and `selected` if the registry is not empty (R123, R136). -/
theorem probeAll_engine (s : State) :
    (probeAll s).initDone = s.initDone ∧
      (((probeAll s).count = 0 ∧ (probeAll s).selected = s.selected) ∨
        ((probeAll s).count ≠ 0 ∧ (probeAll s).selected = .device 0)) := by
  obtain ⟨_, _, _, _, _, _, _, _, _, _, -, -, -, -, -, -, rfl, hini, hsel⟩ := probeAll_acts s
  refine ⟨hini, ?_⟩
  rcases hsel with ⟨hdev, -, hsel⟩ | ⟨d, -, hhead, -, hsel, -⟩
  · exact .inl ⟨by rw [State.count, hdev]; rfl, hsel⟩
  · refine .inr ⟨fun hc => ?_, hsel⟩
    rw [List.eq_nil_of_length_eq_zero hc] at hhead
    cases hhead

/-- The first INIT is PROBE_ALL (R134). -/
theorem initialise_first {s : State} (h : s.initDone = false) :
    initialise s = (.deviceCount (probeAll s).count, { probeAll s with initDone := true }) := by
  simp only [initialise, h, Bool.false_eq_true, if_false]

/-- A later INIT only answers (R134). -/
theorem initialise_later {s : State} (h : s.initDone = true) : initialise s = (.deviceCount s.count, s) := by
  simp only [initialise, h, if_true]

/-- INIT answers the count that it leaves (R134). -/
theorem initialise_result (s : State) : (initialise s).1 = .deviceCount (initialise s).2.count := by
  rcases hdone : s.initDone with _ | _
  · rw [initialise_first hdone]
    rfl
  · rw [initialise_later hdone]

/-! ### Who writes the engine state (R12 to R15) -/

theorem readSectors_engine (device : Nat) (lba : BitVec 32) (cnt : Byte) (out : Nat) (s : State) :
    (readSectors device lba cnt out s).2.dev = s.dev ∧ (readSectors device lba cnt out s).2.initDone = s.initDone ∧
      (readSectors device lba cnt out s).2.selected = s.selected := by
  simp only [readSectors]
  split <;> exact ⟨rfl, rfl, rfl⟩

theorem writeSectors_engine (device : Nat) (lba : BitVec 32) (cnt : Byte) (data : Nat) (s : State) :
    (writeSectors device lba cnt data s).2.dev = s.dev ∧ (writeSectors device lba cnt data s).2.initDone = s.initDone ∧
      (writeSectors device lba cnt data s).2.selected = s.selected := by
  simp only [writeSectors]
  split <;> exact ⟨rfl, rfl, rfl⟩

/-- READ writes what its ENSURE_SELECTED writes, if it gets there. -/
theorem readBytes_engine (id buffer : Nat) (off size : BitVec 64) (s : State) :
    (readBytes id buffer off size s).2.dev = s.dev ∧ (readBytes id buffer off size s).2.initDone = s.initDone ∧
      ((readBytes id buffer off size s).2.selected = s.selected ∨
        ((readBytes id buffer off size s).2.selected = .device id ∧ id < s.count)) := by
  simp only [readBytes]
  split
  · exact ⟨rfl, rfl, .inl rfl⟩
  · obtain ⟨hdev, hini, hsel⟩ := ensureSelected_engine id s
    obtain ⟨hdev', hini', hsel'⟩ := readSectors_engine id _ _ buffer (ensureSelected id s).2
    rw [hdev', hini', hsel']
    exact ⟨hdev, hini, hsel⟩

/-- WRITE likewise. -/
theorem writeBytes_engine (id buffer : Nat) (off size : BitVec 64) (s : State) :
    (writeBytes id buffer off size s).2.dev = s.dev ∧ (writeBytes id buffer off size s).2.initDone = s.initDone ∧
      ((writeBytes id buffer off size s).2.selected = s.selected ∨
        ((writeBytes id buffer off size s).2.selected = .device id ∧ id < s.count)) := by
  simp only [writeBytes]
  split
  · exact ⟨rfl, rfl, .inl rfl⟩
  · obtain ⟨hdev, hini, hsel⟩ := ensureSelected_engine id s
    obtain ⟨hdev', hini', hsel'⟩ := writeSectors_engine id _ _ buffer (ensureSelected id s).2
    rw [hdev', hini', hsel']
    exact ⟨hdev, hini, hsel⟩

/-- The instructions that can select the device `id` (R121, R122, R200, R201). -/
def Selects (i : Instr) (id : Nat) : Prop :=
  i = .select id ∨ i = .ensureSelected id ∨ (∃ buf off size, i = .read id buf off size) ∨
    ∃ buf off size, i = .write id buf off size

/-- What a body writes of the engine state: `selected`, if it names a populated slot; or what probing writes. -/
theorem body_engine (i : Instr) (s : State) :
    ((body i s).2.dev = s.dev ∧ (body i s).2.initDone = s.initDone ∧
      ((body i s).2.selected = s.selected ∨
        ∃ id, Selects i id ∧ (body i s).2.selected = .device id ∧ id < s.count)) ∨
    ((i = .probeAll ∧ (body i s).2.initDone = s.initDone ∨ i = .init ∧ (body i s).2.initDone = true) ∧
      (body i s).2.dev = (probeAll s).dev ∧ (body i s).2.selected = (probeAll s).selected) := by
  cases i with
  | init =>
    rcases hdone : s.initDone with _ | _
    · rw [body, initialise_first hdone]
      exact .inr ⟨.inr ⟨rfl, rfl⟩, rfl, rfl⟩
    · rw [body, initialise_later hdone]
      exact .inl ⟨rfl, hdone, .inl rfl⟩
  | probeAll => exact .inr ⟨.inl ⟨rfl, (probeAll_engine s).1⟩, rfl, rfl⟩
  | select id =>
    obtain ⟨hdev, hini, hsel⟩ := selectDevice_engine id s
    exact .inl ⟨hdev, hini, hsel.imp_right fun h => ⟨id, .inl rfl, h⟩⟩
  | ensureSelected id =>
    obtain ⟨hdev, hini, hsel⟩ := ensureSelected_engine id s
    exact .inl ⟨hdev, hini, hsel.imp_right fun h => ⟨id, .inr (.inl rfl), h⟩⟩
  | read id buf off size =>
    obtain ⟨hdev, hini, hsel⟩ := readBytes_engine id buf off size s
    exact .inl ⟨hdev, hini, hsel.imp_right fun h => ⟨id, .inr (.inr (.inl ⟨buf, off, size, rfl⟩)), h⟩⟩
  | write id buf off size =>
    obtain ⟨hdev, hini, hsel⟩ := writeBytes_engine id buf off size s
    exact .inl ⟨hdev, hini, hsel.imp_right fun h => ⟨id, .inr (.inr (.inr ⟨buf, off, size, rfl⟩)), h⟩⟩
  | readSectors d lba n b =>
    obtain ⟨hdev, hini, hsel⟩ := readSectors_engine d lba n b s
    exact .inl ⟨hdev, hini, .inl hsel⟩
  | writeSectors d lba n b =>
    obtain ⟨hdev, hini, hsel⟩ := writeSectors_engine d lba n b s
    exact .inl ⟨hdev, hini, .inl hsel⟩
  | identifyCmd | readSectorsCmd | writeSectorsCmd | flushCacheCmd | selMaster | selSlave | xferSelMaster | xferSelSlave
  | selectPosition | poll | identify | decode | readSectors48 | writeSectors48 => exact .inl ⟨rfl, rfl, .inl rfl⟩

/-- Settles O50: the engine state after an instruction is what its body wrote. -/
theorem engineStateWriters : Obligations.EngineStateWriters := by
  intro i s t h
  obtain ⟨-, rfl⟩ := exec_next h
  rcases body_engine i (s.accept i) with ⟨hdev, hini, hsel⟩ | ⟨hop, hdev, hsel⟩
  · refine ⟨fun hne => absurd hdev hne, fun hne => absurd hini hne, fun hne => .inr ?_⟩
    obtain ⟨id, hop, hsel, hlt⟩ := hsel.resolve_left hne
    exact ⟨id, hsel, hlt, hop⟩
  · obtain ⟨-, hprobe⟩ := probeAll_engine (s.accept i)
    refine ⟨fun _ => ?dev, fun hne => ?ini, fun hne => .inl ⟨?op, ?sel⟩⟩
    case dev | op => exact hop.symm.imp And.left And.left
    case ini => exact hop.resolve_left fun hp => hne hp.2
    case sel =>
      obtain ⟨-, hsame⟩ | ⟨hcount, hzero⟩ := hprobe
      · exact absurd (hsel.trans hsame) hne
      · exact ⟨hsel.trans hzero, by rw [State.deliver_count, State.count, hdev]; exact hcount⟩

/-! ### The records of a registry (R11, R155) -/

/-- A record after a request was there before, or was probed. -/
theorem mem_body_dev {i : Instr} {s : State} {d : Device} (h : d ∈ (body i s).2.dev) :
    d ∈ s.dev ∨ ∃ ch m w, d = makeRecord s.params ch m w := by
  rcases body_engine i s with ⟨hdev, -⟩ | ⟨-, hdev, -⟩ <;> rw [hdev] at h
  · exact .inl h
  · exact .inr (mem_probeAll_dev h)

theorem body_registryKnown (i : Instr) {s : State} (h : s.registryKnown = true) :
    (body i s).2.registryKnown = true := by
  obtain ⟨evs, ha, -⟩ := body_acts i s
  rw [State.registryKnown, List.all_eq_true] at h ⊢
  intro d hd
  rw [ha.params]
  rcases mem_body_dev hd with hd | ⟨ch, m, w, rfl⟩
  · exact h d hd
  · exact knows_makeRecord s.params ch m w

theorem body_count_le (i : Instr) {s : State} (h : s.count ≤ 4) : (body i s).2.count ≤ 4 := by
  rcases body_engine i s with ⟨hdev, -⟩ | ⟨-, hdev, -⟩ <;> rw [State.count, hdev]
  · exact h
  · exact probeAll_count_le s

theorem body_selected_inRange (i : Instr) {s : State} (h : s.selected.inRange s.count) :
    (body i s).2.selected.inRange (body i s).2.count := by
  rcases body_engine i s with ⟨hdev, -, hsel⟩ | ⟨-, hdev, hsel⟩
  · rw [State.count, hdev]
    rcases hsel with hsel | ⟨id, -, hsel, hlt⟩ <;> rw [hsel]
    · exact h
    · exact .inl hlt
  · rw [State.count, hdev, hsel]
    rcases (probeAll_engine s).2 with ⟨hcount, -⟩ | ⟨hcount, hzero⟩
    · rw [show (probeAll s).dev.length = 0 from hcount]
      cases (probeAll s).selected with
      | unselected => trivial
      | device i => exact .inr rfl
    · rw [hzero]
      exact .inl (Nat.pos_of_ne_zero hcount)

end Sys2Proof.Machine
end

section
/-! SUPPORT. Steps: what one step can do, the readiness of the engine after a request, and the invariant of a run. -/
namespace Sys2Proof.Machine

/-! ### Requests -/

/-- Settles O59: a ready engine runs the body and delivers; the body keeps what `Ready` asks of the parameters, the
registry and the ports. -/
theorem everyRequestCompletes : Obligations.EveryRequestCompletes := by
  intro i s h
  obtain ⟨evs, ha, -⟩ := body_acts i (s.accept i)
  refine ⟨_, exec_ready h i, rfl, ?params, body_registryKnown i h.known, ?completes⟩
  case params =>
    rw [State.deliver_params, ha.params]
    exact h.params
  case completes =>
    rw [State.deliver_stall, ha.stall]
    exact h.completes

/-- Settles O10: `refusal` tests the phase, the parameters and the registry, in this order. -/
theorem requestRefusals : Obligations.RequestRefusals := by
  intro i s
  rw [exec_eq_perform]
  refine ⟨fun hphase => ?_, fun hphase hparams => ?_, fun hphase hparams hknown => ?_⟩
  · simp [perform, State.refusal, hphase]
  · simp [perform, State.refusal, hphase, hparams]
  · simp [perform, State.refusal, hphase, hparams, hknown]

/-- A request runs alike whatever access stalls, whatever was delivered last and whatever the working registers held. -/
theorem body_accept_masked (i : Instr) (s : State) (st : Option Nat) (res : Option Result) (w : Option Work) :
    body i (State.accept i { s with stall := st, result := res, work := w }) =
      ((body i (s.accept i)).1, (body i (s.accept i)).2.masked (.busy i) st res) :=
  body_masked i (.busy i) st res (s.accept i)

/-- Settles O11: the body does not look at `stall`; only the delivery does. -/
theorem stalledAccessFaults : Obligations.StalledAccessFaults := by
  intro i s t n _ h
  obtain ⟨hrefusal, rfl⟩ := exec_next h
  have hrefusal' : State.refusal { s with stall := some n } = none := hrefusal
  have hbody := body_accept_masked i s (some n) s.result s.work
  simp only [exec_eq_perform, perform, hrefusal', hbody]
  rfl

theorem conclude_masked {s t : State} (h : t.stall = s.stall) (ph : Phase) (last : Option Result) (res : Result) :
    conclude s res (t.masked ph s.stall last) = conclude s res t := by
  have hdeliver : (t.masked ph s.stall last).deliver res = t.deliver res := by
    rw [← h]
    rfl
  simp only [conclude, hdeliver, show (t.masked ph s.stall last).accesses = t.accesses from rfl]

/-- Settles O12: acceptance sets the working registers anew, and the body does not look at the result. -/
theorem requestsStartClean : Obligations.RequestsStartClean := by
  intro i s res w
  obtain ⟨evs, ha, -⟩ := body_acts i (s.accept i)
  have hconclude := conclude_masked (s := s) ha.stall (.busy i) res (body i (s.accept i)).1
  have hrefusal : State.refusal { s with result := res, work := w } = s.refusal := rfl
  simp only [exec_eq_perform, perform, body_accept_masked i s s.stall res w, hrefusal]
  cases s.refusal with
  | some r => rfl
  | none => exact hconclude

/-! ### Steps -/

/-- Settles O8: with no request there is nothing to fetch. -/
theorem stepWaitsWithoutRequest : Obligations.StepWaitsWithoutRequest := by
  intro s h
  simp only [step, State.fetch, h]

/-- A step with a request waiting issues it. -/
theorem step_of_requests {s : State} {raw : Raw} {rest : List Raw} (h : s.requests = raw :: rest) :
    step s = issue raw { s with requests := rest } := by
  simp only [step, State.fetch, h]

/-- Settles O7: the step issues the request, which decodes to the instruction. -/
theorem stepRunsDecodedRequest : Obligations.StepRunsDecodedRequest := by
  intro s raw rest i hreq hdec _
  rw [step_of_requests hreq, issue, hdec]

/-- A ready engine answers an unknown request code at once (R81 a). -/
theorem answerUnknownRequest_ready {s : State} (h : s.Ready) :
    answerUnknownRequest s = .next (s.afterEvents [] (.err .invalidArgument 0)) := by
  simp [answerUnknownRequest, h.refusal, conclude, h.completes, raiseError, State.deliver, State.afterEvents, h.idle,
    replay]

/-- Settles O9: such a code decodes to `unknownRequestCode`, which is answered at once. -/
theorem unknownRequestCodeAnswered : Obligations.UnknownRequestCodeAnswered := by
  intro s b args rest h hlow hhigh hreq
  rw [step_of_requests hreq, issue, decodeRaw_unlisted_code hlow hhigh]
  exact answerUnknownRequest_ready ⟨h.idle, h.params, h.known, h.completes⟩

/-- All a step can do: wait, run an instruction on the next request, or answer an unknown request code. -/
theorem step_cases {s t : State} (h : step s = .next t) :
    t = s ∨ ∃ rest, (∃ i, exec i { s with requests := rest } = .next t) ∨
      t = State.deliver (.err .invalidArgument 0) { s with requests := rest } := by
  rcases hreq : s.requests with _ | ⟨raw, rest⟩
  · rw [stepWaitsWithoutRequest s hreq] at h
    cases h
    exact .inl rfl
  · rw [step_of_requests hreq, issue] at h
    refine .inr ⟨rest, ?_⟩
    split at h
    · exact .inl ⟨_, h⟩
    · rename_i e _
      cases e with
      | unknownRequestCode => exact .inr (answerUnknownRequest_next h).2
      | notACommandByte | notASelectByte | wrongArgumentCount | argumentTooWide => cases h

/-! ### The invariant -/

/-- Settles O13: each is a field of the state after reset. -/
theorem resetState : Obligations.ResetState := ⟨rfl, rfl, rfl, rfl, rfl, rfl, rfl⟩

/-- Settles O14: the registry, the buffer and the trace are empty, and the default bases differ. -/
theorem resetInvariant : Obligations.ResetInvariant where
  params := by simp [State.reset, Params.default, Params.wf, Config.flushBudget, Config.pollBudget]
  idle := rfl
  noWork := rfl
  capacity := Nat.zero_le 4
  known := rfl
  decodable := fun _ h => absurd h List.not_mem_nil
  selected := trivial
  memory := Memory.wf_nil
  allowed := fun _ h => absurd h List.not_mem_nil
  counted := rfl

/-- A request taken or a result delivered is none of the invariant's business. -/
theorem State.Inv.withRequests {s : State} (h : s.Inv) (rest : List Raw) : State.Inv { s with requests := rest } :=
  ⟨h.params, h.idle, h.noWork, h.capacity, h.known, h.decodable, h.selected, h.memory, h.allowed, h.counted⟩

theorem State.Inv.deliver {s : State} (h : s.Inv) (res : Result) : (s.deliver res).Inv :=
  ⟨h.params, rfl, rfl, h.capacity, h.known, h.decodable, h.selected, h.memory, h.allowed, h.counted⟩

/-- The parameters stay, the trace tells the buffer and the count, and the registry keeps its records or gets probed
ones. -/
theorem exec_keeps_inv {i : Instr} {s t : State} (hs : s.Inv) (h : exec i s = .next t) : t.Inv := by
  obtain ⟨-, rfl⟩ := exec_next h
  obtain ⟨evs, ha, hallowed⟩ := body_acts i (s.accept i)
  have hlog : (body i (s.accept i)).2.log = evs.reverse ++ s.log := by rw [ha.result]; rfl
  exact
    { params := by rw [State.deliver_params, ha.params]; exact hs.params
      idle := rfl
      noWork := rfl
      capacity := body_count_le i hs.capacity
      known := body_registryKnown i hs.known
      decodable := fun d hd => by
        rcases mem_body_dev hd with hd | ⟨ch, m, w, rfl⟩
        · exact hs.decodable d hd
        · exact makeRecord_decodable _ ch m w
      selected := body_selected_inRange i hs.selected
      memory := by rw [State.deliver_mem, ha.mem]; exact replay_wf evs hs.memory
      allowed := fun e he => by
        rw [State.deliver_params, ha.params]
        rw [State.deliver_log, hlog, List.mem_append, List.mem_reverse] at he
        exact he.elim (hallowed e) (hs.allowed e)
      counted := by
        rw [State.deliver_accesses, State.deliver_log, ha.accesses, hlog, List.countP_append, List.countP_reverse,
          Nat.add_comm]
        exact congrArg _ hs.counted }

/-- Settles O15: each way a step can go keeps the invariant. -/
theorem stepKeepsInvariant : Obligations.StepKeepsInvariant := by
  intro s t hs h
  rcases step_cases h with rfl | ⟨rest, ⟨i, h⟩ | rfl⟩
  · exact hs
  · exact exec_keeps_inv (hs.withRequests rest) h
  · exact (hs.withRequests rest).deliver _

end Sys2Proof.Machine
end

section
/-! SUPPORT. Words of the buffer as numbers (20_memory R45), and the requests that make a single write, a poll or a
selection. -/
namespace Sys2Proof.Machine

/-! ### Words of the buffer (R45) -/

theorem lowByte_toNat (v : Word) : (v.extractLsb' 0 8).toNat = v.toNat % 256 := by simp

theorem highByte_toNat (v : Word) : (v.extractLsb' 8 8).toNat = v.toNat / 256 := by
  have hv := v.isLt
  rw [BitVec.extractLsb'_toNat, Nat.shiftRight_eq_div_pow]
  omega

/-- Settles O16: the two bytes of the word just written are its halves, and a word read is composed of the same two. -/
theorem wordIsLittleEndian : Obligations.WordIsLittleEndian := by
  intro m a v hm
  have hlow := congrArg BitVec.toNat (Memory.read_writeWord_low hm a v)
  have hhigh := congrArg BitVec.toNat (Memory.read_writeWord_high hm a v)
  rw [lowByte_toNat] at hlow
  rw [highByte_toNat] at hhigh
  refine ⟨hlow, hhigh, fun b hb hb' => Memory.read_writeWord_other hb hb' v, ?back, ?compose⟩
  case back =>
    apply BitVec.eq_of_toNat_eq
    rw [Memory.readWord_toNat, hlow, hhigh]
    omega
  case compose => rw [Memory.readWord_toNat, Nat.add_comm]

/-! ### Bytes issued alone (R71, R73, R74) -/

theorem commandAlone_ready {s : State} (h : s.Ready) (op : Instr) (ch : Channel) (c : Command) :
    commandAlone op ch c s = .next (s.afterEvents [.w8 (s.params.port ch .command) c.byte] .nothing) :=
  perform_runWith h op (fun t r => (.nothing, writeCommand .order t.params ch c r)) did_commandOrder

theorem selectAlone_ready {s : State} (h : s.Ready) (op : Instr) (ch : Channel) (v : Byte) :
    selectAlone op ch v s = .next (s.afterEvents [.w8 (s.params.port ch .deviceSelect) v] .nothing) :=
  perform_runWith h op (fun t r => (.nothing, writeSelect .order t.params ch v r)) did_selectOrder

/-- Settles O17: each is the one write of its command's byte. -/
theorem commandBytesWritten : Obligations.CommandBytesWritten := fun _ ch h =>
  ⟨commandAlone_ready h (.identifyCmd ch) ch .identify, commandAlone_ready h (.readSectorsCmd ch) ch .readSectors,
    commandAlone_ready h (.writeSectorsCmd ch) ch .writeSectors,
    commandAlone_ready h (.flushCacheCmd ch) ch .flushCache⟩

/-- Under the high nibble of the transfer form the operand is added without a carry (R74). -/
theorem transferSelectByte_eq_add (m : Bool) (l : BitVec 4) :
    transferSelectByte m l = BitVec.ofNat 8 ((if m then 0xE0 else 0xF0) + l.toNat) := by
  revert m l
  decide

/-- Settles O18: each is the one write of its select byte. -/
theorem selectBytesWritten : Obligations.SelectBytesWritten := by
  refine fun s ch h => ⟨selectAlone_ready h (.selMaster ch) ch _, selectAlone_ready h (.selSlave ch) ch _, fun l => ?_⟩
  have hmaster := transferSelectByte_eq_add true l
  have hslave := transferSelectByte_eq_add false l
  exact ⟨hmaster ▸ selectAlone_ready h (.xferSelMaster ch l) ch _,
    hslave ▸ selectAlone_ready h (.xferSelSlave ch l) ch _⟩

/-! ### POLL (R102) -/

/-- Settles O19: what the poll loop does to the view of the request is what POLL does to the state. -/
theorem pollFollowsItsRule : Obligations.PollFollowsItsRule := by
  intro s ch c t e budget h
  obtain ⟨l, _, _, _, hreads, hdid, -⟩ :=
    poll_spec s.params ch c t e budget (s.accept (.poll ch c t e budget)).run
  exact ⟨l, _, hreads, hdid.answered, perform_runWith h (.poll ch c t e budget)
    (fun u r => (.polled (poll u.params ch c t e budget r).1, (poll u.params ch c t e budget r).2)) hdid⟩

/-- Settles O20: POLL makes some reads that the rule allows, and the answers leave no other. -/
theorem pollDeterminedByAnswers : Obligations.PollDeterminedByAnswers := by
  intro s ch c t e budget l o h hreads hscript
  obtain ⟨hlen, hc⟩ := hscript
  obtain ⟨l', o', hreads', hc', hexec⟩ := pollFollowsItsRule s ch c t e budget h
  rw [countP_statusEvents] at hlen
  obtain ⟨rfl, rfl⟩ := hreads.unique (p := s.params) (ch := ch) (x := []) (x' := []) hreads'
    (by rwa [List.append_nil]) (by rwa [List.append_nil]) hlen
  exact hexec

/-- Settles O21: both sides look at single bits of the 256 status bytes. -/
theorem pollPredicates : Obligations.PollPredicates := by
  unfold Obligations.PollPredicates
  decide

/-! ### Selection (R120 to R122) -/

/-- Settles O22: the select byte and the settle reads are all that `select_position` does. -/
theorem selectPositionEvents : Obligations.SelectPositionEvents := by
  intro s ch m h
  obtain ⟨vs, _, hlen, hdid, -⟩ := selectPosition_spec s.params ch m (s.accept (.selectPosition ch m)).run
  exact ⟨vs, hlen, hdid.answered,
    perform_runWith h (.selectPosition ch m) (fun t r => (.nothing, selectPosition t.params ch m r)) hdid⟩

/-- Settles O23: SELECT of a populated slot is `select_position` on the device's channel. -/
theorem selectValidHandle : Obligations.SelectValidHandle := by
  intro s id d h hd
  obtain ⟨vs, hlen, hres, hacts, hdev, hsel, hini⟩ := selectDevice_some (s := s.accept (.select id)) hd
  exact ⟨vs, hlen, hacts.answered, exec_acts (i := .select id) h hres hacts hdev hsel hini⟩

/-- SELECT of the device that ENSURE_SELECTED does not find selected (R122 E2). -/
theorem ensureSelected_of_ne {s : State} {id : Nat} (h : s.selected ≠ .device id) :
    ensureSelected id s = selectDevice id s := by
  rw [ensureSelected, if_neg h]

/-- ENSURE_SELECTED of a populated slot cannot fail. -/
theorem ensureSelected_of_some {s : State} {id : Nat} {d : Device} (hd : s.dev[id]? = some d) :
    (ensureSelected id s).1 = .nothing := by
  by_cases hs : s.selected = .device id
  · rw [ensureSelected, if_pos hs]
  · obtain ⟨-, -, hres, -⟩ := selectDevice_some hd
    rw [ensureSelected_of_ne hs, hres]

/-- A request that does what another does is answered as that one: only the phase in between tells them apart. -/
theorem exec_congr {s : State} {i j : Instr} (h : s.Ready) (hb : body i (s.accept i) = body j (s.accept i)) :
    exec i s = exec j s := by
  obtain ⟨evs, ha, -⟩ := body_acts j (s.accept j)
  have hmasked : body j (s.accept i) =
      ((body j (s.accept j)).1, (body j (s.accept j)).2.masked (.busy i) s.stall s.result) :=
    body_masked j (.busy i) s.stall s.result (s.accept j)
  have hstall : (body j (s.accept j)).2.stall = s.stall := ha.stall
  rw [exec_ready h, exec_ready h, hb, hmasked, ← hstall]
  rfl

/-- Settles O24: SELECT finds no record, and ENSURE_SELECTED is then SELECT. -/
theorem selectInvalidHandle : Obligations.SelectInvalidHandle := by
  intro s id h hid
  have hnone : s.dev[id]? = none := List.getElem?_eq_none hid
  refine ⟨exec_quiet h (selectDevice_none hnone), fun hsel => exec_quiet h ?_⟩
  exact (ensureSelected_of_ne (s := s.accept _) hsel).trans (selectDevice_none hnone)

/-- Settles O25: ENSURE_SELECTED answers at once for the selected device, and runs SELECT's body for any other. -/
theorem ensureSelectedPolicy : Obligations.EnsureSelectedPolicy := by
  intro s id h
  refine ⟨fun hsel => exec_quiet h ?same, fun hsel => exec_congr h (ensureSelected_of_ne hsel), fun hid => ?valid⟩
  case same => exact if_pos hsel
  case valid =>
    have hd : s.dev[id]? = some s.dev[id] := List.getElem?_eq_getElem hid
    obtain ⟨vs, -, hacts, hdev, hsel, hini⟩ := ensureSelected_some (s := s.accept (.ensureSelected id)) hd
    exact ⟨_, exec_acts (i := .ensureSelected id) h (ensureSelected_of_some hd) hacts hdev hsel hini⟩

end Sys2Proof.Machine
end

section
/-! SUPPORT. IDENTIFY, PROBE_ALL and INIT (42_identification_and_probe), and the select byte each channel's controller
has seen last (10_state R24). -/
namespace Sys2Proof.Machine

/-! ### IDENTIFY (R130) -/

theorem identifyResult_eq (found : Option (Vector Word 256)) : identifyResult found = .ofFound found := by
  cases found <;> rfl

/-- Settles O26: what `identify` does to the view of the request is what IDENTIFY does to the state. -/
theorem identifyFollowsItsRule : Obligations.IdentifyFollowsItsRule := by
  intro s ch m h
  obtain ⟨evs, htrace, hdid, -⟩ := identify_spec s.params ch m (s.accept (.identify ch m)).run
  refine ⟨evs, _, htrace, hdid.answered, ?_⟩
  rw [← identifyResult_eq]
  exact perform_runWith h (.identify ch m)
    (fun t r => (identifyResult (identify t.params ch m r).1, (identify t.params ch m r).2)) hdid

/-- Settles O27: IDENTIFY makes some trace of its rule, and the answers leave no other. -/
theorem identifyDeterminedByAnswers : Obligations.IdentifyDeterminedByAnswers := by
  intro s ch m evs found h htrace hscript
  obtain ⟨hlen, hc⟩ := hscript
  obtain ⟨evs', found', htrace', hc', hexec⟩ := identifyFollowsItsRule s ch m h
  obtain ⟨rfl, rfl⟩ := htrace.unique htrace' hc hc' hlen
  exact hexec

/-! ### PROBE_ALL and INIT (R133, R134) -/

/-- Settles O28: the four probes and the default selection are the body of PROBE_ALL. -/
theorem probeAllFollowsItsRule : Obligations.ProbeAllFollowsItsRule := by
  intro s h
  obtain ⟨e₀, e₁, e₂, e₃, f₀, f₁, f₂, f₃, e₄, sel, h₀, h₁, h₂, h₃, hacts, hdev, hsel, hini, hlast⟩ :=
    probeAll_acts (s.accept .probeAll)
  simp only [appendFound_eq, List.nil_append] at hdev
  rw [hdev] at hlast
  exact ⟨e₀, e₁, e₂, e₃, f₀, f₁, f₂, f₃, e₄, sel, h₀, h₁, h₂, h₃, hlast, hacts.answered,
    exec_acts (i := .probeAll) h rfl hacts hdev hsel hini⟩

/-- Settles O29: the record is made of the decoded buffer and the position; the bases differ. -/
theorem probedRecordFields : Obligations.ProbedRecordFields := by
  intro p ch m w hp
  have hne : p.base .primary ≠ p.base .secondary := by
    simp only [Params.wf, Bool.and_eq_true, bne_iff_ne] at hp
    exact hp.2
  refine ⟨rfl, rfl, rfl, ?_⟩
  exact ((Params.base_eq_channelBase_iff hne (knows_makeRecord p ch m w) ch).1 rfl).symm

/-- The delivery of INIT beside that of PROBE_ALL: `init_done` and the result differ, and nothing of a masked state is
left. -/
theorem deliver_masked_init (q : State) (ph : Phase) (last : Option Result) :
    State.deliver (.deviceCount (q.masked ph q.stall last).count) { q.masked ph q.stall last with initDone := true } =
      { q.deliver .registry with initDone := true, result := some (.deviceCount (q.deliver .registry).count) } :=
  rfl

/-- PROBE_ALL as a request: its body is `probeAll`. -/
theorem exec_probeAll_ready {s : State} (h : s.Ready) :
    exec .probeAll s = .next ((probeAll (s.accept .probeAll)).deliver .registry) :=
  perform_ready h .probeAll fun t => (.registry, probeAll t)

/-- Settles O30: the body of the first INIT is PROBE_ALL's, with `init_done` set and another result. -/
theorem firstInitProbes : Obligations.FirstInitProbes := by
  intro s h hini
  refine ⟨(probeAll (s.accept .probeAll)).deliver .registry, exec_probeAll_ready h, ?_⟩
  obtain ⟨evs, ha, -⟩ := body_acts .probeAll (s.accept .probeAll)
  rw [body] at ha
  have hstall : (probeAll (s.accept .probeAll)).stall = s.stall := ha.stall
  have hmasked : probeAll (s.accept .init) = (probeAll (s.accept .probeAll)).masked (.busy .init) s.stall s.result :=
    congrArg Prod.snd (body_masked .probeAll (.busy .init) s.stall s.result (s.accept .probeAll))
  rw [exec_ready h, body, initialise_first (s := s.accept .init) hini, hmasked, ← hstall]
  exact congrArg _ (deliver_masked_init _ _ _)

/-- Settles O31: a later INIT's body only answers. -/
theorem laterInitDoesNothing : Obligations.LaterInitDoesNothing := fun _ h hini =>
  exec_quiet h (initialise_later hini)

/-! ### The last select byte of a channel (R24, R253) -/

/-- The port map tells the DEVICE_SELECT ports from each other and from the other ports IDENTIFY writes. -/
structure Params.SelectPortsApart (p : Params) : Prop where
  others : ∀ ch ch' r, r ∈ [Reg.sectorCount, .lbaLow, .lbaMid, .lbaHi, .command] →
    p.port ch .deviceSelect ≠ p.port ch' r
  channels : p.port .primary .deviceSelect ≠ p.port .secondary .deviceSelect

theorem Params.SelectPortsApart.eq_iff {p : Params} (hp : p.SelectPortsApart) (ch ch' : Channel) :
    p.port ch .deviceSelect = p.port ch' .deviceSelect ↔ ch = ch' := by
  cases ch <;> cases ch' <;> simp [hp.channels, hp.channels.symm]

theorem lastSelectByte_append (p : Params) (ch : Channel) (a b : List Event) :
    lastSelectByte p ch (a ++ b) = (lastSelectByte p ch a).or (lastSelectByte p ch b) :=
  List.findSome?_append

/-- A trace that writes no DEVICE_SELECT port. -/
def noSelect (p : Params) (evs : List Event) : Prop := ∀ ch v, Event.w8 (p.port ch .deviceSelect) v ∉ evs

theorem noSelect_append {p : Params} {e f : List Event} : noSelect p (e ++ f) ↔ noSelect p e ∧ noSelect p f := by
  simp only [noSelect, List.mem_append, not_or, forall_and]

theorem noSelect_status (p : Params) (ch : Channel) (l : List Byte) : noSelect p (statusEvents p ch l) := by
  simp [noSelect, statusEvents]

theorem lastSelectByte_of_noSelect {p : Params} {evs : List Event} (h : noSelect p evs) (ch : Channel) :
    lastSelectByte p ch evs.reverse = none := by
  rw [lastSelectByte, List.findSome?_eq_none_iff]
  intro e he
  split
  · rename_i q v
    refine if_neg ?_
    rintro rfl
    exact h ch v (List.mem_reverse.1 he)
  · rfl

/-- `select_position` is seen by the controller of its own channel only. -/
theorem lastSelectByte_selectEvents {p : Params} (hp : p.SelectPortsApart) (ch ch' : Channel) (m : Bool)
    (vs : List Byte) :
    lastSelectByte p ch' (selectEvents p ch m vs).reverse =
      if ch = ch' then some (if m then 0xA0#8 else 0xB0#8) else none := by
  have hreads : noSelect p (vs.map fun v => .r8 (p.port ch .altStatus) v) := by simp [noSelect]
  rw [selectEvents, List.reverse_cons, lastSelectByte_append, lastSelectByte_of_noSelect hreads, Option.none_or]
  simp only [lastSelectByte, List.findSome?_singleton, hp.eq_iff]

section identify
variable {p : Params} {ch : Channel} {m : Bool} {evs : List Event} {found : Option (Vector Word 256)}

/-- Of all that IDENTIFY writes only its first event goes to a DEVICE_SELECT port. -/
theorem IdentifyTrace.eq_selectEvents_append (h : IdentifyTrace p ch m evs found) (hp : p.SelectPortsApart) :
    ∃ vs rest, evs = selectEvents p ch m vs ++ rest ∧ noSelect p rest := by
  have hhead : ∀ s4, noSelect p [.w8 (p.port ch .sectorCount) 0#8, .w8 (p.port ch .lbaLow) 0#8,
      .w8 (p.port ch .lbaMid) 0#8, .w8 (p.port ch .lbaHi) 0#8, .w8 (p.port ch .command) 0xEC#8,
      .r8 (p.port ch .status) s4] := by
    intro s4 ch' v
    simp [hp.others ch' ch]
  have hsignature : ∀ mid hi, noSelect p (signatureEvents p ch mid hi) := by simp [noSelect, signatureEvents]
  have hwords : ∀ w : Vector Word 256, noSelect p (w.toList.map fun v => .r16 (p.port ch .data) v) := by
    simp [noSelect]
  have hstatus := noSelect_status p ch
  cases h with
  | absent vs => exact ⟨vs, _, rfl, hhead _⟩
  | busy vs l =>
    refine ⟨vs, _, by rw [identifyHeadEvents, List.append_assoc], ?_⟩
    exact noSelect_append.2 ⟨hhead _, hstatus l⟩
  | otherKind vs l =>
    refine ⟨vs, _, by simp only [identifyHeadEvents, List.append_assoc]; rfl, ?_⟩
    simp only [noSelect_append]
    exact ⟨hhead _, hstatus l, hsignature _ _⟩
  | noData vs l l' =>
    refine ⟨vs, _, by simp only [identifyHeadEvents, List.append_assoc]; rfl, ?_⟩
    simp only [noSelect_append]
    exact ⟨hhead _, hstatus l, hsignature _ _, hstatus l'⟩
  | found vs l l' s4 w =>
    refine ⟨vs, _, by simp only [identifyHeadEvents, List.append_assoc]; rfl, ?_⟩
    simp only [noSelect_append]
    exact ⟨hhead _, hstatus l, hsignature _ _, hstatus l', hwords w⟩

theorem IdentifyTrace.lastSelectByte_reverse (h : IdentifyTrace p ch m evs found) (hp : p.SelectPortsApart)
    (ch' : Channel) :
    lastSelectByte p ch' evs.reverse = if ch = ch' then some (if m then 0xA0#8 else 0xB0#8) else none := by
  obtain ⟨vs, rest, rfl, hrest⟩ := h.eq_selectEvents_append hp
  rw [List.reverse_append, lastSelectByte_append, lastSelectByte_of_noSelect hrest, Option.none_or,
    lastSelectByte_selectEvents hp]

end identify

/-- After the four probes each channel's controller has last seen its slave selected. -/
theorem lastSelectByte_probes {p : Params} (hp : p.SelectPortsApart) {e₀ e₁ e₂ e₃ : List Event}
    {f₀ f₁ f₂ f₃ : Option (Vector Word 256)} (h₀ : IdentifyTrace p .primary true e₀ f₀)
    (h₁ : IdentifyTrace p .primary false e₁ f₁) (h₂ : IdentifyTrace p .secondary true e₂ f₂)
    (h₃ : IdentifyTrace p .secondary false e₃ f₃) (ch : Channel) :
    lastSelectByte p ch (e₀ ++ e₁ ++ e₂ ++ e₃).reverse = some 0xB0#8 := by
  simp only [List.reverse_append, lastSelectByte_append, h₀.lastSelectByte_reverse hp, h₁.lastSelectByte_reverse hp,
    h₂.lastSelectByte_reverse hp, h₃.lastSelectByte_reverse hp]
  cases ch <;> rfl

/-! ### The first INIT (R253) -/

/-- The registry holds at most one record a position, in probe order. -/
theorem probeAll_positions_sublist {s : State} (hp : s.params.wf = true) :
    ((probeAll s).dev.map fun d => (s.params.channelOf d, d.isMaster)).Sublist
      [(.primary, true), (.primary, false), (.secondary, true), (.secondary, false)] := by
  have hone : ∀ ch m (f : Option (Vector Word 256)),
      ((f.map (makeRecord s.params ch m)).toList.map fun d => (s.params.channelOf d, d.isMaster)).Sublist
        [(ch, m)] := by
    intro ch m f
    cases f with
    | none => exact List.nil_sublist _
    | some w =>
      obtain ⟨-, -, -, hch⟩ := probedRecordFields s.params ch m w hp
      simp only [Option.map_some, Option.toList_some, List.map_cons, List.map_nil, hch]
      exact List.Sublist.refl _
  obtain ⟨f₀, f₁, f₂, f₃, hdev⟩ := probeAll_dev s
  rw [hdev]
  simp only [List.map_append]
  exact (((hone .primary true f₀).append (hone .primary false f₁)).append (hone .secondary true f₂)).append
    (hone .secondary false f₃)

/-- After PROBE_ALL: the slave's byte on each channel, unless the default selection has selected a master there. -/
theorem lastSelectByte_probeAll {s : State} (hp : s.params.SelectPortsApart) (ch : Channel) :
    lastSelectByte s.params ch (probeAll s).log =
      some (match (probeAll s).dev with
        | [] => 0xB0#8
        | d :: _ => if s.params.channelOf d = ch ∧ d.isMaster then 0xA0#8 else 0xB0#8) := by
  obtain ⟨e₀, e₁, e₂, e₃, f₀, f₁, f₂, f₃, e₄, sel, h₀, h₁, h₂, h₃, hacts, -, -, -, hlast⟩ := probeAll_acts s
  have hlog : (probeAll s).log = e₄.reverse ++ (e₀ ++ e₁ ++ e₂ ++ e₃).reverse ++ s.log := by
    rw [hacts.result]
    simp only [List.reverse_append]
  rw [hlog, lastSelectByte_append, lastSelectByte_append, lastSelectByte_probes hp h₀ h₁ h₂ h₃]
  rcases hlast with ⟨hdev, rfl, -⟩ | ⟨d, vs, hhead, -, -, rfl⟩
  · rw [hdev]
    rfl
  · obtain ⟨rest, hdev⟩ := List.head?_eq_some_iff.1 hhead
    rw [hdev, lastSelectByte_selectEvents hp]
    by_cases hch : s.params.channelOf d = ch <;> by_cases hm : d.isMaster = true <;> simp [hch, hm]

/-- The engine state and the trace after PROBE_ALL are what probing made of them. -/
theorem exec_probeAll_next {s u : State} (h : exec .probeAll s = .next u) :
    u.params = s.params ∧ u.dev = (probeAll (s.accept .probeAll)).dev ∧
      u.selected = (probeAll (s.accept .probeAll)).selected ∧ u.log = (probeAll (s.accept .probeAll)).log := by
  obtain ⟨evs, hacts, -⟩ := body_acts .probeAll (s.accept .probeAll)
  obtain ⟨-, rfl⟩ := exec_next h
  simp only [body, State.deliver_params, State.deliver_dev, State.deliver_selected, State.deliver_log, and_self,
    and_true]
  exact hacts.params

/-- Settles O32: the first INIT is PROBE_ALL, which has the registry, the default selection and the select bytes. -/
theorem afterFirstInit : Obligations.AfterFirstInit := by
  intro s t h hini hunselected hothers hchannels hexec
  obtain ⟨u, hprobe, hinit⟩ := firstInitProbes s h hini
  rw [hinit] at hexec
  cases hexec
  obtain ⟨hparams, hdev, hsel, hlog⟩ := exec_probeAll_next hprobe
  have hcount : u.count = (probeAll (s.accept .probeAll)).count := congrArg List.length hdev
  refine ⟨rfl, rfl, hcount.trans_le (probeAll_count_le _), ?selected, ?positions, fun ch => ?select⟩
  case selected =>
    have hdefault := (probeAll_engine (s.accept .probeAll)).2
    rw [← hcount, ← hsel] at hdefault
    rcases hdefault with ⟨hzero, hsame⟩ | ⟨hpos, hdevice⟩
    · exact (hsame.trans hunselected).trans (if_pos hzero).symm
    · exact hdevice.trans (if_neg hpos).symm
  case positions =>
    have hpositions := probeAll_positions_sublist (s := s.accept .probeAll) h.params
    rw [← hdev] at hpositions
    rw [hparams]
    exact hpositions
  case select =>
    have hselect := lastSelectByte_probeAll (s := s.accept .probeAll) ⟨hothers, hchannels⟩ ch
    rw [← hdev, ← hlog] at hselect
    rw [hparams]
    exact hselect

end Sys2Proof.Machine
end

section
/-! SUPPORT. Sector transfers (44_sector_transfer) and byte ranges (45_byte_entry) as requests: the split of the LBA,
the checks, and the traces past them. -/
namespace Sys2Proof.Machine

/-! ### The LBA (R75) -/

theorem lbaSelectNibble_toNat {lba : BitVec 32} (h : lba.toNat < 2 ^ 28) :
    (lbaSelectNibble lba).toNat = lba.toNat / 2 ^ 24 := by
  rw [lbaSelectNibble, BitVec.extractLsb'_toNat, Nat.shiftRight_eq_div_pow]
  omega

/-- Settles O5: below 2^28 the nibble of the select byte and the three LBA bytes are the digits of the LBA. -/
theorem lbaSplitRecombines : Obligations.LbaSplitRecombines := by
  intro m lba htop
  have hlba : lba.toNat < 2 ^ 28 := lbaTopNibble_eq_zero.1 htop
  have hselect :
      (transferSelectByte m (lbaSelectNibble lba)).toNat = (if m then 0xE0 else 0xF0) + lba.toNat / 2 ^ 24 := by
    rw [transferSelectByte_eq_add, lbaSelectNibble_toNat hlba, BitVec.toNat_ofNat]
    cases m <;> simp only [Bool.false_eq_true, if_true, if_false] <;> omega
  refine ⟨hselect, ?_⟩
  rw [hselect, lbaHiByte_eq, lbaMidByte_eq, lbaLowByte_eq]
  simp only [BitVec.toNat_ofNat]
  cases m <;> simp only [Bool.false_eq_true, if_true, if_false] <;> omega

/-! ### The checks of a transfer (R171) -/

theorem transferChecks_unsupported {dev : List Device} {device : Nat} {lba : BitVec 32} {cnt : Byte}
    (h : 2 ^ 28 ≤ lba.toNat) : transferChecks dev device lba cnt = .error .unsupportedAddress :=
  if_pos fun htop => absurd (lbaTopNibble_eq_zero.1 htop) (not_lt.2 h)

theorem transferChecks_invalid {dev : List Device} {device : Nat} {lba : BitVec 32} {cnt : Byte}
    (hlba : lba.toNat < 2 ^ 28) (h : ∀ d, transferChecks dev device lba cnt ≠ .ok d) :
    transferChecks dev device lba cnt = .error .invalidArgument := by
  have htop : lbaTopNibble lba = 0 := lbaTopNibble_eq_zero.2 hlba
  rcases hc : transferChecks dev device lba cnt with kind | d
  · rw [transferChecks, if_neg (not_not.2 htop)] at hc
    split at hc
    · exact hc.symm
    · split_ifs at hc <;> exact hc.symm
  · exact absurd hc (h d)

/-- A READ_SECTORS that its checks refuse does nothing (R171). -/
theorem readSectors_refused {s : State} {device : Nat} {lba : BitVec 32} {cnt : Byte} {kind : ErrorKind}
    (h : transferChecks s.dev device lba cnt = .error kind) (out : Nat) :
    readSectors device lba cnt out s = (.err kind 0, s) := by
  rw [readSectors, h]
  rfl

theorem writeSectors_refused {s : State} {device : Nat} {lba : BitVec 32} {cnt : Byte} {kind : ErrorKind}
    (h : transferChecks s.dev device lba cnt = .error kind) (data : Nat) :
    writeSectors device lba cnt data s = (.err kind 0, s) := by
  rw [writeSectors, h]
  rfl

/-- Settles O37: the checks give the kind, and a refused transfer only answers. -/
theorem transferChecksRefuse : Obligations.TransferChecksRefuse := by
  intro s device lba cnt buf kind h hcases
  have hc : transferChecks s.dev device lba cnt = .error kind := by
    rcases hcases with ⟨hlba, rfl⟩ | ⟨hlba, rfl, hbad⟩
    · exact transferChecks_unsupported hlba
    · refine transferChecks_invalid hlba fun d hok => ?_
      obtain ⟨-, hd, hcnt, hsize⟩ := transferChecks_ok.1 hok
      rcases hbad with hdevice | hzero | ⟨e, he, hsector⟩
      · rw [List.getElem?_eq_none hdevice] at hd
        cases hd
      · exact hcnt hzero
      · rw [he] at hd
        cases hd
        rw [badSectorSize_eq_true.2 hsector] at hsize
        cases hsize
  exact ⟨exec_quiet h (readSectors_refused (s := s.accept _) hc buf),
    exec_quiet h (writeSectors_refused (s := s.accept _) hc buf)⟩

/-- Settles O43: the stubs raise at once. -/
theorem fortyEightBitStubs : Obligations.FortyEightBitStubs := fun _ _ _ _ _ h => ⟨exec_quiet h rfl, exec_quiet h rfl⟩

/-- The hypotheses of the statements about transfers are what the checks let through. -/
theorem transferChecks_of {dev : List Device} {device : Nat} {lba : BitVec 32} {cnt : Byte} {d : Device}
    (hlba : lba.toNat < 2 ^ 28) (hd : dev[device]? = some d) (hcnt : cnt ≠ 0#8) (hsize : d.logicalSectorSize ≠ 0#64)
    (heven : d.logicalSectorSize.toNat % 2 = 0) : transferChecks dev device lba cnt = .ok d :=
  transferChecks_ok.2 ⟨lbaTopNibble_eq_zero.2 hlba, hd, hcnt, badSectorSize_eq_false.2 ⟨hsize, heven⟩⟩

/-! ### READ_SECTORS and WRITE_SECTORS past their checks (R173, R174) -/

/-- Settles O38: the trace of the body, past the checks. -/
theorem readSectorsFollowsItsRule : Obligations.ReadSectorsFollowsItsRule := by
  intro s device lba cnt out d h hlba hd hcnt hsize heven
  obtain ⟨evs, htrace, hacts, hdev, hsel, hini⟩ :=
    readSectors_acts (s := s.accept (.readSectors device lba cnt out)) (transferChecks_of hlba hd hcnt hsize heven) out
  exact ⟨evs, _, htrace, hacts.answered, exec_acts (i := .readSectors device lba cnt out) h rfl hacts hdev hsel hini⟩

/-- Settles O40: the trace of the body, past the checks. -/
theorem writeSectorsFollowsItsRule : Obligations.WriteSectorsFollowsItsRule := by
  intro s device lba cnt data d h hlba hd hcnt hsize heven
  obtain ⟨evs, htrace, hacts, hdev, hsel, hini⟩ :=
    writeSectors_acts (s := s.accept (.writeSectors device lba cnt data)) (transferChecks_of hlba hd hcnt hsize heven)
      data
  exact ⟨evs, _, htrace, hacts.answered, exec_acts (i := .writeSectors device lba cnt data) h rfl hacts hdev hsel hini⟩

/-- The answers left after a beginning `e` are enough for the rest `x` of a scripted trace. -/
theorem State.Scripted.rest {s : State} {e x : List Event} (h : s.Scripted (e ++ x)) :
    x.countP Event.isPortRead ≤ (s.answers.drop (e.countP Event.isPortRead)).length := by
  have hlen := h.1
  rw [List.countP_append] at hlen
  rw [List.length_drop]
  omega

/-- Settles O39: READ_SECTORS makes some trace of its rule, and the answers leave no other. -/
theorem readSectorsDeterminedByAnswers : Obligations.ReadSectorsDeterminedByAnswers := by
  intro s device lba cnt out d evs res h hlba hd hcnt hsize heven htrace hscript
  obtain ⟨evs', res', htrace', hc', hexec⟩ :=
    readSectorsFollowsItsRule s device lba cnt out d h hlba hd hcnt hsize heven
  obtain ⟨rfl, rfl⟩ := htrace.unique htrace' (consistent_rest hscript.2) (consistent_rest hc') hscript.rest
  exact hexec

/-- Settles O41: WRITE_SECTORS makes some trace of its rule, and the answers leave no other. -/
theorem writeSectorsDeterminedByAnswers : Obligations.WriteSectorsDeterminedByAnswers := by
  intro s device lba cnt data d evs res h hlba hd hcnt hsize heven htrace hscript
  obtain ⟨evs', res', htrace', hc', hexec⟩ :=
    writeSectorsFollowsItsRule s device lba cnt data d h hlba hd hcnt hsize heven
  obtain ⟨rfl, rfl⟩ := htrace.unique htrace' (consistent_rest hscript.2) (consistent_rest hc') hscript.rest
  exact hexec

/-! ### The checks of a byte range (R202) -/

section checks
variable {dev : List Device} {id : Nat} {off size : BitVec 64} {d : Device}

theorem entryChecks_none (h : dev[id]? = none) : entryChecks dev id off size = .error .invalidArgument := by
  rw [entryChecks, h]

theorem entryChecks_some (h : dev[id]? = some d) (hsize : d.logicalSectorSize ≠ 0#64)
    (heven : d.logicalSectorSize.toNat % 2 = 0) :
    entryChecks dev id off size =
      if off.toNat % d.logicalSectorSize.toNat ≠ 0 ∨ size.toNat % d.logicalSectorSize.toNat ≠ 0 then
        .error .invalidArgument
      else if 2 ^ 28 ≤ off.toNat / d.logicalSectorSize.toNat then .error .unsupportedAddress
      else if size.toNat / d.logicalSectorSize.toNat = 0 ∨ 255 < size.toNat / d.logicalSectorSize.toNat then
        .error .invalidArgument
      else .ok (BitVec.ofNat 32 (off.toNat / d.logicalSectorSize.toNat),
        BitVec.ofNat 8 (size.toNat / d.logicalSectorSize.toNat)) := by
  rw [entryChecks, h]
  simp only [badSectorSize_eq_false.2 ⟨hsize, heven⟩, Bool.false_eq_true, if_false]

theorem entryChecks_badSectorSize (h : dev[id]? = some d)
    (hbad : d.logicalSectorSize = 0#64 ∨ d.logicalSectorSize.toNat % 2 = 1) :
    entryChecks dev id off size = .error .invalidArgument := by
  rw [entryChecks, h]
  exact if_pos (badSectorSize_eq_true.2 hbad)

/-- A range of `cnt` sectors from sector `lba` on passes the checks (R204). -/
theorem entryChecks_of {lba : BitVec 32} {cnt : Byte} (h : dev[id]? = some d) (hsize : d.logicalSectorSize ≠ 0#64)
    (heven : d.logicalSectorSize.toNat % 2 = 0) (hlba : lba.toNat < 2 ^ 28) (hcnt : cnt ≠ 0#8)
    (hoff : off.toNat = lba.toNat * d.logicalSectorSize.toNat)
    (hbytes : size.toNat = cnt.toNat * d.logicalSectorSize.toNat) :
    entryChecks dev id off size = .ok (lba, cnt) := by
  have hpos : 0 < d.logicalSectorSize.toNat := Nat.pos_of_ne_zero fun h0 => hsize (BitVec.eq_of_toNat_eq h0)
  have hcnt' : cnt.toNat ≠ 0 := fun h0 => hcnt (BitVec.eq_of_toNat_eq h0)
  have hmax := cnt.isLt
  rw [entryChecks_some h hsize heven, hoff, hbytes, Nat.mul_div_cancel _ hpos, Nat.mul_div_cancel _ hpos,
    if_neg (by simp), if_neg (by omega), if_neg (by omega), BitVec.ofNat_toNat, BitVec.ofNat_toNat,
    BitVec.setWidth_eq, BitVec.setWidth_eq]

end checks

/-- A READ that its checks refuse does nothing (R202). -/
theorem readBytes_refused {s : State} {id : Nat} {off size : BitVec 64} {kind : ErrorKind}
    (h : entryChecks s.dev id off size = .error kind) (buf : Nat) :
    readBytes id buf off size s = (.err kind 0, s) := by
  rw [readBytes, h]
  rfl

theorem writeBytes_refused {s : State} {id : Nat} {off size : BitVec 64} {kind : ErrorKind}
    (h : entryChecks s.dev id off size = .error kind) (buf : Nat) :
    writeBytes id buf off size s = (.err kind 0, s) := by
  rw [writeBytes, h]
  rfl

/-- Settles O44: the checks give the kind, and a refused request only answers. -/
theorem byteRangeChecksRefuse : Obligations.ByteRangeChecksRefuse := by
  intro s id buf off size kind h hcases
  have hc : entryChecks s.dev id off size = .error kind := by
    rcases hcases with ⟨hid, rfl⟩ | ⟨d, hd, ⟨hbad, rfl⟩ | ⟨hsize, heven, hrange⟩⟩
    · exact entryChecks_none (List.getElem?_eq_none hid)
    · exact entryChecks_badSectorSize hd hbad
    · rw [entryChecks_some hd hsize heven]
      rcases hrange with ⟨hunaligned, rfl⟩ | ⟨hoff, hbytes, hrange⟩
      · exact if_pos hunaligned
      · rw [if_neg (by simp [hoff, hbytes])]
        rcases hrange with ⟨hlba, rfl⟩ | ⟨hlba, rfl, hcnt⟩
        · exact if_pos hlba
        · rw [if_neg (by omega)]
          refine if_pos (hcnt.imp_left ?_)
          rintro rfl
          simp
  exact ⟨exec_quiet h (readBytes_refused (s := s.accept _) hc buf),
    exec_quiet h (writeBytes_refused (s := s.accept _) hc buf)⟩

/-! ### READ and WRITE past their checks (R200, R201) -/

/-- The events of ENSURE_SELECTED of a populated slot (R122). -/
def ensureEvents (s : State) (id : Nat) (d : Device) (vs : List Byte) : List Event :=
  if s.selected = .device id then [] else selectEvents s.params (s.params.channelOf d) d.isMaster vs

section range
variable {s : State} {id : Nat} {off size : BitVec 64} {d : Device} {lba : BitVec 32} {cnt : Byte}
  (hc : entryChecks s.dev id off size = .ok (lba, cnt)) (ht : transferChecks s.dev id lba cnt = .ok d)
include hc ht

/-- READ past its checks: ENSURE_SELECTED, then READ_SECTORS. -/
theorem readBytes_acts (buf : Nat) :
    ∃ vs evs, vs.length = 4 ∧
      ReadTrace s.params (s.params.channelOf d) d.logicalSectorSize.toNat buf 0 cnt.toNat evs
        (readBytes id buf off size s).1 ∧
      s.Acts (ensureEvents s id d vs ++ setupEvents s.params (s.params.channelOf d) d.isMaster 0x20#8 lba cnt ++ evs)
        (readBytes id buf off size s).2 ∧
      (readBytes id buf off size s).2.dev = s.dev ∧ (readBytes id buf off size s).2.selected = .device id ∧
      (readBytes id buf off size s).2.initDone = s.initDone := by
  obtain ⟨-, hd, -⟩ := transferChecks_ok.1 ht
  obtain ⟨vs, hlen, ha, hdev, hsel, hini⟩ := ensureSelected_some hd
  obtain ⟨evs, htrace, ha', hdev', hsel', hini'⟩ :=
    readSectors_acts (s := (ensureSelected id s).2) (by rw [hdev]; exact ht) buf
  rw [ha.params] at htrace ha'
  simp only [readBytes, hc]
  exact ⟨vs, evs, hlen, htrace, List.append_assoc _ _ evs ▸ ha.trans ha', hdev'.trans hdev, hsel'.trans hsel,
    hini'.trans hini⟩

/-- WRITE past its checks: ENSURE_SELECTED, which leaves the buffer, then WRITE_SECTORS. -/
theorem writeBytes_acts (buf : Nat) :
    ∃ vs evs, vs.length = 4 ∧
      WriteTrace s.params (s.params.channelOf d) d.logicalSectorSize.toNat buf s.mem 0 cnt.toNat evs
        (writeBytes id buf off size s).1 ∧
      s.Acts (ensureEvents s id d vs ++ setupEvents s.params (s.params.channelOf d) d.isMaster 0x30#8 lba cnt ++ evs)
        (writeBytes id buf off size s).2 ∧
      (writeBytes id buf off size s).2.dev = s.dev ∧ (writeBytes id buf off size s).2.selected = .device id ∧
      (writeBytes id buf off size s).2.initDone = s.initDone := by
  obtain ⟨-, hd, -⟩ := transferChecks_ok.1 ht
  obtain ⟨vs, hlen, ha, hdev, hsel, hini⟩ := ensureSelected_some hd
  obtain ⟨evs, htrace, ha', hdev', hsel', hini'⟩ :=
    writeSectors_acts (s := (ensureSelected id s).2) (by rw [hdev]; exact ht) buf
  rw [ha.params] at htrace ha'
  rw [ensureSelected_mem] at htrace
  simp only [writeBytes, hc]
  exact ⟨vs, evs, hlen, htrace, List.append_assoc _ _ evs ▸ ha.trans ha', hdev'.trans hdev, hsel'.trans hsel,
    hini'.trans hini⟩

end range

/-- Settles O45: the trace of the body, past the checks. -/
theorem readFollowsItsRule : Obligations.ReadFollowsItsRule := by
  intro s id buf off size d lba cnt h hd hsize heven hlba hcnt hoff hbytes
  obtain ⟨vs, evs, hlen, htrace, hacts, hdev, hsel, hini⟩ :=
    readBytes_acts (s := s.accept (.read id buf off size)) (entryChecks_of hd hsize heven hlba hcnt hoff hbytes)
      (transferChecks_of hlba hd hcnt hsize heven) buf
  exact ⟨vs, evs, _, hlen, htrace, hacts.answered, exec_acts (i := .read id buf off size) h rfl hacts hdev hsel hini⟩

/-- Settles O47: the trace of the body, past the checks. -/
theorem writeFollowsItsRule : Obligations.WriteFollowsItsRule := by
  intro s id buf off size d lba cnt h hd hsize heven hlba hcnt hoff hbytes
  obtain ⟨vs, evs, hlen, htrace, hacts, hdev, hsel, hini⟩ :=
    writeBytes_acts (s := s.accept (.write id buf off size)) (entryChecks_of hd hsize heven hlba hcnt hoff hbytes)
      (transferChecks_of hlba hd hcnt hsize heven) buf
  exact ⟨vs, evs, _, hlen, htrace, hacts.answered, exec_acts (i := .write id buf off size) h rfl hacts hdev hsel hini⟩

/-- What ENSURE_SELECTED and the setup do is fixed but for the values of the settle reads. -/
theorem ensureEvents_append_shape (s : State) (id : Nat) (d : Device) {vs vs' : List Byte} (h : vs.length = vs'.length)
    (setup : List Event) :
    (ensureEvents s id d vs ++ setup).map Event.shape = (ensureEvents s id d vs' ++ setup).map Event.shape := by
  have hreads : ∀ (q : Nat) (l : List Byte),
      (l.map fun v => Event.r8 q v).map Event.shape = List.replicate l.length (.r8 q 0#8) := by
    intro q l
    rw [List.map_map, List.eq_replicate_iff]
    simp [Event.shape]
  unfold ensureEvents
  split
  · rfl
  · simp only [selectEvents, List.map_append, List.map_cons, hreads, h]

/-- The answers fix a beginning of fixed shape, and what they leave is the same for both rests. -/
theorem State.Scripted.split {s : State} {e x e' x' : List Event} (h : s.Scripted (e ++ x))
    (hc' : consistent (e' ++ x') s.answers s.mem = true) (hshape : e.map Event.shape = e'.map Event.shape) :
    e = e' ∧ consistent x (s.answers.drop (e.countP Event.isPortRead)) (replay e s.mem) = true ∧
      consistent x' (s.answers.drop (e.countP Event.isPortRead)) (replay e s.mem) = true := by
  obtain ⟨hlen, hc⟩ := h
  rw [List.countP_append] at hlen
  obtain rfl := shape_unique hshape hc hc' (by omega)
  exact ⟨rfl, consistent_rest hc, consistent_rest hc'⟩

/-- Settles O46: READ makes some trace of its rule, and the answers leave no other. -/
theorem readDeterminedByAnswers : Obligations.ReadDeterminedByAnswers := by
  intro s id buf off size d lba cnt vs evs res h hd hsize heven hlba hcnt hoff hbytes hlen htrace all hscript
  obtain ⟨vs', evs', res', hlen', htrace', hc', hexec⟩ :=
    readFollowsItsRule s id buf off size d lba cnt h hd hsize heven hlba hcnt hoff hbytes
  obtain ⟨hhead, hx, hx'⟩ := hscript.split hc' (ensureEvents_append_shape s id d (hlen.trans hlen'.symm) _)
  obtain ⟨rfl, rfl⟩ := htrace.unique htrace' hx hx' hscript.rest
  rw [show all = _ from congrArg (· ++ evs) hhead]
  exact hexec

/-- Settles O48: WRITE makes some trace of its rule, and the answers leave no other. -/
theorem writeDeterminedByAnswers : Obligations.WriteDeterminedByAnswers := by
  intro s id buf off size d lba cnt vs evs res h hd hsize heven hlba hcnt hoff hbytes hlen htrace all hscript
  obtain ⟨vs', evs', res', hlen', htrace', hc', hexec⟩ :=
    writeFollowsItsRule s id buf off size d lba cnt h hd hsize heven hlba hcnt hoff hbytes
  obtain ⟨hhead, hx, hx'⟩ := hscript.split hc' (ensureEvents_append_shape s id d (hlen.trans hlen'.symm) _)
  obtain ⟨rfl, rfl⟩ := htrace.unique htrace' hx hx' hscript.rest
  rw [show all = _ from congrArg (· ++ evs) hhead]
  exact hexec

end Sys2Proof.Machine
end

section
/-! SUPPORT. Whatever an instruction does: what its trace tells, what a failure leaves, and which results there are. -/
namespace Sys2Proof.Machine

/-! ### The trace (00_scope R9) -/

/-- Settles O49: every body acts by allowed accesses, and delivery changes nothing that the trace does not tell. -/
theorem traceTellsAll : Obligations.TraceTellsAll := by
  intro i s t h
  obtain ⟨hrefusal, rfl⟩ := exec_next h
  obtain ⟨hidle, -, -⟩ := State.refusal_none.1 hrefusal
  obtain ⟨evs, ha, hallowed⟩ := body_acts i (s.accept i)
  exact ⟨evs, (body i (s.accept i)).1, ha.answered, hallowed, ha.deliver hidle _⟩

/-! ### Failures (60_exceptions R225) -/

/-- The setup of a transfer is six port writes (R172). -/
theorem setupEvents_countP_isPort (p : Params) (ch : Channel) (m : Bool) (op : Byte) (lba : BitVec 32) (cnt : Byte) :
    (setupEvents p ch m op lba cnt).countP Event.isPort = 6 := rfl

/-- A transfer past its checks makes port accesses. -/
theorem State.Acts.accesses_lt {s t : State} {e f : List Event} {p : Params} {ch : Channel} {m : Bool} {op : Byte}
    {lba : BitVec 32} {cnt : Byte} (h : s.Acts (e ++ (setupEvents p ch m op lba cnt ++ f)) t) :
    s.accesses < t.accesses := by
  rw [h.accesses, List.countP_append, List.countP_append, setupEvents_countP_isPort]
  omega

/-- A body that fails has done nothing at all and counts no sector, or it has made port accesses, and then only a READ
or a WRITE has selected a device. -/
theorem body_failure {i : Instr} {s : State} {kind : ErrorKind} {k : Nat} (h : (body i s).1 = .err kind k) :
    (body i s).2 = s ∧ k = 0 ∨
      s.accesses < (body i s).2.accesses ∧
        ((body i s).2.selected = s.selected ∨
          ∃ id buf off size, i = .read id buf off size ∨ i = .write id buf off size) := by
  have quiet : ∀ {kind'}, body i s = (.err kind' 0, s) → (body i s).2 = s ∧ k = 0 := by
    intro kind' hb
    rw [hb] at h ⊢
    cases h
    exact ⟨rfl, rfl⟩
  cases i with
  | select id =>
    rcases selectDevice_result id s with hres | hb
    · cases hres.symm.trans h
    · exact .inl (quiet hb)
  | ensureSelected id =>
    rcases ensureSelected_result id s with hres | hb
    · cases hres.symm.trans h
    · exact .inl (quiet hb)
  | readSectors48 | writeSectors48 => exact .inl (quiet rfl)
  | readSectors d lba n b =>
    rcases readSectors_cases d lba n b s with ⟨_, -, hb⟩ | ⟨_, _, -, -, ha⟩
    · exact .inl (quiet hb)
    · exact .inr ⟨State.Acts.accesses_lt (e := []) ha, .inl (readSectors_engine d lba n b s).2.2⟩
  | writeSectors d lba n b =>
    rcases writeSectors_cases d lba n b s with ⟨_, -, hb⟩ | ⟨_, _, -, -, ha⟩
    · exact .inl (quiet hb)
    · exact .inr ⟨State.Acts.accesses_lt (e := []) ha, .inl (writeSectors_engine d lba n b s).2.2⟩
  | read id buf off size =>
    rcases readBytes_cases id buf off size s with ⟨_, -, hb⟩ | ⟨_, _, _, _, _, -, -, -, -, -, -, ha⟩
    · exact .inl (quiet hb)
    · exact .inr ⟨ha.accesses_lt, .inr ⟨id, buf, off, size, .inl rfl⟩⟩
  | write id buf off size =>
    rcases writeBytes_cases id buf off size s with ⟨_, -, hb⟩ | ⟨_, _, _, _, _, -, -, -, -, -, -, ha⟩
    · exact .inl (quiet hb)
    · exact .inr ⟨ha.accesses_lt, .inr ⟨id, buf, off, size, .inr rfl⟩⟩
  | init => cases (initialise_result s).symm.trans h
  | identifyCmd | readSectorsCmd | writeSectorsCmd | flushCacheCmd | selMaster | selSlave | xferSelMaster | xferSelSlave
  | probeAll | selectPosition | poll | decode => cases h
  | identify ch m =>
    have hres : (body (.identify ch m) s).1 = identifyResult (identify s.params ch m s.run).1 := rfl
    rw [hres] at h
    cases hfound : (identify s.params ch m s.run).1 <;> rw [hfound] at h <;> cases h

/-- Settles O51: probing does not fail, so the registry and `init_done` stay; the rest is what a failed body leaves. -/
theorem failureLeavesEngineState : Obligations.FailureLeavesEngineState := by
  intro i s t kind k h hres
  have hbody : (body i (s.accept i)).1 = .err kind k := by simpa [exec_result h] using hres
  obtain ⟨hwdev, hwini, -⟩ := engineStateWriters i s t h
  have hprobe : i ≠ .init ∧ i ≠ .probeAll := by
    refine ⟨?_, ?_⟩ <;> rintro rfl
    · cases (initialise_result _).symm.trans hbody
    · cases hbody
  have hdev : t.dev = s.dev := by
    by_contra hne
    exact (hwdev hne).elim hprobe.1 hprobe.2
  have hini : t.initDone = s.initDone := by
    by_contra hne
    exact hprobe.1 (hwini hne).1
  obtain ⟨-, rfl⟩ := exec_next h
  refine ⟨hdev, hini, rfl, rfl, fun hacc => ?_, fun hsel => ?_⟩
  · rcases body_failure hbody with ⟨hsame, hk⟩ | ⟨hlt, -⟩
    · rw [hsame]
      exact ⟨rfl, rfl, rfl, hk⟩
    · exact absurd hacc (Nat.ne_of_gt hlt)
  · rcases body_failure hbody with ⟨hsame, -⟩ | ⟨-, hsame | hop⟩
    · exact absurd (by rw [hsame]; rfl) hsel
    · exact absurd hsame hsel
    · exact hop

/-! ### Results (60_exceptions R233) -/

theorem ReadTrace.ofTransfer {p : Params} {ch : Channel} {size out n : Nat} {evs : List Event} {res : Result}
    (h : ReadTrace p ch size out 0 n evs res) : res.ofTransfer n := by
  have hres := h.result
  rw [Nat.zero_add] at hres
  exact hres.imp_right fun ⟨j, _, hlt, hj⟩ => ⟨j, hlt, hj⟩

theorem WriteTrace.ofTransfer {p : Params} {ch : Channel} {size data n : Nat} {mem : Memory} {evs : List Event}
    {res : Result} (h : WriteTrace p ch size data mem 0 n evs res) : res.ofTransfer n := by
  have hres := h.result
  rw [Nat.zero_add] at hres
  exact hres.imp_right fun ⟨j, _, hlt, hj⟩ => ⟨j, hlt, hj⟩

/-- A refused transfer (R171, R202). -/
theorem ofRefusal_of {kind : ErrorKind} (h : kind = .unsupportedAddress ∨ kind = .invalidArgument) :
    (Result.err kind 0).ofRefusal := by
  rcases h with rfl | rfl
  · exact .inl rfl
  · exact .inr rfl

/-- A count that the checks let through, as a number (R171 X3). -/
theorem transferChecks_ok_bounds {dev : List Device} {device : Nat} {lba : BitVec 32} {cnt : Byte} {d : Device}
    (h : transferChecks dev device lba cnt = .ok d) : 1 ≤ cnt.toNat ∧ cnt.toNat ≤ 255 := by
  have hlt := cnt.isLt
  obtain ⟨-, -, hne, -⟩ := transferChecks_ok.1 h
  have hne' : cnt.toNat ≠ 0 := fun h0 => hne (BitVec.eq_of_toNat_eq h0)
  omega

/-- Each body has a result of its row of R233. -/
theorem body_fits (i : Instr) {s : State} (hcount : s.count ≤ 4) : (body i s).1.fits i := by
  cases i with
  | identifyCmd | readSectorsCmd | writeSectorsCmd | flushCacheCmd | selMaster | selSlave | xferSelMaster | xferSelSlave
  | probeAll | selectPosition | readSectors48 | writeSectors48 => rfl
  | poll | decode => exact ⟨_, rfl⟩
  | identify => exact ⟨_, identifyResult_eq _⟩
  | init => exact ⟨_, body_count_le .init hcount, initialise_result s⟩
  | select id => exact (selectDevice_result id s).imp_right fun hb => congrArg Prod.fst hb
  | ensureSelected id => exact (ensureSelected_result id s).imp_right fun hb => congrArg Prod.fst hb
  | readSectors d lba n b =>
    rcases readSectors_cases d lba n b s with ⟨kind, hkind, hb⟩ | ⟨_, _, hc, htrace, -⟩
    · rw [body, hb]
      exact .inl (ofRefusal_of hkind)
    · exact .inr ⟨(transferChecks_ok.1 hc).2.2.1, htrace.ofTransfer⟩
  | writeSectors d lba n b =>
    rcases writeSectors_cases d lba n b s with ⟨kind, hkind, hb⟩ | ⟨_, _, hc, htrace, -⟩
    · rw [body, hb]
      exact .inl (ofRefusal_of hkind)
    · exact .inr ⟨(transferChecks_ok.1 hc).2.2.1, htrace.ofTransfer⟩
  | read id buf off size =>
    rcases readBytes_cases id buf off size s with ⟨kind, hkind, hb⟩ | ⟨_, _, cnt, _, _, -, hc, -, -, -, htrace, -⟩
    · rw [body, hb]
      exact .inl (ofRefusal_of hkind)
    · obtain ⟨hmin, hmax⟩ := transferChecks_ok_bounds hc
      exact .inr ⟨cnt.toNat, hmin, hmax, htrace.ofTransfer⟩
  | write id buf off size =>
    rcases writeBytes_cases id buf off size s with ⟨kind, hkind, hb⟩ | ⟨_, _, cnt, _, _, -, hc, -, -, -, htrace, -⟩
    · rw [body, hb]
      exact .inl (ofRefusal_of hkind)
    · obtain ⟨hmin, hmax⟩ := transferChecks_ok_bounds hc
      exact .inr ⟨cnt.toNat, hmin, hmax, htrace.ofTransfer⟩

/-- Settles O52: what is delivered is the body's result. -/
theorem resultsFit : Obligations.ResultsFit := fun i _ _ hcount h => ⟨_, exec_result h, body_fits i hcount⟩

/-! ### The buffer (20_memory R40, R46) -/

theorem selectDevice_mem (id : Nat) (s : State) : (selectDevice id s).2.mem = s.mem := by
  rcases hd : s.dev[id]? with _ | d
  · rw [selectDevice_none hd]
  · obtain ⟨vs, -, -, ha, -⟩ := selectDevice_some hd
    rw [ha.mem]
    exact replay_noBufferWrite noBufferWrite_select _

theorem probeAll_mem (s : State) : (probeAll s).mem = s.mem := by
  obtain ⟨e₀, e₁, e₂, e₃, _, _, _, _, e₄, _, h₀, h₁, h₂, h₃, ha, -, -, -, hlast⟩ := probeAll_acts s
  have h₄ : noBufferWrite e₄ := by
    rcases hlast with ⟨-, rfl, -⟩ | ⟨_, _, -, -, -, rfl⟩
    · simp [noBufferWrite]
    · exact noBufferWrite_select
  rw [ha.mem]
  refine replay_noBufferWrite ?_ _
  simp only [noBufferWrite_append]
  exact ⟨⟨⟨⟨h₀.noBufferWrite, h₁.noBufferWrite⟩, h₂.noBufferWrite⟩, h₃.noBufferWrite⟩, h₄⟩

theorem writeSectors_mem (device : Nat) (lba : BitVec 32) (cnt : Byte) (data : Nat) (s : State) :
    (writeSectors device lba cnt data s).2.mem = s.mem := by
  rcases writeSectors_cases device lba cnt data s with ⟨_, -, hb⟩ | ⟨_, _, -, htrace, ha⟩
  · rw [hb]
  · rw [ha.mem]
    exact replay_noBufferWrite (noBufferWrite_append.2 ⟨noBufferWrite_setup, htrace.noBufferWrite⟩) _

theorem writeBytes_mem (id buf : Nat) (off size : BitVec 64) (s : State) :
    (writeBytes id buf off size s).2.mem = s.mem := by
  simp only [writeBytes]
  split
  · rfl
  · rw [writeSectors_mem, ensureSelected_mem]

/-- Only a READ or a READ_SECTORS writes the buffer. -/
theorem body_mem (i : Instr) (s : State) :
    (body i s).2.mem = s.mem ∨ (∃ device lba cnt out, i = .readSectors device lba cnt out) ∨
      ∃ id buf off size, i = .read id buf off size := by
  cases i with
  | readSectors d lba n b => exact .inr (.inl ⟨d, lba, n, b, rfl⟩)
  | read id buf off size => exact .inr (.inr ⟨id, buf, off, size, rfl⟩)
  | identifyCmd | readSectorsCmd | writeSectorsCmd | flushCacheCmd | selMaster | selSlave | xferSelMaster | xferSelSlave
  | decode | readSectors48 | writeSectors48 => exact .inl rfl
  | init =>
    rcases hini : s.initDone with _ | _
    · rw [body, initialise_first hini]
      exact .inl (probeAll_mem s)
    · rw [body, initialise_later hini]
      exact .inl rfl
  | probeAll => exact .inl (probeAll_mem s)
  | select id => exact .inl (selectDevice_mem id s)
  | ensureSelected id => exact .inl (ensureSelected_mem id s)
  | writeSectors d lba n b => exact .inl (writeSectors_mem d lba n b s)
  | write id buf off size => exact .inl (writeBytes_mem id buf off size s)
  | selectPosition ch m =>
    obtain ⟨_, _, -, hdid, -⟩ := selectPosition_spec s.params ch m s.run
    exact .inl (hdid.mem.trans (replay_noBufferWrite noBufferWrite_select _))
  | poll ch c t e n =>
    obtain ⟨_, _, _, _, -, hdid, -⟩ := poll_spec s.params ch c t e n s.run
    exact .inl (hdid.mem.trans (replay_noBufferWrite noBufferWrite_status _))
  | identify ch m =>
    obtain ⟨_, htrace, hdid, -⟩ := identify_spec s.params ch m s.run
    exact .inl (hdid.mem.trans (replay_noBufferWrite htrace.noBufferWrite _))

/-- A byte that a read trace changes lies in a sector that it completed. -/
theorem ReadTrace.changed_byte {p : Params} {ch : Channel} {size out n a : Nat} {pre evs : List Event} {res : Result}
    {mem : Memory} (h : ReadTrace p ch size out 0 n evs res) (hsize : size % 2 = 0) (hpre : noBufferWrite pre)
    (hne : Memory.read (replay (pre ++ evs) mem) a ≠ Memory.read mem a) :
    out ≤ a ∧ a < out + res.sectors * size := by
  by_contra hout
  refine hne (read_replay_other (fun b v hb => ?_) mem)
  have hb' : Event.mw b v ∈ evs := (List.mem_append.1 hb).resolve_left (hpre b v)
  have hrange := h.bufferWrites hsize b v hb'
  omega

theorem noBufferWrite_ensure (s : State) (id : Nat) (d : Device) (vs : List Byte) :
    noBufferWrite (ensureEvents s id d vs) := by
  unfold ensureEvents
  split
  · simp [noBufferWrite]
  · exact noBufferWrite_select

section checks
variable {dev : List Device} {device : Nat} {lba : BitVec 32} {cnt : Byte} {d : Device}
  (h : transferChecks dev device lba cnt = .ok d)
include h

theorem transferChecks_ok_record : dev[device]? = some d := (transferChecks_ok.1 h).2.1

/-- The record that the checks answer is the one in the slot. -/
theorem transferChecks_ok_unique {d' : Device} (hd : dev[device]? = some d') : d = d' :=
  Option.some_inj.1 ((transferChecks_ok_record h).symm.trans hd)

/-- The sector size is even (R171 X4). -/
theorem transferChecks_ok_even : d.logicalSectorSize.toNat % 2 = 0 := by
  obtain ⟨-, -, -, hsize⟩ := transferChecks_ok.1 h
  exact (badSectorSize_eq_false.1 hsize).2

end checks

/-- Settles O53: only reads write the buffer, and their traces write completed sectors only. -/
theorem bufferWrittenOnlyByCompletedReads : Obligations.BufferWrittenOnlyByCompletedReads := by
  intro i s t a r h hres hne
  have hr : (body i (s.accept i)).1 = r := by simpa [exec_result h] using hres
  obtain ⟨-, rfl⟩ := exec_next h
  have hne' : Memory.read (body i (s.accept i)).2.mem a ≠ Memory.read s.mem a := hne
  rcases body_mem i (s.accept i) with hmem | ⟨device, lba, cnt, out, rfl⟩ | ⟨id, buf, off, size, rfl⟩
  · rw [hmem] at hne'
    exact absurd rfl hne'
  · rcases readSectors_cases device lba cnt out (s.accept (.readSectors device lba cnt out))
      with ⟨_, -, hb⟩ | ⟨d, evs, hc, htrace, ha⟩
    · rw [body, hb] at hne'
      exact absurd rfl hne'
    · have heven := transferChecks_ok_even hc
      rw [body] at hr hne'
      rw [ha.mem] at hne'
      rw [hr] at htrace
      obtain ⟨hlow, hhigh⟩ := htrace.changed_byte heven noBufferWrite_setup hne'
      exact ⟨device, out, d, transferChecks_ok_record hc, hlow, hhigh, .inl ⟨lba, cnt, rfl⟩⟩
  · rcases readBytes_cases id buf off size (s.accept (.read id buf off size))
      with ⟨_, -, hb⟩ | ⟨d, lba, cnt, vs, evs, -, hc, -, -, -, htrace, ha⟩
    · rw [body, hb] at hne'
      exact absurd rfl hne'
    · have heven := transferChecks_ok_even hc
      rw [body] at hr hne'
      rw [ha.mem, ← List.append_assoc] at hne'
      rw [hr] at htrace
      obtain ⟨hlow, hhigh⟩ := htrace.changed_byte heven
        (noBufferWrite_append.2 ⟨noBufferWrite_ensure _ id d vs, noBufferWrite_setup⟩) hne'
      exact ⟨id, buf, d, transferChecks_ok_record hc, hlow, hhigh, .inr ⟨off, size, rfl⟩⟩

end Sys2Proof.Machine
end

section
/-! SUPPORT. Which ports an operation on a device touches (41_selection R121, 44_sector_transfer R170), and how many
events an operation makes (R104, R132, R137, R179). -/
namespace Sys2Proof.Machine

/-! ### The device's own channel (R121, R170) -/

theorem ensureEvents_allowed (s : State) (id : Nat) (d : Device) (vs : List Byte) :
    ∀ e ∈ ensureEvents s id d vs, e.allowedOn s.params (s.params.channelOf d) = true := by
  unfold ensureEvents
  split
  · simp
  · exact selectEvents_allowed

theorem readSetup_allowed {p : Params} {ch : Channel} {m : Bool} {lba : BitVec 32} {cnt : Byte} :
    ∀ e ∈ setupEvents p ch m 0x20#8 lba cnt, e.allowedOn p ch = true :=
  setupEvents_allowed (c := .readSectors)

theorem writeSetup_allowed {p : Params} {ch : Channel} {m : Bool} {lba : BitVec 32} {cnt : Byte} :
    ∀ e ∈ setupEvents p ch m 0x30#8 lba cnt, e.allowedOn p ch = true :=
  setupEvents_allowed (c := .writeSectors)

/-- From `s` to `t` only accesses allowed on the channel of the record `d` were made. -/
def ActsOn (s : State) (d : Device) (t : State) : Prop :=
  ∃ evs, s.Acts evs t ∧ ∀ e ∈ evs, e.allowedOn s.params (s.params.channelOf d) = true

theorem ActsOn.refl (s : State) (d : Device) : ActsOn s d s := ⟨[], State.Acts.refl s, by simp⟩

section device
variable {s : State} {id : Nat} {d : Device} (hd : s.dev[id]? = some d)
include hd

theorem selectDevice_actsOn : ActsOn s d (selectDevice id s).2 := by
  obtain ⟨vs, -, -, ha, -⟩ := selectDevice_some hd
  exact ⟨_, ha, selectEvents_allowed⟩

theorem ensureSelected_actsOn : ActsOn s d (ensureSelected id s).2 := by
  obtain ⟨vs, -, ha, -⟩ := ensureSelected_some hd
  exact ⟨_, ha, ensureEvents_allowed s id d vs⟩

theorem readSectors_actsOn (lba : BitVec 32) (cnt : Byte) (out : Nat) :
    ActsOn s d (readSectors id lba cnt out s).2 := by
  rcases readSectors_cases id lba cnt out s with ⟨_, -, hb⟩ | ⟨d', evs, hc, htrace, ha⟩
  · rw [hb]
    exact ActsOn.refl s d
  · obtain rfl : d' = d := transferChecks_ok_unique hc hd
    exact ⟨_, ha, List.forall_mem_append.2 ⟨readSetup_allowed, htrace.allowed⟩⟩

theorem writeSectors_actsOn (lba : BitVec 32) (cnt : Byte) (data : Nat) :
    ActsOn s d (writeSectors id lba cnt data s).2 := by
  rcases writeSectors_cases id lba cnt data s with ⟨_, -, hb⟩ | ⟨d', evs, hc, htrace, ha⟩
  · rw [hb]
    exact ActsOn.refl s d
  · obtain rfl : d' = d := transferChecks_ok_unique hc hd
    exact ⟨_, ha, List.forall_mem_append.2 ⟨writeSetup_allowed, htrace.allowed⟩⟩

theorem readBytes_actsOn (buf : Nat) (off size : BitVec 64) : ActsOn s d (readBytes id buf off size s).2 := by
  rcases readBytes_cases id buf off size s with ⟨_, -, hb⟩ | ⟨d', _, _, vs, evs, -, hc, -, -, -, htrace, ha⟩
  · rw [hb]
    exact ActsOn.refl s d
  · obtain rfl : d' = d := transferChecks_ok_unique hc hd
    exact ⟨_, ha, List.forall_mem_append.2
      ⟨ensureEvents_allowed s id d' vs, List.forall_mem_append.2 ⟨readSetup_allowed, htrace.allowed⟩⟩⟩

theorem writeBytes_actsOn (buf : Nat) (off size : BitVec 64) : ActsOn s d (writeBytes id buf off size s).2 := by
  rcases writeBytes_cases id buf off size s with ⟨_, -, hb⟩ | ⟨d', _, _, vs, evs, -, hc, -, -, -, htrace, ha⟩
  · rw [hb]
    exact ActsOn.refl s d
  · obtain rfl : d' = d := transferChecks_ok_unique hc hd
    exact ⟨_, ha, List.forall_mem_append.2
      ⟨ensureEvents_allowed s id d' vs, List.forall_mem_append.2 ⟨writeSetup_allowed, htrace.allowed⟩⟩⟩

end device

/-- Settles O57: the six operations act on the channel of the record that their handle names. -/
theorem deviceChannelOnly : Obligations.DeviceChannelOnly := by
  intro i s t id d hd h hop
  have hd' : (s.accept i).dev[id]? = some d := hd
  have hacts : ActsOn (s.accept i) d (body i (s.accept i)).2 := by
    rcases hop with rfl | rfl | ⟨lba, cnt, buf, rfl⟩ | ⟨lba, cnt, buf, rfl⟩ | ⟨buf, off, size, rfl⟩ |
      ⟨buf, off, size, rfl⟩
    · exact selectDevice_actsOn hd'
    · exact ensureSelected_actsOn hd'
    · exact readSectors_actsOn hd' lba cnt buf
    · exact writeSectors_actsOn hd' lba cnt buf
    · exact readBytes_actsOn hd' buf off size
    · exact writeBytes_actsOn hd' buf off size
  obtain ⟨evs, ha, hallowed⟩ := hacts
  rw [exec_newEvents h ha]
  exact hallowed

/-! ### How many events (R104, R132, R137, R179) -/

theorem PollReads.length_le {c t e : Byte} {budget : Nat} {l : List Byte} {o : PollOutcome}
    (h : PollReads c t e budget l o) : l.length ≤ budget := by
  cases o with
  | timedOut => exact h.1.le
  | ready =>
    obtain ⟨_, _, -, hlen, -⟩ := h
    exact hlen
  | errorFlagged =>
    obtain ⟨_, _, -, hlen, -⟩ := h
    exact hlen

theorem SettleReads.length_le {l : List Byte} (h : SettleReads l) : l.length ≤ 400 := by
  rcases h with ⟨_, _, -, hlen, -⟩ | ⟨hlen, -⟩
  · exact hlen
  · exact hlen.le

@[simp] theorem length_statusEvents (p : Params) (ch : Channel) (l : List Byte) :
    (statusEvents p ch l).length = l.length := List.length_map _

@[simp] theorem length_selectEvents (p : Params) (ch : Channel) (m : Bool) (vs : List Byte) :
    (selectEvents p ch m vs).length = vs.length + 1 := by simp [selectEvents]

@[simp] theorem length_setupEvents (p : Params) (ch : Channel) (m : Bool) (op : Byte) (lba : BitVec 32) (cnt : Byte) :
    (setupEvents p ch m op lba cnt).length = 6 := rfl

@[simp] theorem length_identifyHeadEvents (p : Params) (ch : Channel) (m : Bool) (vs : List Byte) (s4 : Byte) :
    (identifyHeadEvents p ch m vs s4).length = vs.length + 7 := by simp [identifyHeadEvents]

@[simp] theorem length_signatureEvents (p : Params) (ch : Channel) (mid hi : Byte) :
    (signatureEvents p ch mid hi).length = 2 := rfl

@[simp] theorem length_readWordEvents (port base j : Nat) (ws : List Word) :
    (readWordEvents port base j ws).length = 2 * ws.length := by
  induction ws generalizing j with
  | nil => rfl
  | cons v ws ih =>
    simp only [readWordEvents, List.length_cons, ih]
    omega

@[simp] theorem length_writeWordEvents (port base : Nat) (mem : Memory) (j n : Nat) :
    (writeWordEvents port base mem j n).length = 2 * n := by
  induction n generalizing j with
  | zero => rfl
  | succ n ih =>
    simp only [writeWordEvents, List.length_cons, ih]
    omega

/-- Eleven events come first (R132); two polls, the signature and 256 words are the most that can follow. -/
theorem IdentifyTrace.length_bounds {p : Params} {ch : Channel} {m : Bool} {evs : List Event}
    {found : Option (Vector Word 256)} (h : IdentifyTrace p ch m evs found) :
    11 ≤ evs.length ∧ evs.length ≤ 269 + 2 * p.pollBudget := by
  cases h with
  | absent vs hvs =>
    simp only [length_identifyHeadEvents, hvs]
    omega
  | busy vs l s4 o hvs _ _ hl =>
    have hl := hl.length_le
    simp only [List.length_append, length_identifyHeadEvents, length_statusEvents, hvs]
    omega
  | otherKind vs l s4 mid hi hvs _ hl =>
    have hl := hl.length_le
    simp only [List.length_append, length_identifyHeadEvents, length_statusEvents, length_signatureEvents, hvs]
    omega
  | noData vs l l' s4 o hvs _ _ hl hl' =>
    have hl := hl.length_le
    have hl' := hl'.length_le
    simp only [List.length_append, length_identifyHeadEvents, length_statusEvents, length_signatureEvents, hvs]
    omega
  | found vs l l' s4 w hvs _ hl hl' =>
    have hl := hl.length_le
    have hl' := hl'.length_le
    simp only [List.length_append, length_identifyHeadEvents, length_statusEvents, length_signatureEvents, hvs,
      List.length_map, Vector.length_toList]
    omega

/-- The most events of one sector, for each sector left (R179). -/
theorem ReadTrace.length_le {p : Params} {ch : Channel} {size out k m : Nat} {evs : List Event} {res : Result}
    (h : ReadTrace p ch size out k m evs res) : evs.length ≤ m * (p.pollBudget + 2 * (size / 2) + 400) := by
  induction h with
  | done => simp
  | pollError k m l hl | pollTimeout k m l hl =>
    have hl := hl.length_le
    rw [length_statusEvents, Nat.add_mul]
    omega
  | sector k m l l' ws evs res hl hws hl' _ ih =>
    have hl := hl.length_le
    have hl' := hl'.length_le
    simp only [List.length_append, length_statusEvents, length_readWordEvents, hws, Nat.add_mul m]
    omega

theorem WriteTrace.length_le {p : Params} {ch : Channel} {size data k m : Nat} {mem : Memory} {evs : List Event}
    {res : Result} (h : WriteTrace p ch size data mem k m evs res) :
    evs.length ≤ m * (p.pollBudget + 2 * (size / 2) + 1 + p.flushBudget) := by
  induction h with
  | done => simp
  | pollError k m l hl | pollTimeout k m l hl =>
    have hl := hl.length_le
    rw [length_statusEvents, Nat.add_mul]
    omega
  | flushTimeout k m l l' hl hl' =>
    have hl := hl.length_le
    have hl' := hl'.length_le
    simp only [List.length_append, length_statusEvents, length_writeWordEvents, List.length_singleton, Nat.add_mul m]
    omega
  | sector k m l l' evs res hl hl' _ ih =>
    have hl := hl.length_le
    have hl' := hl'.length_le
    simp only [List.length_append, length_statusEvents, length_writeWordEvents, List.length_singleton, Nat.add_mul m]
    omega

/-- Four IDENTIFYs and the default selection (R137). -/
theorem probeAll_length_le (s : State) :
    ∃ evs, s.Acts evs (probeAll s) ∧ evs.length ≤ 1081 + 8 * s.params.pollBudget := by
  obtain ⟨e₀, e₁, e₂, e₃, _, _, _, _, e₄, _, h₀, h₁, h₂, h₃, ha, -, -, -, hlast⟩ := probeAll_acts s
  have h₄ : e₄.length ≤ 5 := by
    rcases hlast with ⟨-, rfl, -⟩ | ⟨_, vs, -, hvs, -, rfl⟩
    · simp
    · simp [hvs]
  have h₀ := h₀.length_bounds.2
  have h₁ := h₁.length_bounds.2
  have h₂ := h₂.length_bounds.2
  have h₃ := h₃.length_bounds.2
  refine ⟨_, ha, ?_⟩
  simp only [List.length_append]
  omega

/-- Settles O58: the lengths of the traces that the bodies make. -/
theorem eventBounds : Obligations.EventBounds := by
  intro s t
  refine ⟨fun ch c st e n h => ?poll, fun ch m h => ?identify, fun h => ?probeAll, fun h => ?init,
    fun device lba cnt out d hd h => ?read, fun device lba cnt data d hd h => ?write⟩
  case poll =>
    obtain ⟨l, _, _, _, hl, hdid, -⟩ := poll_spec s.params ch c st e n (s.accept (.poll ch c st e n)).run
    rw [exec_newEvents h (State.acts_withRun hdid), length_statusEvents]
    exact hl.length_le
  case identify =>
    obtain ⟨evs, htrace, hdid, -⟩ := identify_spec s.params ch m (s.accept (.identify ch m)).run
    rw [exec_newEvents h (State.acts_withRun hdid)]
    exact htrace.length_bounds
  case probeAll =>
    obtain ⟨evs, ha, hlen⟩ := probeAll_length_le (s.accept .probeAll)
    rw [exec_newEvents h ha]
    exact hlen
  case init =>
    rcases hini : s.initDone with _ | _
    · obtain ⟨evs, ha, hlen⟩ := probeAll_length_le (s.accept .init)
      have ha' : (s.accept .init).Acts evs (body .init (s.accept .init)).2 := by
        rw [body, initialise_first (s := s.accept .init) hini]
        exact ha.set _ _ _ _
      rw [exec_newEvents h ha']
      exact hlen
    · rw [exec_newEvents_quiet h (initialise_later (s := s.accept .init) hini)]
      exact Nat.zero_le _
  case read =>
    rcases readSectors_cases device lba cnt out (s.accept (.readSectors device lba cnt out))
      with ⟨_, -, hb⟩ | ⟨d', evs, hc, htrace, ha⟩
    · rw [exec_newEvents_quiet h hb]
      exact Nat.zero_le _
    · obtain rfl : d' = d := transferChecks_ok_unique hc hd
      rw [exec_newEvents h ha, List.length_append, length_setupEvents]
      exact Nat.add_le_add_left htrace.length_le 6
  case write =>
    rcases writeSectors_cases device lba cnt data (s.accept (.writeSectors device lba cnt data))
      with ⟨_, -, hb⟩ | ⟨d', evs, hc, htrace, ha⟩
    · rw [exec_newEvents_quiet h hb]
      exact Nat.zero_le _
    · obtain rfl : d' = d := transferChecks_ok_unique hc hd
      rw [exec_newEvents h ha, List.length_append, length_setupEvents]
      exact Nat.add_le_add_left htrace.length_le 6

end Sys2Proof.Machine
end

section
/-! SUPPORT. The data words of a transfer (20_memory R46): as many as its sectors hold, in order, at the addresses that
the word's number gives. -/
namespace Sys2Proof.Machine

/-! ### Words received (R173) -/

/-- The words received from sector `k` on fill the sectors that the result counts. -/
theorem ReadTrace.receivedWords_length {p : Params} {ch : Channel} {size out k m : Nat} {evs : List Event}
    {res : Result} (h : ReadTrace p ch size out k m evs res) :
    (receivedWords evs).length + k * (size / 2) = res.sectors * (size / 2) := by
  induction h with
  | done k => simp [receivedWords, Result.sectors]
  | pollError k m l | pollTimeout k m l => simp [Result.sectors]
  | sector k m l l' ws evs res _ hws _ _ ih =>
    rw [Nat.add_mul, Nat.one_mul] at ih
    simp only [receivedWords_append, receivedWords_status, receivedWords_readWords, List.append_nil, List.nil_append,
      List.length_append, hws]
    omega

/-- Word `n` received from sector `k` on stands at `2 * n` past the sector's base, low byte first. -/
theorem ReadTrace.receivedWords_stored {p : Params} {ch : Channel} {size out k m n : Nat} {evs : List Event}
    {res : Result} {mem : Memory} {v : Word} (h : ReadTrace p ch size out k m evs res) (heven : size % 2 = 0)
    (hmem : Memory.wf mem) (hv : (receivedWords evs)[n]? = some v) :
    Memory.read (replay evs mem) (out + k * size + 2 * n) = v.extractLsb' 0 8 ∧
      Memory.read (replay evs mem) (out + k * size + 2 * n + 1) = v.extractLsb' 8 8 := by
  induction h generalizing n mem with
  | done k => simp [receivedWords] at hv
  | pollError k m l | pollTimeout k m l => simp at hv
  | sector k m l l' ws evs res _ hws _ htrace ih =>
    have hlen : (receivedWords (statusEvents p ch l ++ readWordEvents (p.port ch .data) (out + k * size) 0 ws ++
        statusEvents p ch l')) = ws := by simp
    rw [receivedWords_append, hlen] at hv
    have hmem' := replay_wf (readWordEvents (p.port ch .data) (out + k * size) 0 ws) hmem
    simp only [replay_append, replay_statusEvents]
    rcases Nat.lt_or_ge n ws.length with hn | hn
    case inl =>
      rw [List.getElem?_append_left hn] at hv
      have hlater : ∀ b, b < out + (k + 1) * size →
          Memory.read (replay evs (replay (readWordEvents (p.port ch .data) (out + k * size) 0 ws) mem)) b =
            Memory.read (replay (readWordEvents (p.port ch .data) (out + k * size) 0 ws) mem) b := by
        intro b hb
        refine read_replay_other (fun a u ha => ?_) _
        obtain ⟨hlow, -⟩ := htrace.bufferWrites heven a u ha
        omega
      rw [Nat.add_mul, Nat.one_mul] at hlater
      rw [hlater _ (by omega), hlater _ (by omega)]
      simpa only [Nat.zero_add] using replay_readWords hmem (p.port ch .data) (out + k * size) 0 ws n v hv
    case inr =>
      rw [List.getElem?_append_right hn] at hv
      have hword := ih hmem' hv
      rwa [show out + (k + 1) * size + 2 * (n - ws.length) = out + k * size + 2 * n by
        rw [Nat.add_mul, Nat.one_mul]; omega] at hword

/-- Settles O54: the words of the read trace, from sector 0 on; a refused request received none. -/
theorem receivedWordsInOrder : Obligations.ReceivedWordsInOrder := by
  intro s t device lba cnt out d r hmem hd h hres
  have hr : (body (.readSectors device lba cnt out) (s.accept (.readSectors device lba cnt out))).1 = r := by
    simpa [exec_result h] using hres
  rw [body] at hr
  rcases readSectors_cases device lba cnt out (s.accept (.readSectors device lba cnt out))
    with ⟨kind, -, hb⟩ | ⟨d', evs, hc, htrace, ha⟩
  · rw [hb] at hr
    rw [exec_newEvents_quiet h hb, ← hr]
    simp [receivedWords, Result.sectors]
  · obtain rfl := transferChecks_ok_unique hc hd
    rw [hr] at htrace
    rw [exec_newEvents h ha, receivedWords_append, receivedWords_setup, List.nil_append]
    refine ⟨by simpa using htrace.receivedWords_length, fun n v hv => ?_⟩
    obtain ⟨hlow, hhigh⟩ := htrace.receivedWords_stored (transferChecks_ok_even hc) hmem hv
    simp only [Nat.zero_mul, Nat.add_zero] at hlow hhigh
    have hbyte : t.mem = replay evs s.mem := by
      rw [exec_mem h ha, replay_append, replay_noBufferWrite noBufferWrite_setup]
    rw [State.byte, State.byte, hbyte, hlow, hhigh]
    exact ⟨lowByte_toNat v, highByte_toNat v⟩

/-! ### Words sent (R174) -/

/-- The words sent from sector `k` on fill the sectors that the result counts, or one more whose flush timed out. -/
theorem WriteTrace.sentWords_length {p : Params} {ch : Channel} {size data k m : Nat} {mem : Memory} {evs : List Event}
    {res : Result} (h : WriteTrace p ch size data mem k m evs res) :
    (sentWords evs).length + k * (size / 2) = res.sectors * (size / 2) ∨
      (res = .err .timeout res.sectors ∧
        (sentWords evs).length + k * (size / 2) = (res.sectors + 1) * (size / 2)) := by
  have hflush : sentWords [Event.w8 (p.port ch .command) 0xE7#8] = [] := rfl
  induction h with
  | done k => exact .inl (by simp [sentWords, Result.sectors])
  | pollError k m l | pollTimeout k m l => exact .inl (by simp [Result.sectors])
  | flushTimeout k m l l' =>
    refine .inr ⟨rfl, ?_⟩
    simp only [sentWords_append, sentWords_status, hflush, List.append_nil, List.nil_append,
      sentWords_writeWords_length, Result.sectors, Nat.add_mul]
    omega
  | sector k m l l' evs res _ _ _ ih =>
    simp only [sentWords_append, sentWords_status, hflush, List.append_nil, List.nil_append, List.length_append,
      sentWords_writeWords_length]
    refine ih.imp (fun hlen => ?_) fun hlen => ⟨hlen.1, ?_⟩
    · rw [Nat.add_mul k] at hlen
      omega
    · have hlen := hlen.2
      rw [Nat.add_mul k] at hlen
      omega

/-- Word `n` sent from sector `k` on is the buffer's at `2 * n` past the sector's base. -/
theorem WriteTrace.sentWords_eq {p : Params} {ch : Channel} {size data k m n : Nat} {mem : Memory} {evs : List Event}
    {res : Result} {v : Word} (h : WriteTrace p ch size data mem k m evs res) (heven : size % 2 = 0)
    (hv : (sentWords evs)[n]? = some v) : v = Memory.readWord mem (data + k * size + 2 * n) := by
  have hflush : sentWords [Event.w8 (p.port ch .command) 0xE7#8] = [] := rfl
  have hsector : ∀ {k n v},
      (sentWords (writeWordEvents (p.port ch .data) (data + k * size) mem 0 (size / 2)))[n]? = some v →
      v = Memory.readWord mem (data + k * size + 2 * n) := by
    intro k n v hv
    rw [sentWords_writeWords] at hv
    split at hv
    · rw [Nat.zero_add] at hv
      exact (Option.some_inj.1 hv).symm
    · cases hv
  induction h generalizing n with
  | done k => simp [sentWords] at hv
  | pollError k m l | pollTimeout k m l => simp at hv
  | flushTimeout k m l l' =>
    simp only [sentWords_append, sentWords_status, hflush, List.append_nil, List.nil_append] at hv
    exact hsector hv
  | sector k m l l' evs res _ _ _ ih =>
    simp only [sentWords_append, sentWords_status, hflush, List.append_nil, List.nil_append] at hv
    rcases Nat.lt_or_ge n (size / 2) with hn | hn
    case inl =>
      rw [List.getElem?_append_left (by simpa using hn)] at hv
      exact hsector hv
    case inr =>
      rw [List.getElem?_append_right (by simpa using hn), sentWords_writeWords_length] at hv
      have hword := ih hv
      rwa [show data + (k + 1) * size + 2 * (n - size / 2) = data + k * size + 2 * n by
        rw [Nat.add_mul, Nat.one_mul]; omega] at hword

/-- Settles O55: the words of the write trace, from sector 0 on; a refused request sent none. -/
theorem sentWordsInOrder : Obligations.SentWordsInOrder := by
  intro s t device lba cnt data d r hd h hres
  have hr : (body (.writeSectors device lba cnt data) (s.accept (.writeSectors device lba cnt data))).1 = r := by
    simpa [exec_result h] using hres
  rw [body] at hr
  have hmem : t.mem = s.mem := by
    rw [(exec_next h).2]
    exact writeSectors_mem device lba cnt data _
  refine ⟨hmem, ?_⟩
  rcases writeSectors_cases device lba cnt data (s.accept (.writeSectors device lba cnt data))
    with ⟨kind, -, hb⟩ | ⟨d', evs, hc, htrace, ha⟩
  · rw [hb] at hr
    rw [exec_newEvents_quiet h hb, ← hr]
    simp [sentWords, Result.sectors]
  · obtain rfl := transferChecks_ok_unique hc hd
    rw [hr] at htrace
    rw [exec_newEvents h ha, sentWords_append, sentWords_setup, List.nil_append]
    have hlen := htrace.sentWords_length
    rw [Nat.zero_mul, Nat.add_zero] at hlen
    refine ⟨?complete, hlen, fun n v hv => ?word⟩
    case complete =>
      rintro rfl
      exact hlen.resolve_right fun hlate => by cases hlate.1
    case word =>
      have hv := htrace.sentWords_eq (transferChecks_ok_even hc) hv
      rw [hv, Nat.zero_mul, Nat.add_zero]
      exact Memory.readWord_toNat s.mem (data + 2 * n)

/-! ### Written and read back (R55) -/

theorem Memory.readWord_low (m : Memory) (a : Nat) : (Memory.readWord m a).extractLsb' 0 8 = Memory.read m a := by
  apply BitVec.eq_of_toNat_eq
  have hlow := (Memory.read m a).isLt
  rw [lowByte_toNat, Memory.readWord_toNat]
  omega

theorem Memory.readWord_high (m : Memory) (a : Nat) :
    (Memory.readWord m a).extractLsb' 8 8 = Memory.read m (a + 1) := by
  apply BitVec.eq_of_toNat_eq
  have hlow := (Memory.read m a).isLt
  rw [highByte_toNat, Memory.readWord_toNat]
  omega

theorem sentWords_ensureEvents (s : State) (id : Nat) (d : Device) (vs : List Byte) :
    sentWords (ensureEvents s id d vs) = [] := by
  unfold ensureEvents
  split
  · rfl
  · exact sentWords_select _ _ _ _

theorem receivedWords_ensureEvents (s : State) (id : Nat) (d : Device) (vs : List Byte) :
    receivedWords (ensureEvents s id d vs) = [] := by
  unfold ensureEvents
  split
  · rfl
  · exact receivedWords_select _ _ _ _

/-- The words that a WRITE sends are the buffer's from its base on. -/
theorem sentWords_of_write {s t : State} {id data n : Nat} {off size : BitVec 64} {v : Word}
    (h : exec (.write id data off size) s = .next t) (hv : (sentWords (newEvents s t))[n]? = some v) :
    v = Memory.readWord s.mem (data + 2 * n) := by
  rcases writeBytes_cases id data off size (s.accept (.write id data off size))
    with ⟨_, -, hb⟩ | ⟨d, lba, cnt, vs, evs, -, hc, -, -, -, htrace, ha⟩
  · rw [exec_newEvents_quiet h hb] at hv
    cases hv
  · have hwords : sentWords (newEvents s t) = sentWords evs := by
      rw [exec_newEvents h ha, sentWords_append, sentWords_append, sentWords_setup, List.nil_append]
      exact congrArg (· ++ sentWords evs) (sentWords_ensureEvents (s.accept (.write id data off size)) id d vs)
    rw [hwords] at hv
    have hword := htrace.sentWords_eq (transferChecks_ok_even hc) hv
    rwa [Nat.zero_mul, Nat.add_zero] at hword

/-- A READ that succeeds receives two bytes a word, and each word stands at its place in the buffer. -/
theorem receivedWords_of_read {s t : State} {id out m : Nat} {off size : BitVec 64}
    (h : exec (.read id out off size) s = .next t) (hres : t.result = some (.ok m)) (hmem : Memory.wf s.mem) :
    size.toNat = 2 * (receivedWords (newEvents s t)).length ∧
      ∀ n v, (receivedWords (newEvents s t))[n]? = some v →
        t.byte (out + 2 * n) = v.extractLsb' 0 8 ∧ t.byte (out + 2 * n + 1) = v.extractLsb' 8 8 := by
  have hr : (body (.read id out off size) (s.accept (.read id out off size))).1 = .ok m := by
    simpa [exec_result h] using hres
  rw [body] at hr
  rcases readBytes_cases id out off size (s.accept (.read id out off size))
    with ⟨_, -, hb⟩ | ⟨d, lba, cnt, vs, evs, -, hc, -, -, hbytes, htrace, ha⟩
  · rw [hb] at hr
    cases hr
  · have heven := transferChecks_ok_even hc
    rw [hr] at htrace
    have hall : m = cnt.toNat := by
      rcases htrace.result with hok | ⟨_, -, -, herr | herr⟩
      · simpa using hok
      · cases herr
      · cases herr
    have hwords : receivedWords (newEvents s t) = receivedWords evs := by
      rw [exec_newEvents h ha, receivedWords_append, receivedWords_append, receivedWords_setup, List.nil_append]
      exact congrArg (· ++ receivedWords evs) (receivedWords_ensureEvents (s.accept (.read id out off size)) id d vs)
    have hbuffer : t.mem = replay evs s.mem := by
      rw [exec_mem h ha, replay_append, replay_append, replay_noBufferWrite noBufferWrite_setup]
      exact congrArg (replay evs)
        (replay_noBufferWrite (noBufferWrite_ensure (s.accept (.read id out off size)) id d vs) s.mem)
    rw [hwords]
    refine ⟨?length, fun n v hv => ?stored⟩
    case length =>
      have hlen := htrace.receivedWords_length
      rw [Nat.zero_mul, Nat.add_zero, hall] at hlen
      rw [hlen, hbytes, Result.sectors, Nat.mul_left_comm, Nat.mul_div_cancel' (Nat.dvd_of_mod_eq_zero heven)]
    case stored =>
      have hword := htrace.receivedWords_stored heven hmem hv
      simp only [Nat.zero_mul, Nat.add_zero] at hword
      rw [State.byte, State.byte, hbuffer]
      exact hword

/-- Settles O56: byte `a` belongs to word `a / 2`, which was received as it was sent. -/
theorem writeThenReadReturnsBytes : Obligations.WriteThenReadReturnsBytes := by
  intro s t u v id data out off size n m hmem _ hwrite _ hread hres hwords a ha
  obtain ⟨hsize, hstored⟩ := receivedWords_of_read hread hres hmem
  obtain ⟨w, hw⟩ : ∃ w, (receivedWords (newEvents u v))[a / 2]? = some w :=
    ⟨_, List.getElem?_eq_getElem (by omega)⟩
  obtain ⟨hlow, hhigh⟩ := hstored _ w hw
  rw [hwords] at hw
  obtain rfl := sentWords_of_write hwrite hw
  rw [Memory.readWord_low] at hlow
  rw [Memory.readWord_high] at hhigh
  rcases Nat.mod_two_eq_zero_or_one a with ha | ha
  · rwa [show out + 2 * (a / 2) = out + a by omega, show data + 2 * (a / 2) = data + a by omega] at hlow
  · rwa [show out + 2 * (a / 2) + 1 = out + a by omega, show data + 2 * (a / 2) + 1 = data + a by omega] at hhigh

end Sys2Proof.Machine
end
